-- ==== Sys2Proof/Word.lean ====
section
/-! DEFINITION. The word types: a byte, a byte string, a 32-bit field (spec/00_scope.md R12, R10). -/

namespace Sys2Proof

/-- R12: a byte, 0..255. -/
abbrev Byte := BitVec 8

/-- R12: a byte string, indexed from 0. -/
abbrev Bytes := List Byte

/-- R10, R100: a 32-bit unsigned field (`length`, `crc`, `width`, `height`). -/
abbrev U32 := BitVec 32

end Sys2Proof
end

