-- ==== Sys2Proof/Syntax.lean ====
section
/-! DEFINITION. The instructions: one constructor of `Instr` for each row of spec/opcode_table.json
(R4, R102), the filter kinds (R98), the chunk tags (R93, R94), and what a decoder is told about the place
an item is fetched from (R102) and answers when it rejects one. -/

namespace Sys2Proof

/-- R98: FilterKind, in the fixed order None, Sub, Up, Average, Paeth. -/
inductive FilterKind where
  | none
  | sub
  | up
  | average
  | paeth
deriving DecidableEq, Repr

/-- R65, R94: a chunk tag, four bytes in stream order, compared as bytes. -/
structure Tag where
  b0 : Byte
  b1 : Byte
  b2 : Byte
  b3 : Byte
deriving DecidableEq, Repr

/-- The 31 rows of spec/opcode_table.json.  A chunk record's instruction is its 8-byte head (R92): the declared
length and, for `C.OTHER`, the tag; payload and crc are operands in buffer `IN`
(DEDUCED, log entry 18).  A scanline record's instruction
is its type byte (R97); a byte operation's is the kind code (R174 to R183); a command's is `CMD` (R109). -/
inductive Instr where
  | sig
  | cIhdr (len : U32)
  | cIdat (len : U32)
  | cIend (len : U32)
  | cOther (len : U32) (tag : Tag)
  | rNone
  | rSub
  | rUp
  | rAvg
  | rPaeth
  | fNone
  | fSub
  | fUp
  | fAvg
  | fPaeth
  | encNone
  | encSub
  | encUp
  | encAvg
  | encPaeth
  | decNone
  | decSub
  | decUp
  | decAvg
  | decPaeth
  | cmdDecode
  | cmdEncode
  | cmdParse
  | cmdRecon
  | cmdFilter
  | cmdSelect
deriving DecidableEq, Repr

/-- R102: where an item is fetched from.  The five 8-bit formats of the opcode table share their code values, so
the place decides the format. -/
inductive Context where
  /-- Offset 0 of a datastream. -/
  | signature
  /-- A record start of a datastream, past the signature. -/
  | chunk
  /-- A record start of a filtered stream in DECODE and RECON. -/
  | recon
  /-- A `KIND` entry (FILTER) or `BEST` (ENCODE): the record to produce. -/
  | filter
  /-- A byte position inside an `F.*` record. -/
  | encByte
  /-- A byte position inside an `R.*` record. -/
  | decByte
  /-- The command register. -/
  | command
deriving DecidableEq, Repr

/-- Why the decoder rejects bytes, by name. -/
inductive Reject where
  /-- R91: fewer than 8 bytes, or not the signature. -/
  | badSignature
  /-- R108: fewer than the 8 bytes of a chunk record's head. -/
  | shortHead
  /-- R97: no type byte, kind code or command code to read. -/
  | noByte
  /-- R103: a filter-type byte or kind code in 5..255. -/
  | badFilterType (t : Byte)
  /-- R106: a command code 0 or 7..255. -/
  | reservedCommand (code : Byte)
deriving DecidableEq, Repr

end Sys2Proof
end

