-- ==== Sys2Proof/Machine/Bits.lean ====
section
/-! DEFINITION. Byte, word and slice helpers (R13, R14, R15), the chunk tags as bytes (R93;
log entry 11) and the signature (R91). -/

namespace Sys2Proof.Machine

/-- R13: `mod256(v)`, the low 8 bits of an exact integer, a negative one included. -/
def mod256 (v : Int) : Byte := BitVec.ofInt 8 v

/-- R13: `floor2(n)`. -/
def floor2 (n : Nat) : Nat := n / 2

/-- R13: `s8(v)`, the byte read as a signed 8-bit two's-complement number. -/
def s8 (v : Byte) : Int := if v.toNat < 128 then (v.toNat : Int) else (v.toNat : Int) - 256

/-- R14, R62: `u32be`, most significant byte first.  The products with `2^24`, `2^16` and `2^8` are shifts. -/
def u32be (b0 b1 b2 b3 : Byte) : U32 :=
  BitVec.ofNat 32 (b0.toNat <<< 24 + b1.toNat <<< 16 + b2.toNat <<< 8 + b3.toNat)

/-- R14: `be32(v)`, bits 31..24 first. -/
def be32 (v : U32) : Bytes :=
  [BitVec.ofNat 8 (v.toNat / 2 ^ 24), BitVec.ofNat 8 (v.toNat / 2 ^ 16), BitVec.ofNat 8 (v.toNat / 2 ^ 8),
    BitVec.ofNat 8 v.toNat]

/-- R12: `B[i]`, read only at offsets inside the extent; the callers check the extent first (R61). -/
def byteAt (B : Bytes) (i : Nat) : Byte := B.getD i 0

/-- R12, R15: `MemRead(B, o, n)`, the byte string `B[o:o+n]`. -/
def slice (B : Bytes) (o n : Nat) : Bytes := (B.drop o).take n

/-- R14: `u32be(B, o)`. -/
def u32At (B : Bytes) (o : Nat) : U32 := u32be (byteAt B o) (byteAt B (o + 1)) (byteAt B (o + 2)) (byteAt B (o + 3))

/-- R65: the four tag bytes at offset `o`. -/
def tagAt (B : Bytes) (o : Nat) : Tag := ⟨byteAt B o, byteAt B (o + 1), byteAt B (o + 2), byteAt B (o + 3)⟩

/-- R65: a tag as a byte string in stream order. -/
def tagBytes (t : Tag) : Bytes := [t.b0, t.b1, t.b2, t.b3]

/-- R65: `ERR_TAG` packs a tag as `u32be`. -/
def tagWord (t : Tag) : U32 := u32be t.b0 t.b1 t.b2 t.b3

/-- R93: `IHDR` = 49 48 44 52. -/
def tagIhdr : Tag := ⟨0x49, 0x48, 0x44, 0x52⟩

/-- R93: `IDAT` = 49 44 41 54. -/
def tagIdat : Tag := ⟨0x49, 0x44, 0x41, 0x54⟩

/-- R93: `IEND` = 49 45 4E 44. -/
def tagIend : Tag := ⟨0x49, 0x45, 0x4E, 0x44⟩

/-- R91: the signature, 89 50 4E 47 0D 0A 1A 0A. -/
def signatureBytes : Bytes := [0x89, 0x50, 0x4E, 0x47, 0x0D, 0x0A, 0x1A, 0x0A]

end Sys2Proof.Machine
end

