-- ==== Sys2Proof/WellFormed.lean ====
section
/-! DEFINITION. Which instruction terms stand for an encoded item.  The one check the spec asks for: `C.OTHER` is
the default row, its tag is none of the three named ones (R93, R129). -/

namespace Sys2Proof

/-- R93, R94: the tag is one of the three names. -/
def Tag.named (t : Tag) : Bool := decide (t = Machine.tagIhdr ∨ t = Machine.tagIdat ∨ t = Machine.tagIend)

/-- R129: every term is well formed but a `C.OTHER` that carries a named tag. -/
def Instr.wf : Instr → Bool
  | .sig => true
  | .cIhdr _ => true
  | .cIdat _ => true
  | .cIend _ => true
  | .cOther _ tag => !tag.named
  | .rNone => true
  | .rSub => true
  | .rUp => true
  | .rAvg => true
  | .rPaeth => true
  | .fNone => true
  | .fSub => true
  | .fUp => true
  | .fAvg => true
  | .fPaeth => true
  | .encNone => true
  | .encSub => true
  | .encUp => true
  | .encAvg => true
  | .encPaeth => true
  | .decNone => true
  | .decSub => true
  | .decUp => true
  | .decAvg => true
  | .decPaeth => true
  | .cmdDecode => true
  | .cmdEncode => true
  | .cmdParse => true
  | .cmdRecon => true
  | .cmdFilter => true
  | .cmdSelect => true

end Sys2Proof
end

