-- ==== Sys2Proof/Decode.lean ====
section
/-! DEFINITION. The decoder, total on any bytes and rejecting by name (R102, R108), the encoder written from the
same encodings (R91, R92, R97, R98, R109), and the opcode table's view of a word. -/

namespace Sys2Proof

open Sys2Proof.Machine

/-- R98: the FilterKind code, which is the type byte. -/
def FilterKind.code : FilterKind → Byte
  | .none => 0
  | .sub => 1
  | .up => 2
  | .average => 3
  | .paeth => 4

/-- R97, R98, R103: the kind of a type byte or `KIND` entry; 5..255 name none. -/
def kindOfCode (t : Byte) : Option FilterKind :=
  if t = 0 then some .none
  else if t = 1 then some .sub
  else if t = 2 then some .up
  else if t = 3 then some .average
  else if t = 4 then some .paeth
  else none

/-- R97: the scanline record of a kind in the reconstruct direction. -/
def reconInstr : FilterKind → Instr
  | .none => .rNone
  | .sub => .rSub
  | .up => .rUp
  | .average => .rAvg
  | .paeth => .rPaeth

/-- R97: the scanline record of a kind in the filter direction. -/
def filterInstr : FilterKind → Instr
  | .none => .fNone
  | .sub => .fSub
  | .up => .fUp
  | .average => .fAvg
  | .paeth => .fPaeth

/-- R174 to R178: the byte operation of a kind in the filter direction. -/
def encInstr : FilterKind → Instr
  | .none => .encNone
  | .sub => .encSub
  | .up => .encUp
  | .average => .encAvg
  | .paeth => .encPaeth

/-- R179 to R183: the byte operation of a kind in the reconstruct direction. -/
def decInstr : FilterKind → Instr
  | .none => .decNone
  | .sub => .decSub
  | .up => .decUp
  | .average => .decAvg
  | .paeth => .decPaeth

/-- R29, R109: the command a code names; 0 and 7..255 are reserved (R106). -/
def commandOfCode (code : Byte) : Option Instr :=
  if code = 1 then some .cmdDecode
  else if code = 2 then some .cmdEncode
  else if code = 3 then some .cmdParse
  else if code = 4 then some .cmdRecon
  else if code = 5 then some .cmdFilter
  else if code = 6 then some .cmdSelect
  else none

/-- R92, R93, R94: the chunk record a head names: all four tag bytes compared, anything else is `C.OTHER`. -/
def chunkOfHead (len : U32) (tag : Tag) : Instr :=
  if tag = tagIhdr then .cIhdr len
  else if tag = tagIdat then .cIdat len
  else if tag = tagIend then .cIend len
  else .cOther len tag

/-- A byte that selects one of a format's instructions, and the bytes after it. -/
def decodeByte (select : Byte → Option Instr) (reject : Byte → Reject) : Bytes → Except Reject (Instr × Bytes)
  | [] => .error .noByte
  | b :: rest =>
    match select b with
    | some i => .ok (i, rest)
    | none => .error (reject b)

/-- R102, R108: the instruction at the head of `bs` fetched from `ctx`, and the bytes after it. -/
def decode (ctx : Context) (bs : Bytes) : Except Reject (Instr × Bytes) :=
  match ctx with
  | .signature => if bs.take 8 = signatureBytes then .ok (.sig, bs.drop 8) else .error .badSignature
  | .chunk => if bs.length < 8 then .error .shortHead else .ok (chunkOfHead (u32At bs 0) (tagAt bs 4), bs.drop 8)
  | .recon => decodeByte (fun t => (kindOfCode t).map reconInstr) .badFilterType bs
  | .filter => decodeByte (fun t => (kindOfCode t).map filterInstr) .badFilterType bs
  | .encByte => decodeByte (fun t => (kindOfCode t).map encInstr) .badFilterType bs
  | .decByte => decodeByte (fun t => (kindOfCode t).map decInstr) .badFilterType bs
  | .command => decodeByte commandOfCode .reservedCommand bs

/-- R102: the place an instruction is fetched from. -/
def contextOf : Instr → Context
  | .sig => .signature
  | .cIhdr _ => .chunk
  | .cIdat _ => .chunk
  | .cIend _ => .chunk
  | .cOther _ _ => .chunk
  | .rNone => .recon
  | .rSub => .recon
  | .rUp => .recon
  | .rAvg => .recon
  | .rPaeth => .recon
  | .fNone => .filter
  | .fSub => .filter
  | .fUp => .filter
  | .fAvg => .filter
  | .fPaeth => .filter
  | .encNone => .encByte
  | .encSub => .encByte
  | .encUp => .encByte
  | .encAvg => .encByte
  | .encPaeth => .encByte
  | .decNone => .decByte
  | .decSub => .decByte
  | .decUp => .decByte
  | .decAvg => .decByte
  | .decPaeth => .decByte
  | .cmdDecode => .command
  | .cmdEncode => .command
  | .cmdParse => .command
  | .cmdRecon => .command
  | .cmdFilter => .command
  | .cmdSelect => .command

/-- R91, R92, R97, R98, R109: the bytes of an instruction: the signature; a chunk record's head; a type byte, kind
code or command code. -/
def encode : Instr → Bytes
  | .sig => [0x89, 0x50, 0x4E, 0x47, 0x0D, 0x0A, 0x1A, 0x0A]
  | .cIhdr len => be32 len ++ [0x49, 0x48, 0x44, 0x52]
  | .cIdat len => be32 len ++ [0x49, 0x44, 0x41, 0x54]
  | .cIend len => be32 len ++ [0x49, 0x45, 0x4E, 0x44]
  | .cOther len tag => be32 len ++ tagBytes tag
  | .rNone => [0x00]
  | .rSub => [0x01]
  | .rUp => [0x02]
  | .rAvg => [0x03]
  | .rPaeth => [0x04]
  | .fNone => [0x00]
  | .fSub => [0x01]
  | .fUp => [0x02]
  | .fAvg => [0x03]
  | .fPaeth => [0x04]
  | .encNone => [0x00]
  | .encSub => [0x01]
  | .encUp => [0x02]
  | .encAvg => [0x03]
  | .encPaeth => [0x04]
  | .decNone => [0x00]
  | .decSub => [0x01]
  | .decUp => [0x02]
  | .decAvg => [0x03]
  | .decPaeth => [0x04]
  | .cmdDecode => [0x01]
  | .cmdEncode => [0x02]
  | .cmdParse => [0x03]
  | .cmdRecon => [0x04]
  | .cmdFilter => [0x05]
  | .cmdSelect => [0x06]

/-- The eight bytes of a 64-bit table word: the table reads them "big-endian", first byte in bits 63..56 (log
entry 19). -/
def tableBytes (w : Nat) : Bytes := be32 (BitVec.ofNat 32 (w / 2 ^ 32)) ++ be32 (BitVec.ofNat 32 w)

/-- The instruction the decoder reads from a word of the opcode table.  A 64-bit word is the head of a datastream
item: the signature where it is the signature, a chunk record's head otherwise.  An 8-bit word names five
instructions, one for each 8-bit format: it is read at the command register, the one place that is open after reset,
and a code reserved there at a scanline record start (DESIGN CHOICE, log entry 2). -/
def decodeTableWord (nbits w : Nat) : Option Instr :=
  if nbits = 64 then
    match decode (if tableBytes w = signatureBytes then .signature else .chunk) (tableBytes w) with
    | .ok (i, _) => some i
    | .error _ => none
  else if nbits = 8 then
    match decode .command [BitVec.ofNat 8 w] with
    | .ok (i, _) => some i
    | .error _ =>
      match decode .recon [BitVec.ofNat 8 w] with
      | .ok (i, _) => some i
      | .error _ => none
  else none

end Sys2Proof
end

