-- ==== Sys2Proof/Config.lean ====
section
/-! DEFINITION. What an engine is configured with (R11): the constants the source fixes (R9), the two collaborator
functions (R262, R263), the buffer capacities (R40, U18) and `REG_MAP`. -/

namespace Sys2Proof.Config

/-- R3, R9: bytes per pixel, a constant. -/
def bpp : Nat := 4

/-- R9: the length of the signature. -/
def signatureLength : Nat := 8

/-- R9: the length of the IHDR payload. -/
def ihdrLength : Nat := 13

/-- R9: a chunk record's bytes beside its payload: length, tag, crc. -/
def chunkOverhead : Nat := 12

/-- R44: what the engine finds at an offset of `IN` that nothing has written (no body: a free value for each power-up,
the first argument, and each offset, the second; log entry 6). -/
opaque unwrittenByte : Nat → Nat → Byte

/-- R262: the external `inflate`, of which nothing is known (no body: a free function, log entry 3). -/
opaque inflateExternal : Bytes → Option Bytes

/-- R263: the external `deflate`, of which nothing is known (no body: a free function, log entry 3). -/
opaque deflateExternal : Bytes → Bytes

/-- R262 to R264, R323: the collaborator bound to the engine, as plain data. -/
inductive Collaborator where
  /-- The external compression primitives. -/
  | external
  /-- R264: `inflate(b) = Some b`, `deflate(b) = b`. -/
  | identity
  /-- Known answers for the listed arguments, the external primitives for every other. -/
  | listed (inflates : List (Bytes × Option Bytes)) (deflates : List (Bytes × Bytes))
deriving DecidableEq, Repr

/-- R40, R11: the buffer capacities; `none` is unbounded, as U18 allows. -/
structure Capacities where
  capIn : Option Nat
  capOut : Option Nat
  capKind : Option Nat
  capChunks : Option Nat
deriving DecidableEq, Repr

/-- R28, R40, R60: what a bus address can name: a register by its index, a byte of `IN` or `OUT` by its offset, or an
entry of `KIND` or `CHUNKS` by its index. -/
inductive Space where
  | regs
  | inBytes
  | outBytes
  | kindEntries
  | chunkEntries
deriving DecidableEq, Repr

/-- R70: a run of bus addresses, from `base`, that names the places of one space from `first`. -/
structure BusRegion where
  base : Nat
  size : Nat
  space : Space
  first : Nat
deriving DecidableEq, Repr

/-- R70: where the spaces of R60 lie in storage: the cell of each one's offset 0, later offsets in the cells after it,
or none for a space with storage of its own.  Two spaces share the storage of the cells that both lie in. -/
structure Storage where
  inCell : Option Nat
  outCell : Option Nat
  kindCell : Option Nat
  chunkCell : Option Nat
  zCell : Option Nat
  fCell : Option Nat
deriving DecidableEq, Repr

/-- Every space has storage of its own. -/
def Storage.own : Storage := ⟨none, none, none, none, none, none⟩

/-- R11, R28, R70, D1, U18: `REG_MAP`, which the spec leaves open: where the registers and buffers lie on a bus, any
list of regions, and which spaces share storage (its form: DESIGN CHOICE, log entry 24). -/
structure RegMap where
  regions : List BusRegion
  storage : Storage
deriving DecidableEq, Repr

end Sys2Proof.Config
end

