-- ==== Sys2Proof/Machine/State.lean ====
section
/-! DEFINITION. The state of the engine (spec/10_state.md), the reasons a step stops, and the state after reset (R44). -/

namespace Sys2Proof.Machine

/-- A byte buffer of R40 (or the entries of `KIND`): offset and value pairs, offsets strictly rising.  An offset not
listed holds no value (R35, R44; log entry 6).  An entry of `KIND` is held as a byte (DEDUCED, log entry 12). -/
abbrev Memory := List Host.Cell

/-- R30: the register `STATE`. -/
inductive Status where
  | idle
  | busy
  | done
  | error
deriving DecidableEq, Repr

/-- R29: the six commands. -/
inductive Command where
  | decode
  | encode
  | parse
  | recon
  | filter
  | select
deriving DecidableEq, Repr

/-- R31, R32: the error registers `ERR_CLASS`, `ERR_SUB`, `ERR_FIELD`, `ERR_TAG`, `ERR_LEN`, `ERR_EXPECTED`,
`ERR_ACTUAL`, `ERR_POS` (registers 2 to 9 of R28). -/
structure ErrRegs where
  cls : BitVec 2
  sub : BitVec 4
  field : BitVec 3
  tag : U32
  len : U32
  expected : U32
  actual : U32
  pos : Nat
deriving DecidableEq, Repr

/-- R280 to R292: what a `raise` names, with what it carries.  `stored` and `computed` are D7's unambiguous names. -/
inductive Err where
  | badSignature
  | truncated (pos : Nat)
  | missingIend (pos : Nat)
  | badFilterType (row : Nat) (t : Byte)
  | chunkOrder
  | badIhdrLength
  | inflateFailed
  | filteredStreamShort (row : Nat)
  | checksum (tag : Tag) (len : U32) (stored computed : U32)
  | unsupportedHeader (field : BitVec 3) (expected actual : U32)
deriving DecidableEq, Repr

/-- R150: a Header. -/
structure Header where
  width : U32
  height : U32
  bitDepth : Byte
  colorType : Byte
  compression : Byte
  filter : Byte
  interlace : Byte
deriving DecidableEq, Repr

/-- R120: a Chunk.  `length` is a natural number: a merged chunk can exceed 32 bits. -/
structure Chunk where
  length : Nat
  tag : Tag
  payload : Bytes
  crc : U32
deriving DecidableEq, Repr

/-- R21, R170: the NeighborWindow registers `W.x`, `W.a`, `W.b`, `W.c`. -/
structure Window where
  x : Byte
  a : Byte
  b : Byte
  c : Byte
deriving DecidableEq, Repr

/-- R37: the score accumulators `S[0]` to `S[4]`, in the fixed order of the kinds. -/
structure Scores where
  none : Nat
  sub : Nat
  up : Nat
  average : Nat
  paeth : Nat
deriving DecidableEq, Repr

/-- R42: the five candidate rows of the selector. -/
structure Candidates where
  none : Bytes
  sub : Bytes
  up : Bytes
  average : Bytes
  paeth : Bytes
deriving DecidableEq, Repr

/-- Where the sequencer stands in the command it runs (R20, R102, R266): which kind of item is due next. -/
inductive Phase where
  /-- No command is running. -/
  | rest
  /-- A datastream item is due at `pos`: SIG at offset 0, a chunk record after it. -/
  | chunks
  /-- The record loop has ended: the IDAT merge and, in DECODE, the checks of R295 steps 3 to 6 are due. -/
  | merge
  /-- The call of `inflate` is due. -/
  | inflate
  /-- A scanline record is due at `row`, reconstruct direction. -/
  | recon
  /-- The selection for row `row` is due. -/
  | choose
  /-- A scanline record is due at `row`, filter direction. -/
  | filt
  /-- The call of `deflate` is due. -/
  | deflate
  /-- Splitting and packaging are due. -/
  | pack
deriving DecidableEq, Repr

/-- The engine's internal items, not host-visible (R21, R24, R25, R37, R41, R42), with the sequencer's place (`cmd`,
`phase`, `op` and `rowBuf` are the model's own; DESIGN CHOICE, log entry 1). -/
structure Engine where
  /-- The command that runs. -/
  cmd : Option Command
  phase : Phase
  /-- R187: inside a scanline record taken byte by byte, the operation its type byte resolved to. -/
  op : Option FilterKind
  /-- R21: the neighbour window. -/
  w : Window
  /-- R24: the chunk framer's cursor. -/
  pos : Nat
  /-- R25: the scanline engine's cursor. -/
  row : Nat
  col : Nat
  /-- R33, R251: the dimensions the command runs with. -/
  width : U32
  height : U32
  /-- R37: the score accumulators and `BEST`. -/
  scores : Scores
  best : FilterKind
  /-- R41: the CRC accumulator; it exists while one chunk is checked, which is inside one step, so between steps it
  holds no value (log entries 5 and 16). -/
  crcAcc : U32
  /-- R42: `Z`, the compressed payload. -/
  z : Bytes
  /-- R42: `F`, the filtered stream. -/
  f : Bytes
  /-- R42: the candidate rows. -/
  cand : Candidates
  /-- R42: the chunk list under construction. -/
  list : List Chunk
  /-- R200: `out`, the reconstructed bytes. -/
  out : Bytes
  /-- R200, R227, R230: `kinds`, the row kinds read, given or chosen. -/
  kinds : List FilterKind
  /-- R221: `row_f`, the filtered bytes of a row taken byte by byte. -/
  rowBuf : Bytes
deriving DecidableEq, Repr

/-- The state: the registers of R28, the buffers of R40, the engine's internal items, and the parameters of R11 the
engine is configured with, which no step writes (log entry 4). -/
structure State where
  /-- R29: a command code written to `CMD` and not yet started; `CMD` is write-only and holds nothing otherwise
  (log entry 8). -/
  cmd : Option Byte
  /-- R30: `STATE`. -/
  status : Status
  /-- R31, R32: `ERR_*`. -/
  err : ErrRegs
  /-- R33: `ARG_WIDTH`. -/
  argWidth : U32
  /-- R33: `ARG_HEIGHT`. -/
  argHeight : U32
  /-- R33: `ARG_MAX_IDAT`. -/
  argMaxIdat : U32
  /-- R35: `IN_LEN`. -/
  inLen : Nat
  /-- R35: `KIND_LEN`. -/
  kindLen : Nat
  /-- R35: `OUT_LEN`. -/
  outLen : Nat
  /-- R35: `NCHUNKS`. -/
  nChunks : Nat
  /-- R34: `RES_WIDTH` to `RES_INTERLACE`. -/
  res : Header
  /-- R34, R36: the `RES_*` registers hold a result; otherwise a model treats them as absent (R44; log
  entry 7). -/
  resValid : Bool
  /-- R40: `IN`. -/
  inp : Memory
  /-- R40: `OUT`. -/
  out : Memory
  /-- R38, R40: `KIND`, one code for each entry index. -/
  kind : Memory
  /-- R60, R324: the last command produced the entries of `KIND`: DECODE, ENCODE, RECON or SELECT (the model's own
  bit, log entry 9). -/
  kindValid : Bool
  /-- R305, C8: the entries of `KIND` that are the type sequence of the last DECODE or RECON, for diagnostics only, and
  that the host has not rewritten since; offsets strictly rising.  No later command reads them (log entry 23). -/
  kindDiag : List Nat
  /-- R39, R40: `CHUNKS`. -/
  chunks : List Chunk
  /-- R70: the entries of `CHUNKS` whose storage the host has since written through another space; they hold no value
  any more; indices strictly rising (log entry 25). -/
  chunksLost : List Nat
  /-- The internal items. -/
  eng : Engine
  /-- R11, R40: `CAP_IN`, `CAP_OUT`, `CAP_KIND`, `CAP_CHUNKS`. -/
  caps : Config.Capacities
  /-- R11, R262, R263: the bound collaborator. -/
  collab : Config.Collaborator
  /-- R11, R70: `REG_MAP`. -/
  regMap : Config.RegMap
  /-- R44: which unspecified contents `IN` came up with (the model's own item; it changes where a command
  writes storage that `IN` shares: log entries 6 and 25). -/
  powerUp : Nat
deriving DecidableEq, Repr

/-- Why the machine stops with a fault: each a read or write the spec says is not defined, so the hardware may go on
where the model stops (safe). -/
inductive Fault where
  /-- An entry of `KIND[0:KIND_LEN]` that the host never wrote: it holds no value (R44, U7); or one that is still the
  diagnostic of an earlier DECODE or RECON, which no command reads (R305). Raised by FILTER. Safe (log entries 6 and
  23). -/
  | unwritten
  /-- A record or byte operation run where its operands lie outside a buffer's extent, which no command does (R61).
  Raised by `R.*`, `F.*`, and a step inside a record. Safe (log entry 14). -/
  | outsideExtent
  /-- The host reads a register, byte or entry that holds no value (R36). Raised by the host's reads. Safe (log
  entry 10). -/
  | noValue
  /-- The host addresses a buffer beyond its capacity (R40). Raised by the host's writes. Safe. -/
  | noSuchOffset
deriving DecidableEq, Repr

/-- Why a step or a host access has no meaning. All are safe: the model says nothing where the spec says nothing. -/
inductive Refusal where
  /-- An instruction that has no meaning yet. Raised by `exec` only. Safe. -/
  | notModelled (mnemonic : String)
  /-- R29, R36, R68: a command, or a host access other than a read of `STATE`, while a command runs. Safe. -/
  | busy
  /-- R106, R259: a reserved command code. Raised by `step` and by the host's write of `CMD`. Safe. -/
  | reservedCommand (code : Byte)
  /-- R257: a command started with a precondition violated. Raised by the six commands. Safe. -/
  | precondition
  /-- R257: a result that does not fit its buffer's capacity. Raised by the six commands. Safe (log entry 13). -/
  | capacity
  /-- R70, R329: what a command writes lies in storage that it also reads, or writes as another of its results; the
  spec says it must not. Raised by the six commands. Safe (log entry 25). -/
  | aliased
  /-- The sequencer is asked to go on where no command runs: a state no command leads to. Raised by `step`. Safe. -/
  | noCommandRunning
  /-- R28, R40: a host write of a read-only register or buffer. Safe. -/
  | readOnly
  /-- R28: a host read of `CMD`. Safe. -/
  | writeOnly
  /-- R28: a host write of a value wider than the register. Safe (log entry 15). -/
  | tooWide
  /-- R324: a host read, in ERROR, of an argument or input that only a state other than ERROR lets it read. Raised by
  the host's reads. Safe (log entry 9). -/
  | inError
  /-- R11: a bus address that `REG_MAP` maps to no place of the block. Raised by the host's bus accesses. Safe (log
  entry 24). -/
  | unmapped
deriving DecidableEq, Repr

/-- R44: `ERR_*` = 0. -/
def ErrRegs.zero : ErrRegs := ⟨0, 0, 0, 0, 0, 0, 0, 0⟩

/-- R44: `RES_*` = 0. -/
def Header.zero : Header := ⟨0, 0, 0, 0, 0, 0, 0⟩

/-- The window where it holds no value (DESIGN CHOICE, log entry 5: zero). -/
def Window.zero : Window := ⟨0, 0, 0, 0⟩

/-- The internal items where no command runs. The spec says they hold no value then (R44) and are written before they
are read (R322); the values here are the model's (DESIGN CHOICE, log entry 5). -/
def Engine.rest : Engine where
  cmd := none
  phase := .rest
  op := none
  w := Window.zero
  pos := 0
  row := 0
  col := 0
  width := 0
  height := 0
  scores := ⟨0, 0, 0, 0, 0⟩
  best := .none
  crcAcc := 0
  z := []
  f := []
  cand := ⟨[], [], [], [], []⟩
  list := []
  out := []
  kinds := []
  rowBuf := []

/-- R44, R320: the state after reset. -/
def State.reset : State where
  cmd := none
  status := .idle
  err := ErrRegs.zero
  argWidth := 0
  argHeight := 0
  argMaxIdat := 0
  inLen := 0
  kindLen := 0
  outLen := 0
  nChunks := 0
  res := Header.zero
  resValid := false
  inp := []
  out := []
  kind := []
  kindValid := false
  kindDiag := []
  chunks := []
  chunksLost := []
  eng := Engine.rest
  caps := ⟨none, none, none, none⟩
  collab := .external
  regMap := ⟨[], .own⟩
  powerUp := 0

end Sys2Proof.Machine
end

