-- ==== Sys2Proof/Machine/Flags.lean ====
section
/-! DEFINITION. The block has no condition codes (R27): its only status is `STATE` and the error record, whose codes
stand here (R30, R31, R32, R280 to R292). -/

namespace Sys2Proof.Machine

/-- R28, D3: the codes of `STATE`. -/
def statusCode : Status → BitVec 2
  | .idle => 0
  | .busy => 1
  | .done => 2
  | .error => 3

/-- R280, D4: the codes of `ERR_CLASS`. -/
def classFormat : BitVec 2 := 1
def classChecksum : BitVec 2 := 2
def classHeader : BitVec 2 := 3

/-- R153, D6: the codes of `ERR_FIELD`. -/
def fieldCompression : BitVec 3 := 1
def fieldFilter : BitVec 3 := 2
def fieldColorType : BitVec 3 := 3
def fieldBitDepth : BitVec 3 := 4
def fieldInterlace : BitVec 3 := 5
def fieldWidth : BitVec 3 := 6
def fieldHeight : BitVec 3 := 7

/-- R281, R296: the registers of a FormatError: class, sub-kind, diagnostic position and value, every other 0. -/
def formatRegs (sub : BitVec 4) (pos : Nat) (actual : U32) : ErrRegs :=
  { ErrRegs.zero with cls := classFormat, sub := sub, pos := pos, actual := actual }

/-- R281 to R292, R296: what the `ERR_*` registers hold after a `raise`. -/
def errRegs : Err → ErrRegs
  | .badSignature => formatRegs 1 0 0
  | .truncated pos => formatRegs 2 pos 0
  | .missingIend pos => formatRegs 3 pos 0
  | .badFilterType row t => formatRegs 4 row (t.setWidth 32)
  | .chunkOrder => formatRegs 5 0 0
  | .badIhdrLength => formatRegs 6 0 0
  | .inflateFailed => formatRegs 7 0 0
  | .filteredStreamShort row => formatRegs 8 row 0
  | .checksum tag len stored computed =>
    { ErrRegs.zero with cls := classChecksum, tag := tagWord tag, len := len, expected := stored, actual := computed }
  | .unsupportedHeader field expected actual =>
    { ErrRegs.zero with cls := classHeader, field := field, expected := expected, actual := actual }

end Sys2Proof.Machine
end

