-- ==== Sys2Proof/Machine/Ops.lean ====
section
/-! DEFINITION. The named operations over the buffers and registers: reading and writing a buffer (R61, R67),
starting a command (R250), taking an error (R296) and committing a result (R250 phase 4), and the collaborator calls
(R262, R263). -/

namespace Sys2Proof.Machine

/-- What a step answers. -/
abbrev Outcome := Host.Outcome State Fault Refusal

/-- The value at an offset; an offset that is not listed holds none (R35, R44). -/
def Memory.read : Memory → Nat → Option Byte
  | [], _ => none
  | (a, b) :: m, o => if a = o then some b else Memory.read m o

/-- One byte stored at an offset (R67, R69), the offsets kept strictly rising. -/
def Memory.write : Memory → Nat → Byte → Memory
  | [], o, v => [(o, v)]
  | (a, b) :: m, o, v =>
    if o < a then (o, v) :: (a, b) :: m
    else if o = a then (o, v) :: m
    else (a, b) :: Memory.write m o v

/-- Every listed offset is above `lo`, and they rise strictly. -/
def Memory.above : Nat → Memory → Bool
  | _, [] => true
  | lo, (a, _) :: m => decide (lo ≤ a) && Memory.above (a + 1) m

/-- The canonical form: offsets strictly rising. -/
def Memory.wf (m : Memory) : Bool := Memory.above 0 m

/-- A byte string laid out from offset `o`. -/
def Memory.ofBytes : Nat → Bytes → Memory
  | _, [] => []
  | o, b :: bs => (o, b) :: Memory.ofBytes (o + 1) bs

/-- R15: `MemRead(m, o, n)`; none where one of the bytes holds no value. -/
def Memory.bytes (m : Memory) : Nat → Nat → Option Bytes
  | _, 0 => some []
  | o, n + 1 =>
    match m.read o with
    | none => none
    | some b =>
      match Memory.bytes m (o + 1) n with
      | none => none
      | some bs => some (b :: bs)

/-- The byte of `IN` at an offset, as the engine reads it: what was written there, else the free value of the offset
(R44; log entry 6). -/
def State.inByte (s : State) (o : Nat) : Byte := (s.inp.read o).getD (Config.unwrittenByte s.powerUp o)

/-- R33, R35: `IN[0:IN_LEN]`, the operand of every command.  It has a byte at every offset, so a byte that a command
never reads (R128, R209) stops none, whether it was written or not. -/
def State.input (s : State) : Bytes := (List.range s.inLen).map s.inByte

/-- R305, C8: an entry of `KIND[0:KIND_LEN]` is the diagnostic of an earlier DECODE or RECON. -/
def State.kindStale (s : State) : Bool := s.kindDiag.any (fun i => decide (i < s.kindLen))

/-- R33, R38, R305: `KIND[0:KIND_LEN]`, the operand of FILTER; none where an entry holds no value or is a diagnostic. -/
def State.kindInput (s : State) : Option Bytes := if s.kindStale then none else s.kind.bytes 0 s.kindLen

/-- The state with other internal items. -/
def State.withEng (s : State) (e : Engine) : State := { s with eng := e }

/-- R34: the header DECODE has validated or ENCODE synthesised: the dimensions, and 8, 6, 0, 0, 0. -/
def acceptedHeader (width height : U32) : Header := ⟨width, height, 8, 6, 0, 0, 0⟩

/-- R250 phase 2: `ERR_*`, `RES_*`, `OUT_LEN`, `NCHUNKS` and, except for FILTER, `KIND_LEN` are invalidated.  For FILTER
`KIND` stays as it is: what its operand may be of it, `State.kindInput` says (R305). -/
def invalidate (c : Command) (s : State) : State :=
  { s with
    err := ErrRegs.zero
    res := Header.zero
    resValid := false
    out := []
    outLen := 0
    chunks := []
    chunksLost := []
    nChunks := 0
    kind := if c = .filter then s.kind else []
    kindLen := if c = .filter then s.kindLen else 0
    kindValid := false
    kindDiag := if c = .filter then s.kindDiag else [] }

/-- TAKING AN ERROR, R296: the error record is written, every other `ERR_*` is 0, the lengths are 0, `OUT`, `KIND`,
`CHUNKS` and `RES_*` hold no value, `IN`, `IN_LEN` and `ARG_*` stay, the internal items are dropped (R42) and `STATE`
is ERROR.  Control goes nowhere: no handler, no saved cursor, and no return (R298): the next command starts from here. -/
def raise (e : Err) (s : State) : State :=
  { s with
    status := .error
    err := errRegs e
    res := Header.zero
    resValid := false
    out := []
    outLen := 0
    kind := []
    kindLen := 0
    kindValid := false
    kindDiag := []
    chunks := []
    chunksLost := []
    nChunks := 0
    eng := Engine.rest }

/-- What a command that ends without error produces.  `kinds` is none where it leaves `KIND` as the host wrote it
(FILTER), `dims` is none where it produces no header, `diagnostic` says that the kinds are the type sequence of the rows
read, kept for diagnostics only (R305). -/
structure Result where
  out : Bytes
  kinds : Option (List FilterKind)
  chunks : List Chunk
  dims : Option (U32 × U32)
  diagnostic : Bool
  /-- R42, R60: the sizes of the internal `Z` and `F` of the command. -/
  zLen : Nat
  fLen : Nat
deriving DecidableEq, Repr

/-- The `KIND` entries of a list of kinds (R38, R98). -/
def kindCodes (ks : List FilterKind) : Bytes := ks.map FilterKind.code

/-- R60: the command produced entries of `KIND` (PARSE produces none, FILTER only reads it). -/
def Result.writesKinds (r : Result) : Bool :=
  match r.kinds with
  | none => false
  | some ks => !ks.isEmpty

/-- R40: a count fits a capacity (log entry 13). -/
def fitsCap (cap : Option Nat) (n : Nat) : Bool :=
  match cap with
  | none => true
  | some c => decide (n ≤ c)

/-- R40: an offset or entry index below the capacity. -/
def insideCap (cap : Option Nat) (o : Nat) : Bool :=
  match cap with
  | none => true
  | some c => decide (o < c)

/-- R257: every result fits its capacity. -/
def fits (caps : Config.Capacities) (r : Result) : Bool :=
  fitsCap caps.capOut r.out.length && fitsCap caps.capChunks r.chunks.length &&
    match r.kinds with
    | none => true
    | some ks => fitsCap caps.capKind ks.length

/-- R250 phase 4: the results are written, `ERR_*` are 0, the internal items are dropped and `STATE` is DONE. -/
def commit (r : Result) (s : State) : State :=
  { s with
    status := .done
    err := ErrRegs.zero
    out := Memory.ofBytes 0 r.out
    outLen := r.out.length
    kind :=
      match r.kinds with
      | none => s.kind
      | some ks => Memory.ofBytes 0 (kindCodes ks)
    kindLen :=
      match r.kinds with
      | none => s.kindLen
      | some ks => ks.length
    kindValid := r.writesKinds
    kindDiag :=
      match r.kinds with
      | none => s.kindDiag
      | some ks => if r.diagnostic then List.range ks.length else []
    chunks := r.chunks
    chunksLost := []
    nChunks := r.chunks.length
    res :=
      match r.dims with
      | none => Header.zero
      | some d => acceptedHeader d.1 d.2
    resValid := r.dims.isSome
    eng := Engine.rest }

/-- R70: the offset, in the space that lies at cell `b`, whose storage is that of offset `o` of the space at cell `a`. -/
def sharedOffset (a b : Option Nat) (o : Nat) : Option Nat :=
  match a, b with
  | some x, some y => if y ≤ x + o then some (x + o - y) else none
  | some _, none => none
  | none, _ => none

/-- What a command writes, space by space (R60): the bytes of `OUT`, the codes of `KIND`, and how many entries of
`CHUNKS` and bytes of the internal `Z` and `F`. -/
structure Writes where
  out : Bytes
  kinds : Bytes
  chunks : Nat
  z : Nat
  f : Nat
deriving DecidableEq, Repr

/-- R60: what a result writes. -/
def Result.writes (r : Result) : Writes where
  out := r.out
  kinds :=
    match r.kinds with
    | none => []
    | some ks => kindCodes ks
  chunks := r.chunks.length
  z := r.zLen
  f := r.fLen

/-- R70: two runs of places, each from offset 0 of a space, have a cell in common. -/
def overlap (p q : Option Nat × Nat) : Bool :=
  match p.1, q.1 with
  | some x, some y => decide (max x y < min (x + p.2) (y + q.2))
  | some _, none => false
  | none, _ => false

/-- The runs of places a command writes. -/
def Writes.runs (w : Writes) (g : Config.Storage) : List (Option Nat × Nat) :=
  [(g.outCell, w.out.length), (g.kindCell, w.kinds.length), (g.chunkCell, w.chunks), (g.zCell, w.z), (g.fCell, w.f)]

/-- No two runs of a list have a cell in common. -/
def disjoint : List (Option Nat × Nat) → Bool
  | [] => true
  | p :: ps => ps.all (fun q => !overlap p q) && disjoint ps

/-- R70, R329: no aliasing in one command: what it writes lies apart, and apart from the `inLen` bytes of `IN` and the
`kindLen` entries of `KIND` that it reads. -/
def apart (g : Config.Storage) (w : Writes) (inLen kindLen : Nat) : Bool :=
  disjoint (w.runs g) && (w.runs g).all (fun p => !overlap p (g.inCell, inLen) && !overlap p (g.kindCell, kindLen))

/-- R38: how many entries of `KIND` a command reads: FILTER all of them, every other none. -/
def Result.kindRead (r : Result) (s : State) : Nat :=
  match r.kinds with
  | none => s.kindLen
  | some _ => 0

/-- A value put at an offset of a buffer, or the value there lost. -/
def Memory.put (m : Memory) (o : Nat) (v : Option Byte) : Memory :=
  match v with
  | some b => m.write o b
  | none => m.filter (fun c => decide (c.1 ≠ o))

/-- R70: a value written at offset `k` of the space at cell `a`, or lost there, as the buffer at cell `b` sees it where
it `takes` the place. -/
def seenAt (a b : Option Nat) (takes : Nat → Bool) (k : Nat) (v : Option Byte) (m : Memory) : Memory :=
  match sharedOffset a b k with
  | none => m
  | some o => if takes o then m.put o v else m

/-- R70: what the writing of a run of places, from offset `k` of the space at cell `a`, leaves in the buffer at cell
`b`: each place that shares storage with one written and that `takes` it holds the byte written, or none where what
was written is no byte. -/
def spread (a b : Option Nat) (takes : Nat → Bool) : Nat → List (Option Byte) → Memory → Memory
  | _, [], m => m
  | k, v :: vs, m => spread a b takes (k + 1) vs (seenAt a b takes k v m)

/-- R70: what a command's writes leave in `IN`. -/
def spreadIn (g : Config.Storage) (cap : Option Nat) (w : Writes) (m : Memory) : Memory :=
  spread g.outCell g.inCell (insideCap cap) 0 (w.out.map some)
    (spread g.kindCell g.inCell (insideCap cap) 0 (w.kinds.map some)
      (spread g.chunkCell g.inCell (insideCap cap) 0 (List.replicate w.chunks none)
        (spread g.zCell g.inCell (insideCap cap) 0 (List.replicate w.z none)
          (spread g.fCell g.inCell (insideCap cap) 0 (List.replicate w.f none) m))))

/-- R70: an offset of the space at cell `b` shares its storage with one of the first `n` places of the space at `a`. -/
def covered (a b : Option Nat) (n o : Nat) : Bool :=
  match sharedOffset b a o with
  | none => false
  | some k => decide (k < n)

/-- R70: after a command, the spaces that share storage with what it wrote: the bytes of `IN` behind its operand, and
after FILTER the entries of `KIND` behind its, which are then no diagnostics (log entry 25). -/
def spill (w : Writes) (s : State) : State :=
  { s with
    inp := spreadIn s.regMap.storage s.caps.capIn w s.inp
    kind := spread s.regMap.storage.outCell s.regMap.storage.kindCell (fun i => (s.kind.read i).isSome) 0
      (w.out.map some) s.kind
    kindDiag := s.kindDiag.filter
      (fun i => !covered s.regMap.storage.outCell s.regMap.storage.kindCell w.out.length i)
    powerUp := if spreadIn s.regMap.storage s.caps.capIn w s.inp = s.inp then s.powerUp else s.powerUp + 1 }

/-- The end of a command that raised nothing: the results fit (R257), lie apart (R329), and are written. -/
def finish (r : Result) (s : State) : Outcome :=
  if fits s.caps r then
    if apart s.regMap.storage r.writes s.inLen (r.kindRead s) then .next (spill r.writes (commit r s))
    else .refused .aliased
  else .refused .capacity

/-- R262: the call of `inflate`; none is its failure. -/
def inflate (c : Config.Collaborator) (z : Bytes) : Option Bytes :=
  match c with
  | .external => Config.inflateExternal z
  | .identity => some z
  | .listed inflates _ =>
    match inflates.lookup z with
    | some r => r
    | none => Config.inflateExternal z

/-- R263: the call of `deflate`, total. -/
def deflate (c : Config.Collaborator) (f : Bytes) : Bytes :=
  match c with
  | .external => Config.deflateExternal f
  | .identity => f
  | .listed _ deflates =>
    match deflates.lookup f with
    | some z => z
    | none => Config.deflateExternal f

end Sys2Proof.Machine
end

