-- ==== Sys2Proof/Machine/Operands.lean ====
section
/-! DEFINITION. Every effective address and window load of the block (R63, R64, R171, R186, R188). -/

namespace Sys2Proof.Machine

/-- R9, R100: `stride = 4 * width`, a natural number. -/
def strideOf (width : U32) : Nat := Config.bpp * width.toNat

/-- R63: the offset of byte `i` of row `r` in a raw pixel buffer. -/
def rawOffset (stride r i : Nat) : Nat := r * stride + i

/-- R25, R64: the offset of scanline record `r` in a filtered stream, its type byte. -/
def recordOffset (stride r : Nat) : Nat := r * (1 + stride)

/-- R64: the offset of filtered byte `i` of record `r`. -/
def filteredOffset (stride r i : Nat) : Nat := recordOffset stride r + 1 + i

/-- R171: the neighbour `a`, the same row 4 positions left, 0 where there is none. -/
def sampleA (B : Bytes) (stride r i : Nat) : Byte :=
  if Config.bpp ≤ i then byteAt B (rawOffset stride r i - Config.bpp) else 0

/-- R171: the neighbour `b`, directly above, 0 where there is none. -/
def sampleB (B : Bytes) (stride r i : Nat) : Byte :=
  if 1 ≤ r then byteAt B (rawOffset stride (r - 1) i) else 0

/-- R171: the neighbour `c`, above and 4 positions left, 0 where there is none. -/
def sampleC (B : Bytes) (stride r i : Nat) : Byte :=
  if 1 ≤ r ∧ Config.bpp ≤ i then byteAt B (rawOffset stride (r - 1) i - Config.bpp) else 0

/-- R170, R171: the window at `(r, i)`: the byte under transform and its neighbours sampled from `B`. -/
def windowAt (x : Byte) (B : Bytes) (stride r i : Nat) : Window :=
  ⟨x, sampleA B stride r i, sampleB B stride r i, sampleC B stride r i⟩

/-- R186, R221: the window of the filter direction: `x` and the neighbours are raw bytes. -/
def filterWindow (raw : Bytes) (stride r i : Nat) : Window :=
  windowAt (byteAt raw (rawOffset stride r i)) raw stride r i

/-- R186, R201: the window of the reconstruct direction: `x` is the filtered byte, the neighbours are bytes already
reconstructed. -/
def reconWindow (F out : Bytes) (stride r i : Nat) : Window :=
  windowAt (byteAt F (filteredOffset stride r i)) out stride r i

end Sys2Proof.Machine
end

