-- ==== Sys2Proof/Machine/Kernel.lean ====
section
/-! DEFINITION. ScanlineTransform (spec/42_scanline_transform.md): the predictors, the ten byte operations, and the
meanings of the ENC and DEC rows. -/

namespace Sys2Proof.Machine

/-- R172: the Paeth predictor.  All intermediates are exact integers; a tie favours `a` over `b` over `c`. -/
def paeth (a b c : Byte) : Byte :=
  let p : Int := (a.toNat : Int) + (b.toNat : Int) - (c.toNat : Int)
  let pa := (p - (a.toNat : Int)).natAbs
  let pb := (p - (b.toNat : Int)).natAbs
  let pc := (p - (c.toNat : Int)).natAbs
  if pa ≤ pb ∧ pa ≤ pc then a else if pb ≤ pc then b else c

/-- R177: the Average predictor, the exact 9-bit sum halved. -/
def average (a b : Byte) : Byte := BitVec.ofNat 8 (floor2 (a.toNat + b.toNat))

/-- R173: `pred(f, a, b, c)`, the predictor of a kind. -/
def pred : FilterKind → Byte → Byte → Byte → Byte
  | .none, _, _, _ => 0
  | .sub, a, _, _ => a
  | .up, _, b, _ => b
  | .average, a, b, _ => average a b
  | .paeth, a, b, c => paeth a b c

/-- R173: `mod256(x - pred)`, the exact difference reduced. -/
def subMod (x q : Byte) : Byte := mod256 ((x.toNat : Int) - (q.toNat : Int))

/-- R173: `mod256(x + pred)`, the exact sum reduced. -/
def addMod (x q : Byte) : Byte := mod256 ((x.toNat : Int) + (q.toNat : Int))

/-- R174. -/
def opEncNone (w : Window) : Byte := w.x

/-- R175. -/
def opEncSub (w : Window) : Byte := subMod w.x w.a

/-- R176. -/
def opEncUp (w : Window) : Byte := subMod w.x w.b

/-- R177. -/
def opEncAvg (w : Window) : Byte := subMod w.x (average w.a w.b)

/-- R178. -/
def opEncPaeth (w : Window) : Byte := subMod w.x (paeth w.a w.b w.c)

/-- R179. -/
def opDecNone (w : Window) : Byte := w.x

/-- R180. -/
def opDecSub (w : Window) : Byte := addMod w.x w.a

/-- R181. -/
def opDecUp (w : Window) : Byte := addMod w.x w.b

/-- R182. -/
def opDecAvg (w : Window) : Byte := addMod w.x (average w.a w.b)

/-- R183. -/
def opDecPaeth (w : Window) : Byte := addMod w.x (paeth w.a w.b w.c)

/-- R187: dispatch by kind, filter direction. -/
def encOp : FilterKind → Window → Byte
  | .none => opEncNone
  | .sub => opEncSub
  | .up => opEncUp
  | .average => opEncAvg
  | .paeth => opEncPaeth

/-- R187: dispatch by kind, reconstruct direction. -/
def decOp : FilterKind → Window → Byte
  | .none => opDecNone
  | .sub => opDecSub
  | .up => opDecUp
  | .average => opDecAvg
  | .paeth => opDecPaeth

/-- R221: a filtered byte is appended to the row under construction, the window is discarded (R21; log entry 16), the
column advances (R25). -/
def storeFiltered (v : Byte) (s : State) : Outcome :=
  .next (s.withEng { s.eng with rowBuf := s.eng.rowBuf ++ [v], col := s.eng.col + 1, w := Window.zero })

/-- R201: a reconstructed byte is appended to `out`, the window is discarded (R21; log entry 16), the column
advances (R25). -/
def storeReconstructed (v : Byte) (s : State) : Outcome :=
  .next (s.withEng { s.eng with out := s.eng.out ++ [v], col := s.eng.col + 1, w := Window.zero })

/-- R174: `ENC.NONE` on the window registers. -/
def execEncNone (s : State) : Outcome := storeFiltered (opEncNone s.eng.w) s

/-- R175: `ENC.SUB` on the window registers. -/
def execEncSub (s : State) : Outcome := storeFiltered (opEncSub s.eng.w) s

/-- R176: `ENC.UP` on the window registers. -/
def execEncUp (s : State) : Outcome := storeFiltered (opEncUp s.eng.w) s

/-- R177: `ENC.AVG` on the window registers. -/
def execEncAvg (s : State) : Outcome := storeFiltered (opEncAvg s.eng.w) s

/-- R178: `ENC.PAETH` on the window registers. -/
def execEncPaeth (s : State) : Outcome := storeFiltered (opEncPaeth s.eng.w) s

/-- R179: `DEC.NONE` on the window registers. -/
def execDecNone (s : State) : Outcome := storeReconstructed (opDecNone s.eng.w) s

/-- R180: `DEC.SUB` on the window registers. -/
def execDecSub (s : State) : Outcome := storeReconstructed (opDecSub s.eng.w) s

/-- R181: `DEC.UP` on the window registers. -/
def execDecUp (s : State) : Outcome := storeReconstructed (opDecUp s.eng.w) s

/-- R182: `DEC.AVG` on the window registers. -/
def execDecAvg (s : State) : Outcome := storeReconstructed (opDecAvg s.eng.w) s

/-- R183: `DEC.PAETH` on the window registers. -/
def execDecPaeth (s : State) : Outcome := storeReconstructed (opDecPaeth s.eng.w) s

end Sys2Proof.Machine
end

