-- ==== Sys2Proof/Machine/Filter.lean ====
section
/-! DEFINITION. The FilterSelector (spec/44_filter_selector_encoder.md, sections 1 and 2): `filter_row`, `filter`,
`score`, `select`, and the meanings of the F rows. -/

namespace Sys2Proof.Machine

/-- R221: `filter_row(raw, stride, r, f)`. -/
def filterRow (raw : Bytes) (stride r : Nat) (f : FilterKind) : Bytes :=
  (List.range stride).map (fun i => encOp f (filterWindow raw stride r i))

/-- R221, R222 to R226: the scanline record of row `r` under kind `f`. -/
def filterScanline (raw : Bytes) (stride r : Nat) (f : FilterKind) : Bytes := f.code :: filterRow raw stride r f

/-- R227: the records of rows `r`, `r + 1`, … under the given kinds. -/
def filterRows (raw : Bytes) (stride : Nat) : Nat → List FilterKind → Bytes
  | _, [] => []
  | r, f :: ks => filterScanline raw stride r f ++ filterRows raw stride (r + 1) ks

/-- R227: `filter(raw, kinds, stride)`. -/
def filterStream (raw : Bytes) (kinds : List FilterKind) (stride : Nat) : Bytes := filterRows raw stride 0 kinds

/-- R228: `score(row_f)`, the sum of `abs(s8(v))`, exact. -/
def score : Bytes → Nat
  | [] => 0
  | v :: vs => (s8 v).natAbs + score vs

/-- R229: the candidates of row `r` under all five filters. -/
def candidates (raw : Bytes) (stride r : Nat) : Candidates :=
  ⟨filterRow raw stride r .none, filterRow raw stride r .sub, filterRow raw stride r .up,
    filterRow raw stride r .average, filterRow raw stride r .paeth⟩

/-- R229: each candidate's score. -/
def scoresOf (c : Candidates) : Scores :=
  ⟨score c.none, score c.sub, score c.up, score c.average, score c.paeth⟩

/-- R37: `S[f]`. -/
def scoreAt (S : Scores) : FilterKind → Nat
  | .none => S.none
  | .sub => S.sub
  | .up => S.up
  | .average => S.average
  | .paeth => S.paeth

/-- R229: `if S[f] < S[BEST] then BEST <- f`, strictly less. -/
def better (S : Scores) (best f : FilterKind) : FilterKind := if scoreAt S f < scoreAt S best then f else best

/-- R229, R328: the first minimum in the fixed order. -/
def bestOf (S : Scores) : FilterKind := better S (better S (better S (better S .none .sub) .up) .average) .paeth

/-- R229: the kind chosen for row `r`. -/
def selectRow (raw : Bytes) (stride r : Nat) : FilterKind := bestOf (scoresOf (candidates raw stride r))

/-- R230: the kinds chosen for the `n` rows from row `r`. -/
def selectRows (raw : Bytes) (stride : Nat) : Nat → Nat → List FilterKind
  | 0, _ => []
  | n + 1, r => selectRow raw stride r :: selectRows raw stride n (r + 1)

/-- R230: `select(raw, width, height)`. -/
def selectKinds (raw : Bytes) (width height : U32) : List FilterKind :=
  selectRows raw (strideOf width) height.toNat 0

/-- R25, R102: what is due after an `F.*` record: ENCODE selects the next row's kind, FILTER takes the next entry. -/
def afterFilter (c : Option Command) : Phase := if c = some .encode then .choose else .filt

/-- R221: the record of the current row is produced from the raw buffer and appended to the stream; `row` advances. -/
def filterRecord (f : FilterKind) (s : State) : Outcome :=
  if s.input.length < rawOffset (strideOf s.eng.width) (s.eng.row + 1) 0 then .fault .outsideExtent
  else
    .next (s.withEng { s.eng with
      f := s.eng.f ++ filterScanline s.input (strideOf s.eng.width) s.eng.row f
      row := s.eng.row + 1
      col := 0
      phase := afterFilter s.eng.cmd })

/-- R222: `F.NONE`. -/
def execFNone (s : State) : Outcome := filterRecord .none s

/-- R223: `F.SUB`. -/
def execFSub (s : State) : Outcome := filterRecord .sub s

/-- R224: `F.UP`. -/
def execFUp (s : State) : Outcome := filterRecord .up s

/-- R225: `F.AVG`. -/
def execFAvg (s : State) : Outcome := filterRecord .average s

/-- R226: `F.PAETH`. -/
def execFPaeth (s : State) : Outcome := filterRecord .paeth s

/-- R229, R37: the selection of the current row: candidates, scores, `BEST`, and the row's kind.  SELECT goes on with
the next row, ENCODE with the record `BEST` selects (R102). -/
def chooseRow (s : State) : Outcome :=
  if s.input.length < rawOffset (strideOf s.eng.width) (s.eng.row + 1) 0 then .fault .outsideExtent
  else
    .next (s.withEng { s.eng with
      cand := candidates s.input (strideOf s.eng.width) s.eng.row
      scores := scoresOf (candidates s.input (strideOf s.eng.width) s.eng.row)
      best := selectRow s.input (strideOf s.eng.width) s.eng.row
      kinds := s.eng.kinds ++ [selectRow s.input (strideOf s.eng.width) s.eng.row]
      row := if s.eng.cmd = some .encode then s.eng.row else s.eng.row + 1
      phase := if s.eng.cmd = some .encode then .filt else .choose })

end Sys2Proof.Machine
end

