-- ==== Sys2Proof/Machine/Crc.lean ====
section
/-! DEFINITION. The CRC-32 of R125, the instance the model binds (DESIGN CHOICE, log entry 11). -/

namespace Sys2Proof.Machine

/-- R125: the accumulator's initial value. -/
def crcInit : U32 := 0xFFFFFFFF

/-- R125: one of the eight rounds of a byte: a logical shift right, and the reflected polynomial where bit 0 was 1. -/
def crcBit (c : U32) : U32 :=
  if c.toNat % 2 = 1 then (c >>> 1) ^^^ 0xEDB88320 else c >>> 1

/-- R125: one byte enters bits 7..0, then eight rounds. -/
def crcByte (c : U32) (v : Byte) : U32 :=
  crcBit (crcBit (crcBit (crcBit (crcBit (crcBit (crcBit (crcBit (c ^^^ v.setWidth 32))))))))

/-- R125: the accumulator after the bytes of `B`, in order. -/
def crcRun : U32 → Bytes → U32
  | c, [] => c
  | c, v :: B => crcRun (crcByte c v) B

/-- R125: the final inversion. -/
def crcFinal (c : U32) : U32 := c ^^^ 0xFFFFFFFF

/-- R125: `crc32(B)`. -/
def crc32 (B : Bytes) : U32 := crcFinal (crcRun crcInit B)

end Sys2Proof.Machine
end

