-- ==== Sys2Proof/Machine/Chunk.lean ====
section
/-! DEFINITION. The ChunkCodec (spec/40_chunk_codec.md): chunk synthesis, framing, `parse`, `merge`, `serialize`, and
the meanings of SIG and the C rows. -/

namespace Sys2Proof.Machine

/-- R120, R121: what a chunk's crc covers: the tag, then the payload. -/
def chunkCrc (tag : Tag) (payload : Bytes) : U32 := crc32 (tagBytes tag ++ payload)

/-- R121: `mk_chunk(tag, payload)`. -/
def mkChunk (tag : Tag) (payload : Bytes) : Chunk := ⟨payload.length, tag, payload, chunkCrc tag payload⟩

/-- R122: the test of SIG. -/
def signatureOk (IN : Bytes) : Bool := decide (8 ≤ IN.length ∧ slice IN 0 8 = signatureBytes)

/-- R123, R124: the head of the record due at `pos`: a byte remains, the 12 bytes of the frame are there; then the
declared length and the tag. -/
def recordHead (IN : Bytes) (pos : Nat) : Except Err (U32 × Tag) :=
  if IN.length - pos = 0 then .error (.missingIend pos)
  else if IN.length - pos < Config.chunkOverhead then .error (.truncated pos)
  else .ok (u32At IN pos, tagAt IN (pos + 4))

/-- R123: framing and checking the record at `pos` whose head declares `len` and `tag`: the chunk.  The CRC accumulator
starts from its initial value and nothing of it is left when the chunk is checked (R41). -/
def frame (IN : Bytes) (pos : Nat) (len : U32) (tag : Tag) : Except Err Chunk :=
  if IN.length - pos = 0 then .error (.missingIend pos)
  else if IN.length - pos < Config.chunkOverhead then .error (.truncated pos)
  else if IN.length - pos < Config.chunkOverhead + len.toNat then .error (.truncated pos)
  else
    if crcFinal (crcRun crcInit (tagBytes tag ++ slice IN (pos + 8) len.toNat)) = u32At IN (pos + 8 + len.toNat) then
      .ok ⟨len.toNat, tag, slice IN (pos + 8) len.toNat, u32At IN (pos + 8 + len.toNat)⟩
    else
      .error (.checksum tag len (u32At IN (pos + 8 + len.toNat))
        (crcFinal (crcRun crcInit (tagBytes tag ++ slice IN (pos + 8) len.toNat))))

/-- R24: a chunk record of declared length `len` advances `pos` by `12 + len`. -/
def nextPos (pos : Nat) (len : U32) : Nat := pos + Config.chunkOverhead + len.toNat

/-- R130: the record loop from `pos`, up to and including the first IEND.  `fuel` bounds the number of records; every
record takes at least 12 bytes (R124), so the length of the stream is enough. -/
def parseLoop (IN : Bytes) : Nat → Nat → List Chunk → Except Err (List Chunk)
  | 0, pos, _ => .error (.missingIend pos)
  | fuel + 1, pos, list =>
    match recordHead IN pos with
    | .error e => .error e
    | .ok (len, tag) =>
      match frame IN pos len tag with
      | .error e => .error e
      | .ok ch =>
        if tag = tagIend then .ok (list ++ [ch]) else parseLoop IN fuel (nextPos pos len) (list ++ [ch])

/-- R131, R132: one chunk in the place of two IDAT chunks: length sum, payloads concatenated, crc recomputed over tag
and payload. -/
def combine (c d : Chunk) : Chunk :=
  ⟨c.length + d.length, tagIdat, c.payload ++ d.payload, chunkCrc tagIdat (c.payload ++ d.payload)⟩

/-- R131: a chunk in front of a merged list. -/
def mergeCons (c : Chunk) : List Chunk → List Chunk
  | [] => [c]
  | d :: ds => if c.tag = tagIdat ∧ d.tag = tagIdat then combine c d :: ds else c :: d :: ds

/-- R131: `merge(list)`: every maximal run of IDAT chunks becomes one. -/
def merge : List Chunk → List Chunk
  | [] => []
  | c :: cs => mergeCons c (merge cs)

/-- R130: `parse(IN)`. -/
def parse (IN : Bytes) : Except Err (List Chunk) :=
  if signatureOk IN then
    match parseLoop IN IN.length 8 [] with
    | .error e => .error e
    | .ok list => .ok (merge list)
  else .error .badSignature

/-- R134: a chunk record's bytes: length, tag, payload, crc. -/
def chunkBytes (c : Chunk) : Bytes := be32 (BitVec.ofNat 32 c.length) ++ tagBytes c.tag ++ c.payload ++ be32 c.crc

/-- R134: `serialize(chunks)`. -/
def serialize (cs : List Chunk) : Bytes := signatureBytes ++ cs.flatMap chunkBytes

/-- R122: `SIG`: the signature, else BadSignature; then `pos` is 8 and the list is empty (R130). -/
def execSig (s : State) : Outcome :=
  if signatureOk s.input then
    .next (s.withEng { s.eng with pos := Config.signatureLength, list := [], phase := .chunks })
  else .next (raise .badSignature s)

/-- R123: the step common to the four chunk opcodes: frame and check the record at `pos`, append it to the list,
advance `pos`; `next` says what is due then.  The CRC accumulator does not survive the chunk (R41; log entry 16). -/
def chunkRecord (tag : Tag) (len : U32) (next : Phase) (s : State) : Outcome :=
  match frame s.input s.eng.pos len tag with
  | .error e => .next (raise e s)
  | .ok ch =>
    .next (s.withEng { s.eng with
      list := s.eng.list ++ [ch]
      pos := nextPos s.eng.pos len
      crcAcc := 0
      phase := next })

/-- R126: `C.IHDR`, then the next record. -/
def execCIhdr (len : U32) (s : State) : Outcome := chunkRecord tagIhdr len .chunks s

/-- R127: `C.IDAT`, then the next record. -/
def execCIdat (len : U32) (s : State) : Outcome := chunkRecord tagIdat len .chunks s

/-- R128: `C.IEND`, then the record loop stops: no byte of `IN` at or after the new `pos` is read. -/
def execCIend (len : U32) (s : State) : Outcome := chunkRecord tagIend len .merge s

/-- R129: `C.OTHER`, then the next record. -/
def execCOther (len : U32) (tag : Tag) (s : State) : Outcome := chunkRecord tag len .chunks s

end Sys2Proof.Machine
end

