-- ==== Sys2Proof/Machine/HeaderCodec.lean ====
section
/-! DEFINITION. The HeaderValidator (spec/41_header_validator.md) and the checks DECODE makes of a parsed chunk list
(R251, R295 steps 3 to 6). -/

namespace Sys2Proof.Machine

/-- R151: `decode_header(P)`, for a payload of 13 bytes. -/
def decodeHeader (P : Bytes) : Header :=
  ⟨u32At P 0, u32At P 4, byteAt P 8, byteAt P 9, byteAt P 10, byteAt P 11, byteAt P 12⟩

/-- R152: `encode_header(H)`, always 13 bytes. -/
def encodeHeader (H : Header) : Bytes :=
  be32 H.width ++ be32 H.height ++ [H.bitDepth, H.colorType, H.compression, H.filter, H.interlace]

/-- R153, R155: `validate(H)`: the first violated field, in the fixed order. -/
def validate (H : Header) : Except Err Unit :=
  if H.compression ≠ 0 then .error (.unsupportedHeader fieldCompression 0 (H.compression.setWidth 32))
  else if H.filter ≠ 0 then .error (.unsupportedHeader fieldFilter 0 (H.filter.setWidth 32))
  else if H.colorType ≠ 6 then .error (.unsupportedHeader fieldColorType 6 (H.colorType.setWidth 32))
  else if H.bitDepth ≠ 8 then .error (.unsupportedHeader fieldBitDepth 8 (H.bitDepth.setWidth 32))
  else if H.interlace ≠ 0 then .error (.unsupportedHeader fieldInterlace 0 (H.interlace.setWidth 32))
  else if H.width = 0 then .error (.unsupportedHeader fieldWidth 1 0)
  else if H.height = 0 then .error (.unsupportedHeader fieldHeight 1 0)
  else .ok ()

/-- R251, R286, R287, R153: the checks between the merge and the call of `inflate`: the list is IHDR, IDAT, IEND; the
header is 13 bytes; it validates.  Answers the header and `Z`, the merged IDAT payload. -/
def checkChunks (cs : List Chunk) : Except Err (Header × Bytes) :=
  match cs with
  | [c0, c1, c2] =>
    if c0.tag = tagIhdr ∧ c1.tag = tagIdat ∧ c2.tag = tagIend then
      if c0.length = Config.ihdrLength then
        match validate (decodeHeader c0.payload) with
        | .error e => .error e
        | .ok _ => .ok (decodeHeader c0.payload, c1.payload)
      else .error .badIhdrLength
    else .error .chunkOrder
  | _ => .error .chunkOrder

end Sys2Proof.Machine
end

