-- ==== Sys2Proof/Machine/Recon.lean ====
section
/-! DEFINITION. The Reconstructor (spec/43_reconstructor.md): `reconstruct`, and the meanings of the R rows. -/

namespace Sys2Proof.Machine

/-- R201: the byte loop of a record: the `n` bytes left from column `i`, each appended to `out`. -/
def reconBytes (F : Bytes) (stride r : Nat) (f : FilterKind) : Nat → Nat → Bytes → Bytes
  | 0, _, out => out
  | n + 1, i, out => reconBytes F stride r f n (i + 1) (out ++ [decOp f (reconWindow F out stride r i)])

/-- R201: the record step at row `r`: the type byte is present, legal, and `stride` bytes follow it; then the row. -/
def reconStep (F : Bytes) (stride r : Nat) (out : Bytes) : Except Err (FilterKind × Bytes) :=
  if F.length ≤ recordOffset stride r then .error (.filteredStreamShort r)
  else
    match kindOfCode (byteAt F (recordOffset stride r)) with
    | none => .error (.badFilterType r (byteAt F (recordOffset stride r)))
    | some f =>
      if F.length < recordOffset stride r + 1 + stride then .error (.filteredStreamShort r)
      else .ok (f, reconBytes F stride r f stride 0 out)

/-- R207: the row loop: the `n` rows left from row `r`. -/
def reconRows (F : Bytes) (stride : Nat) : Nat → Nat → Bytes → List FilterKind → Except Err (Bytes × List FilterKind)
  | 0, _, out, kinds => .ok (out, kinds)
  | n + 1, r, out, kinds =>
    match reconStep F stride r out with
    | .error e => .error e
    | .ok (f, out') => reconRows F stride n (r + 1) out' (kinds ++ [f])

/-- R207: `reconstruct(F, height, stride)`. -/
def reconstruct (F : Bytes) (height stride : Nat) : Except Err (Bytes × List FilterKind) :=
  reconRows F stride height 0 [] []

/-- R201 past the type byte: the row must be there whole, else FilteredStreamShort; `out` holds the rows before it;
the kind is recorded, the row is reconstructed, `row` advances. -/
def reconRecord (f : FilterKind) (s : State) : Outcome :=
  if s.eng.f.length < recordOffset (strideOf s.eng.width) s.eng.row + 1 + strideOf s.eng.width then
    .next (raise (.filteredStreamShort s.eng.row) s)
  else if s.eng.out.length ≠ rawOffset (strideOf s.eng.width) s.eng.row 0 then .fault .outsideExtent
  else
    .next (s.withEng { s.eng with
      kinds := s.eng.kinds ++ [f]
      out := reconBytes s.eng.f (strideOf s.eng.width) s.eng.row f (strideOf s.eng.width) 0 s.eng.out
      row := s.eng.row + 1
      col := 0 })

/-- R202: `R.NONE`. -/
def execRNone (s : State) : Outcome := reconRecord .none s

/-- R203: `R.SUB`. -/
def execRSub (s : State) : Outcome := reconRecord .sub s

/-- R204: `R.UP`. -/
def execRUp (s : State) : Outcome := reconRecord .up s

/-- R205: `R.AVG`. -/
def execRAvg (s : State) : Outcome := reconRecord .average s

/-- R206: `R.PAETH`. -/
def execRPaeth (s : State) : Outcome := reconRecord .paeth s

end Sys2Proof.Machine
end

