-- ==== Sys2Proof/Machine/Command.lean ====
section
/-! DEFINITION. The six host commands (spec/45_host_commands.md), each one atomic transition (R68, R250), and the
engine state a command starts from (R322), which the sequencer steps record by record. -/

namespace Sys2Proof.Machine

/-- R257: ARG_WIDTH and ARG_HEIGHT at least 1. -/
def dimsOk (s : State) : Bool := decide (1 ≤ s.argWidth.toNat ∧ 1 ≤ s.argHeight.toNat)

/-- R257: `IN` holds one raw pixel buffer. -/
def rawOk (s : State) : Bool := decide (s.inLen = s.argHeight.toNat * strideOf s.argWidth)

/-- R257, D21: the preconditions of a command on the registers, the capacity of each buffer it reads among them. -/
def precondition (c : Command) (s : State) : Bool :=
  fitsCap s.caps.capIn s.inLen &&
    match c with
    | .decode => true
    | .parse => true
    | .recon => dimsOk s
    | .encode => dimsOk s && rawOk s && decide (1 ≤ s.argMaxIdat.toNat)
    | .filter => dimsOk s && rawOk s && fitsCap s.caps.capKind s.kindLen && decide (s.kindLen = s.argHeight.toNat)
    | .select => dimsOk s && rawOk s

/-- R257: every `KIND` entry is in 0..4. -/
def kindsOfCodes : Bytes → Option (List FilterKind)
  | [] => some []
  | t :: ts =>
    match kindOfCode t with
    | none => none
    | some f =>
      match kindsOfCodes ts with
      | none => none
      | some fs => some (f :: fs)

/-- The `KIND` argument of a command: FILTER reads it, no other command does (R38).  The type sequence a DECODE or RECON
left there is no operand (R305); the kinds an ENCODE or SELECT left are (DESIGN CHOICE, log entry 23). -/
def kindOperand (c : Command) (s : State) : Host.Outcome (List FilterKind) Fault Refusal :=
  if c = .filter then
    match s.kindInput with
    | none => .fault .unwritten
    | some ts =>
      match kindsOfCodes ts with
      | none => .refused .precondition
      | some ks => .next ks
  else .next []

/-- R250 phases 1 and 2, R257: no command runs, the preconditions hold, and `KIND` is there for FILTER.  The refusals
come before the fault of an entry of `KIND` never written (DESIGN CHOICE, log entry 17). -/
def operands (c : Command) (s : State) : Host.Outcome (Bytes × List FilterKind) Fault Refusal :=
  if s.status = .busy then .refused .busy
  else if precondition c s then
    match kindOperand c s with
    | .next ks => .next (s.input, ks)
    | .fault r => .fault r
    | .refused r => .refused r
  else .refused .precondition

/-- R250: a command as the host sees it, one atomic step: its function of the operands, then the results and DONE, or
the error record and ERROR. -/
def runCommand (c : Command) (compute : Bytes → List FilterKind → Except Err Result) (s : State) : Outcome :=
  match operands c s with
  | .fault r => .fault r
  | .refused r => .refused r
  | .next (IN, ks) =>
    match compute IN ks with
    | .error e => .next (raise e s)
    | .ok r => finish r s

/-- R234: the number of IDAT chunks, `max(1, ceil(L / M))`. -/
def idatCount (L M : Nat) : Nat := max 1 ((L + M - 1) / M)

/-- R234: `split_idat(Z, M)`. -/
def splitIdat (Z : Bytes) (M : Nat) : List Chunk :=
  (List.range (idatCount Z.length M)).map (fun k => mkChunk tagIdat (slice Z (k * M) M))

/-- R235: the chunk list of an encoded image. -/
def packageChunks (width height maxIdat : U32) (Z : Bytes) : List Chunk :=
  [mkChunk tagIhdr (encodeHeader (acceptedHeader width height))] ++ splitIdat Z maxIdat.toNat ++ [mkChunk tagIend []]

/-- R235, R252: the result of ENCODE once the stream is compressed. -/
def encodeResult (width height maxIdat : U32) (kinds : List FilterKind) (Z : Bytes) (fLen : Nat) : Result where
  out := serialize (packageChunks width height maxIdat Z)
  kinds := some kinds
  chunks := packageChunks width height maxIdat Z
  dims := some (width, height)
  diagnostic := false
  zLen := Z.length
  fLen := fLen

/-- R251: the result of DECODE once the rows are reconstructed. -/
def decodeResult (width height : U32) (cs : List Chunk) (out : Bytes) (kinds : List FilterKind) (zLen fLen : Nat) :
    Result where
  out := out
  kinds := some kinds
  chunks := cs
  dims := some (width, height)
  diagnostic := true
  zLen := zLen
  fLen := fLen

/-- R253: the result of PARSE. -/
def parseResult (cs : List Chunk) : Result where
  out := []
  kinds := some []
  chunks := cs
  dims := none
  diagnostic := false
  zLen := 0
  fLen := 0

/-- R254: the result of RECON. -/
def reconResult (out : Bytes) (kinds : List FilterKind) : Result where
  out := out
  kinds := some kinds
  chunks := []
  dims := none
  diagnostic := true
  zLen := 0
  fLen := 0

/-- R255: the result of FILTER; `KIND` is left as the host wrote it. -/
def filterResult (F : Bytes) : Result where
  out := F
  kinds := none
  chunks := []
  dims := none
  diagnostic := false
  zLen := 0
  fLen := 0

/-- R256: the result of SELECT. -/
def selectResult (kinds : List FilterKind) : Result where
  out := []
  kinds := some kinds
  chunks := []
  dims := none
  diagnostic := false
  zLen := 0
  fLen := 0

/-- R251: DECODE of a datastream. -/
def decodeStream (c : Config.Collaborator) (IN : Bytes) : Except Err Result :=
  match parse IN with
  | .error e => .error e
  | .ok cs =>
    match checkChunks cs with
    | .error e => .error e
    | .ok (H, Z) =>
      match inflate c Z with
      | none => .error .inflateFailed
      | some F =>
        match reconstruct F H.height.toNat (strideOf H.width) with
        | .error e => .error e
        | .ok (out, kinds) => .ok (decodeResult H.width H.height cs out kinds Z.length F.length)

/-- R236: `encode(raw, width, height, M)`. -/
def encodeImage (c : Config.Collaborator) (raw : Bytes) (width height maxIdat : U32) : Result :=
  encodeResult width height maxIdat (selectKinds raw width height)
    (deflate c (filterStream raw (selectKinds raw width height) (strideOf width)))
    (filterStream raw (selectKinds raw width height) (strideOf width)).length

/-- R253: PARSE of a datastream. -/
def parseStream (IN : Bytes) : Except Err Result :=
  match parse IN with
  | .error e => .error e
  | .ok cs => .ok (parseResult cs)

/-- R254: RECON of a filtered stream. -/
def reconImage (F : Bytes) (width height : U32) : Except Err Result :=
  match reconstruct F height.toNat (strideOf width) with
  | .error e => .error e
  | .ok (out, kinds) => .ok (reconResult out kinds)

/-- R251: `CMD.DECODE`. -/
def execCmdDecode (s : State) : Outcome := runCommand .decode (fun IN _ => decodeStream s.collab IN) s

/-- R252: `CMD.ENCODE`. -/
def execCmdEncode (s : State) : Outcome :=
  runCommand .encode (fun raw _ => .ok (encodeImage s.collab raw s.argWidth s.argHeight s.argMaxIdat)) s

/-- R253: `CMD.PARSE`. -/
def execCmdParse (s : State) : Outcome := runCommand .parse (fun IN _ => parseStream IN) s

/-- R254: `CMD.RECON`. -/
def execCmdRecon (s : State) : Outcome := runCommand .recon (fun F _ => reconImage F s.argWidth s.argHeight) s

/-- R255: `CMD.FILTER`. -/
def execCmdFilter (s : State) : Outcome :=
  runCommand .filter (fun raw ks => .ok (filterResult (filterStream raw ks (strideOf s.argWidth)))) s

/-- R256: `CMD.SELECT`. -/
def execCmdSelect (s : State) : Outcome :=
  runCommand .select (fun raw _ => .ok (selectResult (selectKinds raw s.argWidth s.argHeight))) s

/-- R102: the instruction of a command. -/
def commandInstr : Command → Instr
  | .decode => .cmdDecode
  | .encode => .cmdEncode
  | .parse => .cmdParse
  | .recon => .cmdRecon
  | .filter => .cmdFilter
  | .select => .cmdSelect

/-- What the sequencer does first in a command. -/
def firstPhase : Command → Phase
  | .decode => .chunks
  | .encode => .choose
  | .parse => .chunks
  | .recon => .recon
  | .filter => .filt
  | .select => .choose

/-- R322: the internal items at command start: `pos`, `row`, the lists and buffers cleared; the dimensions read (R33);
RECON fetches its records from `IN` (R76); FILTER applies the kinds given. -/
def startEngine (c : Command) (IN : Bytes) (ks : List FilterKind) (s : State) : Engine :=
  { Engine.rest with
    cmd := some c
    phase := firstPhase c
    width := s.argWidth
    height := s.argHeight
    f := if c = .recon then IN else []
    kinds := ks }

/-- R250 phase 2: the state in which a command runs, BUSY, its results invalidated.  The host never sees it (R68);
the sequencer's steps lead from it to the state the command's meaning answers. -/
def startCommand (c : Command) (s : State) : Outcome :=
  match operands c s with
  | .fault r => .fault r
  | .refused r => .refused r
  | .next (IN, ks) => .next { invalidate c s with status := .busy, eng := startEngine c IN ks s }

end Sys2Proof.Machine
end

