-- ==== Sys2Proof/Machine/Dispatch.lean ====
section
/-! DEFINITION. exec: one arm for each instruction. -/

namespace Sys2Proof.Machine

def exec (i : Instr) (s : State) : Host.Outcome State Fault Refusal :=
  match i with
  | .sig => Sys2Proof.Machine.execSig s
  | .cIhdr len => Sys2Proof.Machine.execCIhdr len s
  | .cIdat len => Sys2Proof.Machine.execCIdat len s
  | .cIend len => Sys2Proof.Machine.execCIend len s
  | .cOther len tag => Sys2Proof.Machine.execCOther len tag s
  | .rNone => Sys2Proof.Machine.execRNone s
  | .rSub => Sys2Proof.Machine.execRSub s
  | .rUp => Sys2Proof.Machine.execRUp s
  | .rAvg => Sys2Proof.Machine.execRAvg s
  | .rPaeth => Sys2Proof.Machine.execRPaeth s
  | .fNone => Sys2Proof.Machine.execFNone s
  | .fSub => Sys2Proof.Machine.execFSub s
  | .fUp => Sys2Proof.Machine.execFUp s
  | .fAvg => Sys2Proof.Machine.execFAvg s
  | .fPaeth => Sys2Proof.Machine.execFPaeth s
  | .encNone => Sys2Proof.Machine.execEncNone s
  | .encSub => Sys2Proof.Machine.execEncSub s
  | .encUp => Sys2Proof.Machine.execEncUp s
  | .encAvg => Sys2Proof.Machine.execEncAvg s
  | .encPaeth => Sys2Proof.Machine.execEncPaeth s
  | .decNone => Sys2Proof.Machine.execDecNone s
  | .decSub => Sys2Proof.Machine.execDecSub s
  | .decUp => Sys2Proof.Machine.execDecUp s
  | .decAvg => Sys2Proof.Machine.execDecAvg s
  | .decPaeth => Sys2Proof.Machine.execDecPaeth s
  | .cmdDecode => Sys2Proof.Machine.execCmdDecode s
  | .cmdEncode => Sys2Proof.Machine.execCmdEncode s
  | .cmdParse => Sys2Proof.Machine.execCmdParse s
  | .cmdRecon => Sys2Proof.Machine.execCmdRecon s
  | .cmdFilter => Sys2Proof.Machine.execCmdFilter s
  | .cmdSelect => Sys2Proof.Machine.execCmdSelect s

end Sys2Proof.Machine
end

