-- ==== Sys2Proof/Machine/Sequencer.lean ====
section
/-! DEFINITION. The sequencer (R20, R102, R266): what a running command does next.  It fetches the item due at the
cursor, decodes it and executes it, or takes one of the steps between records.  The
size of these steps is the model's (DESIGN CHOICE, log entry 1). -/

namespace Sys2Proof.Machine

/-- R102, R123, R124: the datastream item due at `pos`: SIG at offset 0; after it, the record whose head is there. -/
def fetchChunk (s : State) : Outcome :=
  if s.eng.pos = 0 then exec .sig s
  else
    match recordHead s.input s.eng.pos with
    | .error e => .next (raise e s)
    | .ok _ =>
      match decode .chunk (slice s.input s.eng.pos 8) with
      | .error _ => .next (raise (.truncated s.eng.pos) s)
      | .ok (i, _) => exec i s

/-- R131, R253, R251: the list is merged; PARSE ends with it, DECODE checks it and takes the header and `Z` from it. -/
def mergeList (s : State) : Outcome :=
  if s.eng.cmd = some .decode then
    match checkChunks (merge s.eng.list) with
    | .error e => .next (raise e s)
    | .ok (H, Z) =>
      .next (s.withEng { s.eng with
        list := merge s.eng.list
        width := H.width
        height := H.height
        z := Z
        phase := .inflate })
  else finish (parseResult (merge s.eng.list)) s

/-- R262, R251: the call of `inflate`; `F` is its answer. -/
def callInflate (s : State) : Outcome :=
  match inflate s.collab s.eng.z with
  | none => .next (raise .inflateFailed s)
  | some F => .next (s.withEng { s.eng with f := F, phase := .recon })

/-- R251, R254: the result of the command whose rows are all reconstructed. -/
def reconEnd (e : Engine) : Result :=
  if e.cmd = some .decode then decodeResult e.width e.height e.list e.out e.kinds e.z.length e.f.length
  else reconResult e.out e.kinds

/-- R201, R207: the scanline record due at `row`: the type byte must be there and legal; after the last row the
command ends. -/
def fetchRecon (s : State) : Outcome :=
  if s.eng.height.toNat ≤ s.eng.row then finish (reconEnd s.eng) s
  else if s.eng.f.length ≤ recordOffset (strideOf s.eng.width) s.eng.row then
    .next (raise (.filteredStreamShort s.eng.row) s)
  else
    match decode .recon (s.eng.f.drop (recordOffset (strideOf s.eng.width) s.eng.row)) with
    | .error _ =>
      .next (raise (.badFilterType s.eng.row (byteAt s.eng.f (recordOffset (strideOf s.eng.width) s.eng.row))) s)
    | .ok (i, _) => exec i s

/-- R229, R256, R236: the selection due at `row`; after the last row SELECT ends and ENCODE compresses. -/
def fetchChoose (s : State) : Outcome :=
  if s.eng.row < s.eng.height.toNat then chooseRow s
  else if s.eng.cmd = some .encode then .next (s.withEng { s.eng with phase := .deflate })
  else finish (selectResult s.eng.kinds) s

/-- R227, R102: the record due at `row`, its kind the `KIND` entry or `BEST`; after the last row FILTER ends. -/
def fetchFilter (s : State) : Outcome :=
  if s.eng.height.toNat ≤ s.eng.row then finish (filterResult s.eng.f) s
  else
    match s.eng.kinds[s.eng.row]? with
    | none => .fault .outsideExtent
    | some f =>
      match decode .filter [f.code] with
      | .error _ => .fault .outsideExtent
      | .ok (i, _) => exec i s

/-- R263, R233: the call of `deflate` with the whole stream. -/
def callDeflate (s : State) : Outcome :=
  .next (s.withEng { s.eng with z := deflate s.collab s.eng.f, phase := .pack })

/-- R235, R252: splitting and packaging, the end of ENCODE. -/
def packEnd (s : State) : Outcome :=
  finish (encodeResult s.eng.width s.eng.height s.argMaxIdat s.eng.kinds s.eng.z s.eng.f.length) s

/-- R201 taken byte by byte: the record's operation is resolved once (R187), its kind is recorded, column 0 is due. -/
def openRecon (f : FilterKind) (s : State) : State :=
  s.withEng { s.eng with kinds := s.eng.kinds ++ [f], op := some f, col := 0 }

/-- R221 taken byte by byte: the record's operation is resolved once (R187), column 0 is due. -/
def openFilter (f : FilterKind) (s : State) : State :=
  s.withEng { s.eng with op := some f, rowBuf := [], col := 0 }

/-- R201: the window is loaded whole from the cursor (R21), then the byte operation runs; after the last column the
record ends and `row` advances. -/
def stepReconByte (f : FilterKind) (s : State) : Outcome :=
  if strideOf s.eng.width ≤ s.eng.col then
    .next (s.withEng { s.eng with op := none, row := s.eng.row + 1, col := 0 })
  else if s.eng.f.length ≤ filteredOffset (strideOf s.eng.width) s.eng.row s.eng.col
      ∨ s.eng.out.length ≠ rawOffset (strideOf s.eng.width) s.eng.row s.eng.col then .fault .outsideExtent
  else
    exec (decInstr f) (s.withEng { s.eng with
      w := reconWindow s.eng.f s.eng.out (strideOf s.eng.width) s.eng.row s.eng.col })

/-- R221: the window is loaded whole from the raw buffer, then the byte operation runs; after the last column the
record, type byte and filtered bytes, is appended to the stream and `row` advances. -/
def stepFilterByte (f : FilterKind) (s : State) : Outcome :=
  if strideOf s.eng.width ≤ s.eng.col then
    .next (s.withEng { s.eng with
      f := s.eng.f ++ (f.code :: s.eng.rowBuf)
      rowBuf := []
      op := none
      row := s.eng.row + 1
      col := 0
      phase := afterFilter s.eng.cmd })
  else if s.input.length ≤ rawOffset (strideOf s.eng.width) s.eng.row s.eng.col then .fault .outsideExtent
  else
    exec (encInstr f) (s.withEng { s.eng with
      w := filterWindow s.input (strideOf s.eng.width) s.eng.row s.eng.col })

/-- A step inside a scanline record taken byte by byte. -/
def stepByte (f : FilterKind) (s : State) : Outcome :=
  match s.eng.phase with
  | .recon => stepReconByte f s
  | .filt => stepFilterByte f s
  | .rest => .refused .noCommandRunning
  | .chunks => .refused .noCommandRunning
  | .merge => .refused .noCommandRunning
  | .inflate => .refused .noCommandRunning
  | .choose => .refused .noCommandRunning
  | .deflate => .refused .noCommandRunning
  | .pack => .refused .noCommandRunning

/-- A step at a record boundary. -/
def stepPhase (s : State) : Outcome :=
  match s.eng.phase with
  | .rest => .refused .noCommandRunning
  | .chunks => fetchChunk s
  | .merge => mergeList s
  | .inflate => callInflate s
  | .recon => fetchRecon s
  | .choose => fetchChoose s
  | .filt => fetchFilter s
  | .deflate => callDeflate s
  | .pack => packEnd s

/-- One step of a running command. -/
def engineStep (s : State) : Outcome :=
  match s.eng.op with
  | some f => stepByte f s
  | none => stepPhase s

/-- R29, R250: with no command running, a code written to `CMD` is taken and its command runs; a reserved code is
refused (R259); with none written the block does nothing (R320). -/
def commandStep (s : State) : Outcome :=
  match s.cmd with
  | none => .next s
  | some code =>
    match decode .command [code] with
    | .error _ => .refused (.reservedCommand code)
    | .ok (i, _) => exec i { s with cmd := none }

/-- The bytes of a table word's datastream item, with the signature before a chunk record and a zero crc after its
head (the operand bits above the word are 0). -/
def wordStream (w : Nat) : Bytes :=
  if tableBytes w = signatureBytes then tableBytes w else signatureBytes ++ tableBytes w ++ [0, 0, 0, 0]

/-- A datastream item placed where a running PARSE fetches its next one. -/
def placeItem (s : State) (w : Nat) : State :=
  { s with
    status := .busy
    inp := Memory.ofBytes 0 (wordStream w)
    inLen := (wordStream w).length
    eng :=
      { Engine.rest with
        cmd := some .parse
        phase := .chunks
        pos := if tableBytes w = signatureBytes then 0 else Config.signatureLength } }

/-- A scanline record of one pixel with type byte `t` and zero operands, placed where a running RECON fetches its next
record. -/
def placeRecord (s : State) (t : Byte) : State :=
  { s with
    status := .busy
    eng := { Engine.rest with cmd := some .recon, phase := .recon, width := 1, height := 1, f := [t, 0, 0, 0, 0] } }

/-- A command code placed in `CMD` of an engine that runs none, with one-pixel operands of zeros for the commands that
have preconditions on them (R323). -/
def placeCommand (s : State) (code : Byte) : State :=
  let s0 := { s with cmd := some code, status := if s.status = .busy then .idle else s.status, eng := Engine.rest }
  if code = 1 ∨ code = 3 then s0
  else
    { s0 with
      argWidth := 1
      argHeight := 1
      argMaxIdat := 1
      inp := Memory.ofBytes 0 (if code = 4 then [0, 0, 0, 0, 0] else [0, 0, 0, 0])
      inLen := if code = 4 then 5 else 4
      kind := Memory.ofBytes 0 [0]
      kindLen := 1
      kindDiag := [] }

/-- What `State.withFetchWord` places: a 64-bit word is a datastream item, an 8-bit word a command code, or a type byte
where the code is reserved as a command (as `decodeTableWord` reads them; log entry 2). -/
def placeWord (s : State) (nbits w : Nat) : State :=
  if nbits = 64 then placeItem s w
  else if (commandOfCode (BitVec.ofNat 8 w)).isSome then placeCommand s (BitVec.ofNat 8 w)
  else placeRecord s (BitVec.ofNat 8 w)

end Sys2Proof.Machine
end

