-- ==== Sys2Proof/Machine/Step.lean ====
section
/-! DEFINITION. One step of the machine, and the placing of an instruction where the next step fetches it. -/

namespace Sys2Proof.Machine

/-- R20, R68, R250: while a command runs, the sequencer's next step; otherwise the command written to `CMD`, if any, as
one atomic transition. -/
def step (s : State) : Host.Outcome State Fault Refusal :=
  if s.status = .busy then engineStep s else commandStep s

/-- The state in which the next step fetches and runs the instruction of a word of the opcode table. -/
def State.withFetchWord (s : State) (nbits w : Nat) : State := placeWord s nbits w

end Sys2Proof.Machine
end

