-- ==== Sys2Proof/Machine/HostPort.lean ====
section
/-! DEFINITION. The host's side (R28, R36, R40, R250 phase 1, R324): what a host access to a register or buffer
answers, by name or through `REG_MAP` (R11).  The host acts only while no command runs (R20, R68). -/

namespace Sys2Proof.Machine

/-- R28: the 24 registers. -/
inductive Reg where
  | cmd
  | state
  | errClass
  | errSub
  | errField
  | errTag
  | errLen
  | errExpected
  | errActual
  | errPos
  | argWidth
  | argHeight
  | argMaxIdat
  | inLen
  | kindLen
  | outLen
  | nChunks
  | resWidth
  | resHeight
  | resBitDepth
  | resColorType
  | resCompression
  | resFilter
  | resInterlace
deriving DecidableEq, Repr

/-- R28: the register index. -/
def regIndex : Reg → Nat
  | .cmd => 0
  | .state => 1
  | .errClass => 2
  | .errSub => 3
  | .errField => 4
  | .errTag => 5
  | .errLen => 6
  | .errExpected => 7
  | .errActual => 8
  | .errPos => 9
  | .argWidth => 10
  | .argHeight => 11
  | .argMaxIdat => 12
  | .inLen => 13
  | .kindLen => 14
  | .outLen => 15
  | .nChunks => 16
  | .resWidth => 17
  | .resHeight => 18
  | .resBitDepth => 19
  | .resColorType => 20
  | .resCompression => 21
  | .resFilter => 22
  | .resInterlace => 23

/-- R68: from the write of `CMD` to DONE or ERROR only the engine touches the block: a command runs, or a code written
to `CMD` waits for the step that runs it (log entry 8). -/
def owned (s : State) : Bool := decide (s.status = .busy) || s.cmd.isSome

/-- R30, R250: `STATE` as the host reads it: BUSY from the write of `CMD` on. -/
def shownStatus (s : State) : Status := if owned s then .busy else s.status

/-- R28: the register of an index; no other index names one. -/
def regOfIndex (n : Nat) : Option Reg :=
  [Reg.cmd, .state, .errClass, .errSub, .errField, .errTag, .errLen, .errExpected, .errActual, .errPos, .argWidth,
    .argHeight, .argMaxIdat, .inLen, .kindLen, .outLen, .nChunks, .resWidth, .resHeight, .resBitDepth, .resColorType,
    .resCompression, .resFilter, .resInterlace][n]?

/-- R36: a register valid in DONE where `there` says the last command produced it, and nowhere else. -/
def readResult (there : Bool) (v : Nat) (s : State) : Host.Outcome Nat Fault Refusal :=
  if s.status = .done ∧ there = true then .next v else .fault .noValue

/-- R36: an error register, valid in ERROR and nowhere else. -/
def readError (v : Nat) (s : State) : Host.Outcome Nat Fault Refusal :=
  if s.status = .error then .next v else .fault .noValue

/-- R28, R324: an argument register, which the host may read but in ERROR (log entry 9). -/
def readArg (v : Nat) (s : State) : Host.Outcome Nat Fault Refusal :=
  if s.status = .error then .refused .inError else .next v

/-- R28, R36, R324: a host read of a register while the host may access the block: `ERR_*` only in ERROR, results only
in DONE, arguments but in ERROR.  `ERR_CLASS` and `ERR_SUB` are also read in IDLE and DONE, where R31 says that they
are 0 (DEDUCED, log entry 9). -/
def readReg (r : Reg) (s : State) : Host.Outcome Nat Fault Refusal :=
  match r with
  | .cmd => .refused .writeOnly
  | .state => .next (statusCode s.status).toNat
  | .errClass => .next s.err.cls.toNat
  | .errSub => .next s.err.sub.toNat
  | .errField => readError s.err.field.toNat s
  | .errTag => readError s.err.tag.toNat s
  | .errLen => readError s.err.len.toNat s
  | .errExpected => readError s.err.expected.toNat s
  | .errActual => readError s.err.actual.toNat s
  | .errPos => readError s.err.pos s
  | .argWidth => readArg s.argWidth.toNat s
  | .argHeight => readArg s.argHeight.toNat s
  | .argMaxIdat => readArg s.argMaxIdat.toNat s
  | .inLen => readArg s.inLen s
  | .kindLen => readArg s.kindLen s
  | .outLen => readResult true s.outLen s
  | .nChunks => readResult true s.nChunks s
  | .resWidth => readResult s.resValid s.res.width.toNat s
  | .resHeight => readResult s.resValid s.res.height.toNat s
  | .resBitDepth => readResult s.resValid s.res.bitDepth.toNat s
  | .resColorType => readResult s.resValid s.res.colorType.toNat s
  | .resCompression => readResult s.resValid s.res.compression.toNat s
  | .resFilter => readResult s.resValid s.res.filter.toNat s
  | .resInterlace => readResult s.resValid s.res.interlace.toNat s

/-- R28, R36: a host read: `STATE` at any time, everything else only while no command runs; no read has a side effect
(R69). -/
def hostRead (r : Reg) (s : State) : Host.Outcome Nat Fault Refusal :=
  if r = .state then .next (statusCode (shownStatus s)).toNat
  else if owned s then .refused .busy
  else readReg r s

/-- R28: a 32-bit argument register takes a 32-bit value. -/
def writeArg (v : Nat) (write : U32 → State) : Outcome :=
  if v < 2 ^ 32 then .next (write (BitVec.ofNat 32 v)) else .refused .tooWide

/-- R29, R106: the command code the host writes. -/
def writeCmd (v : Nat) (s : State) : Outcome :=
  if v < 2 ^ 8 then
    match commandOfCode (BitVec.ofNat 8 v) with
    | none => .refused (.reservedCommand (BitVec.ofNat 8 v))
    | some _ => .next { s with cmd := some (BitVec.ofNat 8 v) }
  else .refused .tooWide

/-- R28, R33: a host write of a register while the host may access the block.  `IN_LEN` and `KIND_LEN` take any natural
number: one beyond the capacity is refused by the command that reads the buffer, not at the write (DESIGN CHOICE, log
entry 22). -/
def writeReg (r : Reg) (v : Nat) (s : State) : Outcome :=
  match r with
  | .cmd => writeCmd v s
  | .argWidth => writeArg v (fun x => { s with argWidth := x })
  | .argHeight => writeArg v (fun x => { s with argHeight := x })
  | .argMaxIdat => writeArg v (fun x => { s with argMaxIdat := x })
  | .inLen => .next { s with inLen := v }
  | .kindLen => .next { s with kindLen := v }
  | .state => .refused .readOnly
  | .errClass => .refused .readOnly
  | .errSub => .refused .readOnly
  | .errField => .refused .readOnly
  | .errTag => .refused .readOnly
  | .errLen => .refused .readOnly
  | .errExpected => .refused .readOnly
  | .errActual => .refused .readOnly
  | .errPos => .refused .readOnly
  | .outLen => .refused .readOnly
  | .nChunks => .refused .readOnly
  | .resWidth => .refused .readOnly
  | .resHeight => .refused .readOnly
  | .resBitDepth => .refused .readOnly
  | .resColorType => .refused .readOnly
  | .resCompression => .refused .readOnly
  | .resFilter => .refused .readOnly
  | .resInterlace => .refused .readOnly

/-- R28, R29, R36: a host write of a register. -/
def hostWrite (r : Reg) (v : Nat) (s : State) : Outcome :=
  if owned s then .refused .busy else writeReg r v s

/-- A byte stored in `IN`. -/
def storeIn (o : Nat) (v : Byte) (s : State) : State := { s with inp := s.inp.write o v }

/-- A code stored in `KIND`; the entry is then no diagnostic of an earlier command (R305). -/
def storeKind (i : Nat) (v : Byte) (s : State) : State :=
  { s with kind := s.kind.write i v, kindDiag := s.kindDiag.filter (fun j => decide (j ≠ i)) }

/-- An index added to a rising list. -/
def insertRising (i : Nat) : List Nat → List Nat
  | [] => [i]
  | j :: js => if i < j then i :: j :: js else if i = j then j :: js else j :: insertRising i js

/-- R70: a byte stored at offset `o` of the space at cell `a`, as `IN` sees it. -/
def echoIn (a : Option Nat) (o : Nat) (v : Byte) (s : State) : State :=
  match sharedOffset a s.regMap.storage.inCell o with
  | none => s
  | some j => if insideCap s.caps.capIn j then storeIn j v s else s

/-- R70: a byte stored at offset `o` of the space at cell `a`, as `KIND` sees it. -/
def echoKind (a : Option Nat) (o : Nat) (v : Byte) (s : State) : State :=
  match sharedOffset a s.regMap.storage.kindCell o with
  | none => s
  | some j => if insideCap s.caps.capKind j then storeKind j v s else s

/-- R70: a byte stored at offset `o` of the space at cell `a`, as `OUT` sees it; beyond `OUT_LEN` it holds none (R35). -/
def echoOut (a : Option Nat) (o : Nat) (v : Byte) (s : State) : State :=
  match sharedOffset a s.regMap.storage.outCell o with
  | none => s
  | some j => if j < s.outLen then { s with out := s.out.write j v } else s

/-- R70: a byte stored at offset `o` of the space at cell `a`, as `CHUNKS` sees it: a Chunk there is lost. -/
def echoChunks (a : Option Nat) (o : Nat) (s : State) : State :=
  match sharedOffset a s.regMap.storage.chunkCell o with
  | none => s
  | some j => if j < s.nChunks then { s with chunksLost := insertRising j s.chunksLost } else s

/-- R40, R70, R250 phase 1: the host writes a byte of `IN`, which every space that shares its storage sees. -/
def hostWriteIn (o : Nat) (v : Byte) (s : State) : Outcome :=
  if owned s then .refused .busy
  else if insideCap s.caps.capIn o then
    .next (echoChunks s.regMap.storage.inCell o (echoOut s.regMap.storage.inCell o v
      (echoKind s.regMap.storage.inCell o v (storeIn o v s))))
  else .fault .noSuchOffset

/-- R38, R70, R250 phase 1: the host writes an entry of `KIND`, which every space that shares its storage sees. -/
def hostWriteKind (i : Nat) (v : Byte) (s : State) : Outcome :=
  if owned s then .refused .busy
  else if insideCap s.caps.capKind i then
    .next (echoChunks s.regMap.storage.kindCell i (echoOut s.regMap.storage.kindCell i v
      (echoIn s.regMap.storage.kindCell i v (storeKind i v s))))
  else .fault .noSuchOffset

/-- A value that is there, or the fault of reading where none is (R36). -/
def valueOr {α : Type} (v : Option α) : Host.Outcome α Fault Refusal :=
  match v with
  | some x => .next x
  | none => .fault .noValue

/-- R35, R40, R324: the host reads back a byte of `IN` it wrote, in IDLE and DONE; at or beyond `IN_LEN` there is none,
and in ERROR it may read only `ERR_*`.  That `IN` can be read back at all is the model's choice (DESIGN CHOICE, log
entry 21). -/
def hostReadIn (o : Nat) (s : State) : Host.Outcome Byte Fault Refusal :=
  if owned s then .refused .busy
  else if s.status = .error then .refused .inError
  else if o < s.inLen then valueOr (s.inp.read o)
  else .fault .noValue

/-- R35, R36, R324: the host reads a byte of `OUT`, valid in DONE below `OUT_LEN`. -/
def hostReadOut (o : Nat) (s : State) : Host.Outcome Byte Fault Refusal :=
  if owned s then .refused .busy
  else if s.status = .done ∧ o < s.outLen then valueOr (s.out.read o)
  else .fault .noValue

/-- R35, R36, R305, R324: the host reads an entry of `KIND`, valid in DONE below `KIND_LEN` where the last command
produced it (log entry 9).  The entries the host itself wrote for FILTER do not read back in IDLE (DESIGN CHOICE, log
entry 21), nor in ERROR, nor after FILTER, which did not produce them (R324). -/
def hostReadKind (i : Nat) (s : State) : Host.Outcome Byte Fault Refusal :=
  if owned s then .refused .busy
  else if s.status = .done ∧ s.kindValid = true ∧ i < s.kindLen then valueOr (s.kind.read i)
  else .fault .noValue

/-- R36, R39, R70, R324: the host reads an entry of `CHUNKS`, valid in DONE below `NCHUNKS`, and lost where its storage
has been written through another space. -/
def hostReadChunk (i : Nat) (s : State) : Host.Outcome Chunk Fault Refusal :=
  if owned s then .refused .busy
  else if s.status = .done ∧ i < s.nChunks ∧ i ∉ s.chunksLost then valueOr s.chunks[i]?
  else .fault .noValue

/-- The place of a bus address in one region of the map. -/
def regionPlace (a : Nat) (g : Config.BusRegion) : Option (Config.Space × Nat) :=
  if g.base ≤ a ∧ a < g.base + g.size then some (g.space, g.first + (a - g.base)) else none

/-- R11, R28: the place `REG_MAP` maps a bus address to: that of the first region that holds it (log entry 24). -/
def busPlace : List Config.BusRegion → Nat → Option (Config.Space × Nat)
  | [], _ => none
  | g :: gs, a =>
    match regionPlace a g with
    | some p => some p
    | none => busPlace gs a

/-- What a bus read answers: the value of a register or a byte, or a Chunk (R39). -/
inductive BusValue where
  | number (n : Nat)
  | chunk (c : Chunk)
deriving DecidableEq, Repr

/-- A read, its value as the bus answers it. -/
def answer {A B : Type} (f : A → B) (o : Host.Outcome A Fault Refusal) : Host.Outcome B Fault Refusal :=
  match o with
  | .next a => .next (f a)
  | .fault r => .fault r
  | .refused r => .refused r

/-- A byte as the bus answers it. -/
def byteValue (b : Byte) : BusValue := .number b.toNat

/-- A bus word written to a byte. -/
def writeByte (v : Nat) (write : Byte → Outcome) : Outcome :=
  if v < 2 ^ 8 then write (BitVec.ofNat 8 v) else .refused .tooWide

/-- R11, R28: a host read at a bus address is the host read of the place `REG_MAP` gives. -/
def hostReadAt (a : Nat) (s : State) : Host.Outcome BusValue Fault Refusal :=
  match busPlace s.regMap.regions a with
  | none => .refused .unmapped
  | some (.regs, n) =>
    match regOfIndex n with
    | none => .refused .unmapped
    | some r => answer .number (hostRead r s)
  | some (.inBytes, n) => answer byteValue (hostReadIn n s)
  | some (.outBytes, n) => answer byteValue (hostReadOut n s)
  | some (.kindEntries, n) => answer byteValue (hostReadKind n s)
  | some (.chunkEntries, n) => answer .chunk (hostReadChunk n s)

/-- R11, R28: a host write at a bus address is the host write of the place `REG_MAP` gives; `OUT` and `CHUNKS` are
read-only to the host (R39, R40). -/
def hostWriteAt (a v : Nat) (s : State) : Outcome :=
  match busPlace s.regMap.regions a with
  | none => .refused .unmapped
  | some (.regs, n) =>
    match regOfIndex n with
    | none => .refused .unmapped
    | some r => hostWrite r v s
  | some (.inBytes, n) => writeByte v (fun b => hostWriteIn n b s)
  | some (.outBytes, _) => .refused .readOnly
  | some (.kindEntries, n) => writeByte v (fun b => hostWriteKind n b s)
  | some (.chunkEntries, _) => .refused .readOnly

end Sys2Proof.Machine
end

