-- ==== Sys2Proof/Safety.lean ====
section
/-! DEFINITION. What every step keeps: the buffers' canonical form and extents (R35, R61), the Chunk invariant (R120),
the error record and results agreeing with `STATE` (R30, R31, R34, R296), the internal items dropped at the end of a
command (R42), and the cursors inside their streams (R26). -/

namespace Sys2Proof.Machine

/-- R120: `length == len(payload)` and `crc == CRC32(type_tag || payload)`. -/
def ChunkOk (c : Chunk) : Prop := c.length = c.payload.length ∧ c.crc = chunkCrc c.tag c.payload

/-- R35: a buffer in canonical form that holds a value at exactly the offsets below its length register. -/
def ExtentIs (m : Memory) (n : Nat) : Prop := m.wf = true ∧ ∀ o, (m.read o).isSome = decide (o < n)

/-- The phases of a command past its header checks: the dimensions are in use. -/
def phaseHasDims : Phase → Bool
  | .rest => false
  | .chunks => false
  | .merge => false
  | .inflate => true
  | .recon => true
  | .choose => true
  | .filt => true
  | .deflate => true
  | .pack => true

/-- The phases before the first scanline record. -/
def phaseBeforeRows : Phase → Bool
  | .rest => true
  | .chunks => true
  | .merge => true
  | .inflate => true
  | .recon => false
  | .choose => false
  | .filt => false
  | .deflate => false
  | .pack => false

/-- What every state of a run meets. -/
structure State.Inv (s : State) : Prop where
  /-- The buffers the host writes are in canonical form. -/
  inWf : s.inp.wf = true
  kindWf : s.kind.wf = true
  /-- R35: `OUT` holds bytes at exactly the offsets below `OUT_LEN`. -/
  outExtent : ExtentIs s.out s.outLen
  /-- R35, R39: `NCHUNKS` counts `CHUNKS`. -/
  chunkCount : s.nChunks = s.chunks.length
  /-- R70: a lost entry is one of `CHUNKS`, and each is listed once, in rising order. -/
  lostInside : ∀ i ∈ s.chunksLost, i < s.nChunks
  lostSorted : s.chunksLost.Pairwise (· < ·)
  /-- R120, for the list reported and the list under construction. -/
  chunksOk : ∀ c ∈ s.chunks, ChunkOk c
  listOk : ∀ c ∈ s.eng.list, ChunkOk c
  /-- R31, R30: the error record is 0 but in ERROR, where it names a class. -/
  noError : s.status ≠ .error → s.err = ErrRegs.zero
  errorClass : s.status = .error → s.err.cls ≠ 0
  /-- R31: `ERR_SUB` is 0 unless `ERR_CLASS = 1`. -/
  subOnlyFormat : s.err.sub ≠ 0 → s.err.cls = classFormat
  /-- R30, R296: no results but in DONE. -/
  resultsOnlyDone : s.status ≠ .done → s.outLen = 0 ∧ s.nChunks = 0 ∧ s.resValid = false
  /-- R36, R324: no entry of `KIND` is a result but in DONE. -/
  kindsOnlyDone : s.status ≠ .done → s.kindValid = false
  /-- R305: a diagnostic entry of `KIND` holds a value, and each is listed once, in rising order. -/
  diagHeld : ∀ i ∈ s.kindDiag, (s.kind.read i).isSome = true
  diagSorted : s.kindDiag.Pairwise (· < ·)
  /-- R34: a header reported is an accepted one. -/
  headerAccepted : s.resValid = true →
    s.res = acceptedHeader s.res.width s.res.height ∧ s.res.width ≠ 0 ∧ s.res.height ≠ 0
  headerAbsent : s.resValid = false → s.res = Header.zero
  /-- R42, R43: outside a command the internal items are dropped. -/
  restOutside : s.status ≠ .busy → s.eng = Engine.rest
  /-- R26: `pos` never passes `IN_LEN`. -/
  posInside : s.eng.pos ≤ s.inLen
  /-- R26: `row` stops at `height`. -/
  rowInside : s.eng.row ≤ s.eng.height.toNat
  rowOpen : s.eng.op ≠ none → s.eng.row < s.eng.height.toNat
  /-- R25: `col` is in `0..stride`, and 0 but inside a record taken byte by byte. -/
  colInside : s.eng.col ≤ strideOf s.eng.width
  colClosed : s.eng.op = none → s.eng.col = 0
  /-- R322: the row cursor and `out` are as cleared until the first scanline record. -/
  rowsFresh : phaseBeforeRows s.eng.phase = true → s.eng.op = none ∧ s.eng.row = 0 ∧ s.eng.out = []
  /-- R10, R150: the dimensions in use are at least 1. -/
  dimsPositive : phaseHasDims s.eng.phase = true → s.eng.width ≠ 0 ∧ s.eng.height ≠ 0
  /-- R201: `out` has exactly `row*stride + col` bytes when the next byte is due. -/
  outHeld : s.eng.phase = .recon →
    s.eng.out.length = rawOffset (strideOf s.eng.width) s.eng.row s.eng.col

end Sys2Proof.Machine
end

