-- ==== Sys2Proof/Certificates/Slice0/Obligations.lean ====
section
/-! DEFINITION. The statements for the provers.  `s.input` is `IN[0:IN_LEN]` as the engine reads it (R33): what was
written, and at an offset nothing has written a free value, so a statement holds for each of its values (log entry 6). -/

open Sys2Proof
open Sys2Proof.Machine

/-- R102, R108: decoding the bytes of a well-formed instruction, whatever follows them, gives it back. -/
def Obligations.DecodeInvertsEncode : Prop :=
  ∀ (i : Instr) (rest : Bytes), i.wf = true → decode (contextOf i) (encode i ++ rest) = .ok (i, rest)

/-- R102, R108: bytes that decode are the encoding of the instruction they decode to, which is well formed. -/
def Obligations.EncodeInvertsDecode : Prop :=
  ∀ (ctx : Context) (bs rest : Bytes) (i : Instr), decode ctx bs = .ok (i, rest) →
    contextOf i = ctx ∧ i.wf = true ∧ encode i ++ rest = bs

/-- R91, R92, R93, R97, R109: words written out from the encodings decode to their instructions. -/
def Obligations.WrittenOutWordsDecode : Prop :=
  decode .signature [0x89, 0x50, 0x4E, 0x47, 0x0D, 0x0A, 0x1A, 0x0A] = .ok (.sig, []) ∧
  decode .chunk [0x00, 0x00, 0x00, 0x0D, 0x49, 0x48, 0x44, 0x52] = .ok (.cIhdr 13, []) ∧
  decode .chunk [0x00, 0x01, 0x02, 0x03, 0x49, 0x44, 0x41, 0x54] = .ok (.cIdat 0x00010203, []) ∧
  decode .chunk [0x69, 0x68, 0x64, 0x72, 0x69, 0x68, 0x64, 0x72] =
    .ok (.cOther 0x69686472 ⟨0x69, 0x68, 0x64, 0x72⟩, []) ∧
  decode .recon [0x03, 0x55] = .ok (.rAvg, [0x55]) ∧
  decode .command [0x05] = .ok (.cmdFilter, [])

/-- R103, R106: a type byte or kind code 5..255 and a command code 0 or 7..255 name no instruction. -/
def Obligations.IllegalCodesAreRejected : Prop :=
  ∀ (v : Byte) (rest : Bytes),
    (5 ≤ v.toNat →
      decode .recon (v :: rest) = .error (.badFilterType v) ∧ decode .filter (v :: rest) = .error (.badFilterType v)) ∧
    (v.toNat = 0 ∨ 7 ≤ v.toNat → decode .command (v :: rest) = .error (.reservedCommand v))

/-- R29, R250: with no command running, a step takes the code written to `CMD` and runs the command it decodes to.
That the code waits in `CMD` for this step is the model's choice (log entry 8). -/
def Obligations.StepRunsTheWrittenCommand : Prop :=
  ∀ (s : State) (code : Byte) (i : Instr), s.status ≠ .busy → s.cmd = some code →
    decode .command [code] = .ok (i, []) → step s = exec i { s with cmd := none }

/-- R102, R122, R123: while the chunk framer runs, a step runs SIG at offset 0 and elsewhere the chunk record whose
head stands at `pos`. The size of these steps is the model's choice (log entry 1). -/
def Obligations.StepRunsTheDueDatastreamItem : Prop :=
  ∀ (s : State), s.status = .busy → s.eng.op = none → s.eng.phase = .chunks →
    (s.eng.pos = 0 → step s = exec .sig s) ∧
    (∀ (rest : Bytes) (i : Instr), s.eng.pos ≠ 0 → s.eng.pos + 12 ≤ s.inLen →
      decode .chunk (s.input.drop s.eng.pos) = .ok (i, rest) → step s = exec i s)

/-- R102, R201, R227: while the scanline engine runs, a step runs the record whose type byte stands at `row * (1 +
stride)` of `F`, and in the filter direction the record of the row's kind. The size of these steps is the model's
choice (log entry 1). -/
def Obligations.StepRunsTheDueScanlineRecord : Prop :=
  ∀ (s : State) (i : Instr) (rest : Bytes), s.status = .busy → s.eng.op = none → s.eng.row < s.eng.height.toNat →
    (s.eng.phase = .recon → s.eng.row * (1 + 4 * s.eng.width.toNat) < s.eng.f.length →
      decode .recon (s.eng.f.drop (s.eng.row * (1 + 4 * s.eng.width.toNat))) = .ok (i, rest) → step s = exec i s) ∧
    (∀ f : FilterKind, s.eng.phase = .filt → s.eng.kinds[s.eng.row]? = some f →
      decode .filter [f.code] = .ok (i, rest) → step s = exec i s)

/-- R21, R201, R221: inside a record taken byte by byte, a step loads the window whole from the cursor and runs the
byte operation of the record's kind. The size of these steps is the model's choice (log entry 1). -/
def Obligations.StepRunsTheDueByteOperation : Prop :=
  ∀ (s : State) (f : FilterKind), s.status = .busy → s.eng.op = some f →
    s.eng.col < 4 * s.eng.width.toNat →
    (s.eng.phase = .recon →
      s.eng.row * (1 + 4 * s.eng.width.toNat) + 1 + s.eng.col < s.eng.f.length →
      s.eng.out.length = s.eng.row * (4 * s.eng.width.toNat) + s.eng.col →
      step s = exec (decInstr f) (s.withEng { s.eng with
        w := reconWindow s.eng.f s.eng.out (4 * s.eng.width.toNat) s.eng.row s.eng.col })) ∧
    (s.eng.phase = .filt → s.eng.row * (4 * s.eng.width.toNat) + s.eng.col < s.inLen →
      step s = exec (encInstr f) (s.withEng { s.eng with
        w := filterWindow s.input (4 * s.eng.width.toNat) s.eng.row s.eng.col }))

/-- R320, R259: with no command running the block does nothing until `CMD` is written, and a reserved code is
refused. That the step then answers the same state is the model's choice (log entry 8). -/
def Obligations.StepWithoutACommandWaits : Prop :=
  ∀ s : State, s.status ≠ .busy →
    (s.cmd = none → step s = .next s) ∧
    (∀ code : Byte, s.cmd = some code → code.toNat = 0 ∨ 7 ≤ code.toNat → step s = .refused (.reservedCommand code))

/-- R44: the values the spec states for reset: `STATE` IDLE, every register 0, no byte of a buffer and no entry of a
table holds a value, and no result is valid. That no result stands is said by `resValid`, `kindValid`,
`kindDiag` and `chunksLost`, and that `CMD` holds nothing by `cmd`, which are the model's own (log entries 7, 8,
9, 23 and 25). -/
def Obligations.ResetHoldsTheStatedValues : Prop :=
  let s := State.reset
  s.status = .idle ∧ s.err = ErrRegs.zero ∧ s.argWidth = 0 ∧ s.argHeight = 0 ∧ s.argMaxIdat = 0 ∧
  s.inLen = 0 ∧ s.kindLen = 0 ∧ s.outLen = 0 ∧ s.nChunks = 0 ∧ s.res = Header.zero ∧ s.resValid = false ∧
  s.kindValid = false ∧ s.kindDiag = [] ∧ (∀ o, s.inp.read o = none ∧ s.out.read o = none ∧ s.kind.read o = none) ∧ s.chunks = [] ∧
  s.chunksLost = [] ∧ s.cmd = none

/-- The invariant of Safety.lean holds after reset. -/
def Obligations.ResetMeetsTheInvariant : Prop := State.reset.Inv

/-- R26, R30, R31, R34, R35, R42, R120, R201: the invariant of Safety.lean is kept by every step, from every state
that meets it. What the invariant says of the model's own items rests on log entries 1 and 5. -/
def Obligations.StepKeepsTheInvariant : Prop :=
  ∀ s s' : State, s.Inv → step s = .next s' → s'.Inv

/-- R250, R257, R322: the state a command starts in meets the invariant. The host never sees that state; it is the
model's choice (log entry 1). -/
def Obligations.CommandStartMeetsTheInvariant : Prop :=
  ∀ (c : Command) (s b : State), s.Inv → startCommand c s = .next b → b.Inv

/-- R28, R29, R33, R36, R40, R68, R70, R106: what each host write does, and when it is refused. While the block is
owned every write is refused. Otherwise a write of an argument register sets that register alone, a defined
command code is written to `CMD` and a reserved one is refused, every other register is read-only, and a write
of a byte of `IN` or an entry of `KIND` below the capacity stores it there, and where `REG_MAP` has other spaces
share that storage in them, where a Chunk is then lost, and nowhere else (an entry of `KIND` so written is no
diagnostic of an earlier command any more, R305); and every write keeps the invariant. That a code waits in
`CMD`, that a value wider than its register is refused, that a length beyond its capacity is taken, the fault
beyond a capacity, that diagnostics are marked entry by entry, and the form of shared storage are the model's
choices (log entries 8, 10, 15, 22, 23, 25). -/
def Obligations.HostWritesSetTheirTargetAndKeepTheInvariant : Prop :=
  ∀ s : State,
    let g := s.regMap.storage
    (owned s = true →
      (∀ (r : Reg) (v : Nat), hostWrite r v s = .refused .busy) ∧
      (∀ (o : Nat) (v : Byte), hostWriteIn o v s = .refused .busy ∧ hostWriteKind o v s = .refused .busy)) ∧
    (owned s = false →
      (∀ v : Nat, v < 2 ^ 32 →
        hostWrite .argWidth v s = .next { s with argWidth := BitVec.ofNat 32 v } ∧
        hostWrite .argHeight v s = .next { s with argHeight := BitVec.ofNat 32 v } ∧
        hostWrite .argMaxIdat v s = .next { s with argMaxIdat := BitVec.ofNat 32 v }) ∧
      (∀ v : Nat, 2 ^ 32 ≤ v → ∀ r ∈ [Reg.argWidth, .argHeight, .argMaxIdat], hostWrite r v s = .refused .tooWide) ∧
      (∀ v : Nat, hostWrite .inLen v s = .next { s with inLen := v } ∧
        hostWrite .kindLen v s = .next { s with kindLen := v }) ∧
      (∀ v : Nat, 1 ≤ v → v ≤ 6 → hostWrite .cmd v s = .next { s with cmd := some (BitVec.ofNat 8 v) }) ∧
      (∀ v : Nat, v = 0 ∨ 7 ≤ v → v < 2 ^ 8 →
        hostWrite .cmd v s = .refused (.reservedCommand (BitVec.ofNat 8 v))) ∧
      (∀ (r : Reg) (v : Nat), r ∉ [Reg.cmd, .argWidth, .argHeight, .argMaxIdat, .inLen, .kindLen] →
        hostWrite r v s = .refused .readOnly) ∧
      (∀ (o : Nat) (v : Byte), (∀ cap, s.caps.capIn = some cap → o < cap) →
        ∃ (m k u : Memory) (d l : List Nat),
          hostWriteIn o v s = .next { s with inp := m, kind := k, kindDiag := d, out := u, chunksLost := l } ∧
          (∀ a, m.read a = if a = o then some v else s.inp.read a) ∧
          (∀ a, k.read a = if sharedOffset g.inCell g.kindCell o = some a ∧ insideCap s.caps.capKind a = true then some v
            else s.kind.read a) ∧
          (∀ a, a ∈ d ↔ a ∈ s.kindDiag ∧
            ¬(sharedOffset g.inCell g.kindCell o = some a ∧ insideCap s.caps.capKind a = true)) ∧
          (∀ a, u.read a = if sharedOffset g.inCell g.outCell o = some a ∧ a < s.outLen then some v
            else s.out.read a) ∧
          (∀ a, a ∈ l ↔ a ∈ s.chunksLost ∨ sharedOffset g.inCell g.chunkCell o = some a ∧ a < s.nChunks)) ∧
      (∀ (i : Nat) (v : Byte), (∀ cap, s.caps.capKind = some cap → i < cap) →
        ∃ (m k u : Memory) (d l : List Nat),
          hostWriteKind i v s = .next { s with inp := m, kind := k, kindDiag := d, out := u, chunksLost := l } ∧
          (∀ a, k.read a = if a = i then some v else s.kind.read a) ∧
          (∀ a, a ∈ d ↔ a ∈ s.kindDiag ∧ a ≠ i) ∧
          (∀ a, m.read a = if sharedOffset g.kindCell g.inCell i = some a ∧ insideCap s.caps.capIn a = true then some v
            else s.inp.read a) ∧
          (∀ a, u.read a = if sharedOffset g.kindCell g.outCell i = some a ∧ a < s.outLen then some v
            else s.out.read a) ∧
          (∀ a, a ∈ l ↔ a ∈ s.chunksLost ∨ sharedOffset g.kindCell g.chunkCell i = some a ∧ a < s.nChunks)) ∧
      (∀ (o cap : Nat) (v : Byte), cap ≤ o →
        (s.caps.capIn = some cap → hostWriteIn o v s = .fault .noSuchOffset) ∧
        (s.caps.capKind = some cap → hostWriteKind o v s = .fault .noSuchOffset))) ∧
    ∀ s' : State, s.Inv →
      (∀ (r : Reg) (v : Nat), hostWrite r v s = .next s' → s'.Inv) ∧
      (∀ (o : Nat) (v : Byte), hostWriteIn o v s = .next s' → s'.Inv) ∧
      (∀ (o : Nat) (v : Byte), hostWriteKind o v s = .next s' → s'.Inv) ∧
      (∀ a v : Nat, hostWriteAt a v s = .next s' → s'.Inv)

/-- R28, R31, R35, R36, R60, R68, R70, R324: what every host read answers. `STATE` reads its code in every state, 1
while the block is owned, and nothing else is read then. Otherwise `CMD` cannot be read; the seven `RES_*` read in
DONE where the command produced a header, `OUT_LEN` and `NCHUNKS` in DONE, `ERR_CLASS` and `ERR_SUB` always, the six
other `ERR_*` in ERROR, the arguments but in ERROR; `OUT`, `KIND` and `CHUNKS` read in DONE, below their lengths,
what the command produced there; a read that is none of these has no value. A read at a bus address is the read of
the place of the block that `REG_MAP` has there, of any of the registers and four buffers. That a waiting command
counts as running, and what is read of arguments, of `ERR_CLASS` and `ERR_SUB` outside ERROR, and of `IN` and the
host's own `KIND`, are the model's choices (log entries 8, 9, 10, 21, 24 and 25). -/
def Obligations.HostReadsFollowTheAccessRights : Prop :=
  ∀ s : State,
    hostRead .state s = .next (if owned s then 1 else
      match s.status with
      | .idle => 0
      | .busy => 1
      | .done => 2
      | .error => 3) ∧
    (owned s = true →
      (∀ r : Reg, r ≠ .state → hostRead r s = .refused .busy) ∧
      ∀ o : Nat, hostReadIn o s = .refused .busy ∧ hostReadOut o s = .refused .busy ∧
        hostReadKind o s = .refused .busy ∧ hostReadChunk o s = .refused .busy) ∧
    (owned s = false →
      hostRead .cmd s = .refused .writeOnly ∧
      (∀ p ∈ [(Reg.resWidth, s.res.width.toNat), (.resHeight, s.res.height.toNat),
          (.resBitDepth, s.res.bitDepth.toNat), (.resColorType, s.res.colorType.toNat),
          (.resCompression, s.res.compression.toNat), (.resFilter, s.res.filter.toNat),
          (.resInterlace, s.res.interlace.toNat)],
        hostRead p.1 s = if s.status = .done ∧ s.resValid = true then .next p.2 else .fault .noValue) ∧
      (∀ p ∈ [(Reg.outLen, s.outLen), (.nChunks, s.nChunks)],
        hostRead p.1 s = if s.status = .done then .next p.2 else .fault .noValue) ∧
      (∀ p ∈ [(Reg.errField, s.err.field.toNat), (.errTag, s.err.tag.toNat), (.errLen, s.err.len.toNat),
          (.errExpected, s.err.expected.toNat), (.errActual, s.err.actual.toNat), (.errPos, s.err.pos)],
        hostRead p.1 s = if s.status = .error then .next p.2 else .fault .noValue) ∧
      hostRead .errClass s = .next s.err.cls.toNat ∧ hostRead .errSub s = .next s.err.sub.toNat ∧
      (∀ p ∈ [(Reg.argWidth, s.argWidth.toNat), (.argHeight, s.argHeight.toNat), (.argMaxIdat, s.argMaxIdat.toNat),
          (.inLen, s.inLen), (.kindLen, s.kindLen)],
        hostRead p.1 s = if s.status = .error then .refused .inError else .next p.2) ∧
      (∀ o : Nat,
        (s.status = .error → hostReadIn o s = .refused .inError) ∧
        (s.status ≠ .error → s.inLen ≤ o ∨ s.inp.read o = none → hostReadIn o s = .fault .noValue) ∧
        (∀ b, s.status ≠ .error → o < s.inLen → s.inp.read o = some b → hostReadIn o s = .next b) ∧
        (s.status ≠ .done ∨ s.outLen ≤ o ∨ s.out.read o = none → hostReadOut o s = .fault .noValue) ∧
        (∀ b, s.status = .done → o < s.outLen → s.out.read o = some b → hostReadOut o s = .next b) ∧
        (s.status ≠ .done ∨ s.kindValid = false ∨ s.kindLen ≤ o ∨ s.kind.read o = none →
          hostReadKind o s = .fault .noValue) ∧
        (∀ b, s.status = .done → s.kindValid = true → o < s.kindLen → s.kind.read o = some b →
          hostReadKind o s = .next b) ∧
        (s.status ≠ .done ∨ s.nChunks ≤ o ∨ o ∈ s.chunksLost ∨ s.chunks[o]? = none → hostReadChunk o s = .fault .noValue) ∧
        (∀ c, s.status = .done → o < s.nChunks → o ∉ s.chunksLost → s.chunks[o]? = some c →
          hostReadChunk o s = .next c))) ∧
    ∀ a n : Nat,
      (busPlace s.regMap.regions a = none → hostReadAt a s = .refused .unmapped) ∧
      (∀ r : Reg, busPlace s.regMap.regions a = some (.regs, regIndex r) →
        hostReadAt a s = answer BusValue.number (hostRead r s)) ∧
      (busPlace s.regMap.regions a = some (.inBytes, n) → hostReadAt a s = answer byteValue (hostReadIn n s)) ∧
      (busPlace s.regMap.regions a = some (.outBytes, n) → hostReadAt a s = answer byteValue (hostReadOut n s)) ∧
      (busPlace s.regMap.regions a = some (.kindEntries, n) → hostReadAt a s = answer byteValue (hostReadKind n s)) ∧
      (busPlace s.regMap.regions a = some (.chunkEntries, n) →
        hostReadAt a s = answer BusValue.chunk (hostReadChunk n s))

/-- R33, R67, R69, R70: a buffer read after a write of one byte gives the byte written at its offset and what stood
there before everywhere else; the write keeps the canonical form, and equal buffers are equal data; the operand of a
command has `IN_LEN` bytes, each the one written at its offset where one was. Where `REG_MAP` has two spaces share
storage, what a command writes in one is what stands in the other behind the command's operands, and the operands
stay. The form of a buffer, and that the operand's byte is a free value where none was written, are the model's
choices (log entry 6), and so is the form of shared storage and what is lost in it (log entry 25). -/
def Obligations.BufferReadsAfterAWrite : Prop :=
  (∀ (m : Memory) (o a : Nat) (v : Byte),
    m.wf = true → (m.write o v).wf = true ∧ (m.write o v).read a = if a = o then some v else m.read a) ∧
  (∀ m n : Memory, m.wf = true → n.wf = true → (∀ o, m.read o = n.read o) → m = n) ∧
  (∀ s : State, s.input.length = s.inLen ∧
    ∀ (o : Nat) (v : Byte), o < s.inLen → s.inp.read o = some v → s.input[o]? = some v) ∧
  (∀ (a b : Option Nat) (o p : Nat),
    sharedOffset a b o = some p ↔ ∃ x y, a = some x ∧ b = some y ∧ x + o = y + p) ∧
  (∀ p q : Option Nat × Nat,
    overlap p q = true ↔ ∃ j k, j < p.2 ∧ k < q.2 ∧ sharedOffset p.1 q.1 j = some k) ∧
  ∀ (w : Writes) (s : State) (kindLen : Nat), apart s.regMap.storage w s.inLen kindLen = true →
    let t := spill w s
    let g := s.regMap.storage
    t = { s with inp := t.inp, kind := t.kind, kindDiag := t.kindDiag, powerUp := t.powerUp } ∧
    (∀ o, o < s.inLen → t.inp.read o = s.inp.read o) ∧
    (∀ o, insideCap s.caps.capIn o = true → ∀ j,
      (sharedOffset g.outCell g.inCell j = some o → j < w.out.length → t.inp.read o = w.out[j]?) ∧
      (sharedOffset g.kindCell g.inCell j = some o → j < w.kinds.length → t.inp.read o = w.kinds[j]?) ∧
      (sharedOffset g.chunkCell g.inCell j = some o ∧ j < w.chunks ∨ sharedOffset g.zCell g.inCell j = some o ∧ j < w.z ∨
        sharedOffset g.fCell g.inCell j = some o ∧ j < w.f → t.inp.read o = none)) ∧
    (∀ o, (∀ p ∈ [(g.outCell, w.out.length), (g.kindCell, w.kinds.length), (g.chunkCell, w.chunks), (g.zCell, w.z),
        (g.fCell, w.f)], ∀ j, j < p.2 → sharedOffset p.1 g.inCell j ≠ some o) → t.inp.read o = s.inp.read o) ∧
    (∀ i, i < kindLen → t.kind.read i = s.kind.read i) ∧
    (∀ i, t.kind.read i ≠ s.kind.read i → (s.kind.read i).isSome = true ∧
      ∃ j, j < w.out.length ∧ sharedOffset g.outCell g.kindCell j = some i ∧ t.kind.read i = w.out[j]?) ∧
    (∀ i j, (s.kind.read i).isSome = true → sharedOffset g.outCell g.kindCell j = some i → j < w.out.length →
      t.kind.read i = w.out[j]?) ∧
    (∀ i, i ∈ t.kindDiag ↔ i ∈ s.kindDiag ∧
      ∀ j, j < w.out.length → sharedOffset g.outCell g.kindCell j ≠ some i)

/-- R174 to R183: each of the ten byte operations is the kind code's, and completes in every state: it appends its
result to the row under construction (filter direction) or to `out` (reconstruct direction), advances `col`, and
changes nothing else but the window, which is discarded. The bytes are those of R174 to R183, the append that of
R201 and R221, the column that of R25. The row under construction (`rowBuf`) and that the operation completes in
every state are the model's choices (log entries 1 and 14). -/
def Obligations.ByteOperationResults : Prop :=
  (decode .encByte [0] = .ok (.encNone, []) ∧ decode .encByte [1] = .ok (.encSub, []) ∧
    decode .encByte [2] = .ok (.encUp, []) ∧ decode .encByte [3] = .ok (.encAvg, []) ∧
    decode .encByte [4] = .ok (.encPaeth, []) ∧ decode .decByte [0] = .ok (.decNone, []) ∧
    decode .decByte [1] = .ok (.decSub, []) ∧ decode .decByte [2] = .ok (.decUp, []) ∧
    decode .decByte [3] = .ok (.decAvg, []) ∧ decode .decByte [4] = .ok (.decPaeth, [])) ∧
  ∀ s : State, ∃ w : Window,
    let x := s.eng.w.x.toNat
    let a := s.eng.w.a.toNat
    let b := s.eng.w.b.toNat
    let p := (paeth s.eng.w.a s.eng.w.b s.eng.w.c).toNat
    let encTo := fun v : Nat => (.next (s.withEng { s.eng with
      rowBuf := s.eng.rowBuf ++ [BitVec.ofNat 8 (v % 256)], col := s.eng.col + 1, w := w }) : Outcome)
    let decTo := fun v : Nat => (.next (s.withEng { s.eng with
      out := s.eng.out ++ [BitVec.ofNat 8 (v % 256)], col := s.eng.col + 1, w := w }) : Outcome)
    exec .encNone s = encTo x ∧ exec .encSub s = encTo (x + 256 - a) ∧ exec .encUp s = encTo (x + 256 - b) ∧
    exec .encAvg s = encTo (x + 256 - (a + b) / 2) ∧ exec .encPaeth s = encTo (x + 256 - p) ∧
    exec .decNone s = decTo x ∧ exec .decSub s = decTo (x + a) ∧ exec .decUp s = decTo (x + b) ∧
    exec .decAvg s = decTo (x + (a + b) / 2) ∧ exec .decPaeth s = decTo (x + p)

/-- R173: the predictor of each kind; every ENC is `mod256(x - pred)` and every DEC is `mod256(x + pred)`. -/
def Obligations.OperationsReduceThePrediction : Prop :=
  ∀ (f : FilterKind) (w : Window),
    ((encOp f w).toNat : Int) = ((w.x.toNat : Int) - (pred f w.a w.b w.c).toNat) % 256 ∧
    ((decOp f w).toNat : Int) = ((w.x.toNat : Int) + (pred f w.a w.b w.c).toNat) % 256 ∧
    pred .none w.a w.b w.c = 0 ∧ pred .sub w.a w.b w.c = w.a ∧ pred .up w.a w.b w.c = w.b ∧
    (pred .average w.a w.b w.c).toNat = (w.a.toNat + w.b.toNat) / 2 ∧ pred .paeth w.a w.b w.c = paeth w.a w.b w.c

/-- R172: with `p = a + b - c` and the distances `|p - a| = |b - c|`, `|p - b| = |a - c|`, `|p - c| = |a + b - 2c|`,
all exact, the predictor is `a` if `pa` is at most both others, else `b` if `pb ≤ pc`, else `c`. -/
def Obligations.PaethPicksTheNearestNeighbour : Prop :=
  ∀ a b c : Byte,
    let pa := ((b.toNat : Int) - c.toNat).natAbs
    let pb := ((a.toNat : Int) - c.toNat).natAbs
    let pc := ((a.toNat : Int) + b.toNat - 2 * c.toNat).natAbs
    let p : Int := (a.toNat : Int) + b.toNat - c.toNat
    (-255 ≤ p ∧ p ≤ 510 ∧ (p - a.toNat).natAbs = pa ∧ (p - b.toNat).natAbs = pb ∧ (p - c.toNat).natAbs = pc ∧
      pa ≤ 255 ∧ pb ≤ 255 ∧ pc ≤ 510) ∧
    (pa ≤ pb ∧ pa ≤ pc → paeth a b c = a) ∧
    (¬(pa ≤ pb ∧ pa ≤ pc) → pb ≤ pc → paeth a b c = b) ∧
    (¬(pa ≤ pb ∧ pa ≤ pc) → ¬pb ≤ pc → paeth a b c = c)

/-- R178, R206, R226: in row 0 the Paeth operations equal the Sub operations, and at columns 0..3 of a later row the
Up operations. -/
def Obligations.PaethAtTheImageEdges : Prop :=
  ∀ x a b : Byte,
    opEncPaeth ⟨x, a, 0, 0⟩ = opEncSub ⟨x, a, 0, 0⟩ ∧ opDecPaeth ⟨x, a, 0, 0⟩ = opDecSub ⟨x, a, 0, 0⟩ ∧
    opEncPaeth ⟨x, 0, b, 0⟩ = opEncUp ⟨x, 0, b, 0⟩ ∧ opDecPaeth ⟨x, 0, b, 0⟩ = opDecUp ⟨x, 0, b, 0⟩

/-- R185: on the same neighbours each DEC inverts its ENC and each ENC its DEC. -/
def Obligations.OperationsInvertEachOther : Prop :=
  ∀ (f : FilterKind) (x a b c : Byte),
    decOp f ⟨encOp f ⟨x, a, b, c⟩, a, b, c⟩ = x ∧ encOp f ⟨decOp f ⟨x, a, b, c⟩, a, b, c⟩ = x

/-- R171, R22: the sampling function: 0 for a missing neighbour, else the byte 4 positions left, above, and
above-left. -/
def Obligations.SamplingAtAndInsideTheEdges : Prop :=
  ∀ (x : Byte) (B : Bytes) (stride r i : Nat),
    let w := windowAt x B stride r i
    w.x = x ∧
    (i < 4 → w.a = 0 ∧ w.c = 0) ∧ (r = 0 → w.b = 0 ∧ w.c = 0) ∧
    (4 ≤ i → w.a = B.getD (r * stride + i - 4) 0) ∧
    (1 ≤ r → w.b = B.getD ((r - 1) * stride + i) 0) ∧
    (1 ≤ r → 4 ≤ i → w.c = B.getD ((r - 1) * stride + i - 4) 0)

/-- R171, R325: the sampling function reads only bytes at offsets below `r*stride + i`: it answers the same on any
two buffers that agree there. -/
def Obligations.SamplingReadsOnlyEarlierBytes : Prop :=
  ∀ (x : Byte) (B C : Bytes) (stride r i : Nat), i < stride →
    (∀ o, o < r * stride + i → B.getD o 0 = C.getD o 0) → windowAt x B stride r i = windowAt x C stride r i

/-- R201 to R206: where the record's row is there whole, each of the five R records completes: the kind is recorded,
exactly `stride` bytes are appended to `out`, each the filtered byte plus the prediction from bytes of `out` already
written, `row` advances, and nothing else changes. That a record runs so in every state, whatever `STATE`, is the
model's choice (log entry 14). -/
def Obligations.ReconRecordResult : Prop :=
  ∀ (s : State) (f : FilterKind),
    let stride := 4 * s.eng.width.toNat
    let r := s.eng.row
    r * (1 + stride) + 1 + stride ≤ s.eng.f.length → s.eng.out.length = r * stride →
    ∃ out' : Bytes,
      exec (reconInstr f) s = .next (s.withEng { s.eng with
        kinds := s.eng.kinds ++ [f], out := s.eng.out ++ out', row := r + 1, col := 0 }) ∧
      out'.length = stride ∧
      ∀ i, i < stride →
        let o := s.eng.out ++ out'
        let a : Byte := if 4 ≤ i then o.getD (r * stride + i - 4) 0 else 0
        let b : Byte := if 1 ≤ r then o.getD ((r - 1) * stride + i) 0 else 0
        let c : Byte := if 1 ≤ r ∧ 4 ≤ i then o.getD ((r - 1) * stride + i - 4) 0 else 0
        ((out'.getD i 0).toNat : Int) =
          (((s.eng.f.getD (r * (1 + stride) + 1 + i) 0).toNat : Int) + (pred f a b c).toNat) % 256

/-- R202 to R206, R208: where the row is not there whole, each of the five R records raises FilteredStreamShort at
its row. That it does so in every state, whatever `STATE`, is the model's choice (log entry 14). -/
def Obligations.ReconRecordShortStreamRaises : Prop :=
  ∀ (s : State) (f : FilterKind), s.eng.f.length < s.eng.row * (1 + 4 * s.eng.width.toNat) + 1 + 4 * s.eng.width.toNat →
    exec (reconInstr f) s = .next (raise (.filteredStreamShort s.eng.row) s)

/-- R201, R207, R208, R103, R285, R295: reconstruction succeeds exactly on a stream that is long enough and whose type
bytes are all legal; it then gives `height*stride` bytes and the `height` kinds of those type bytes. Otherwise the error
is that of the first row that is not both legal and whole: BadFilterType with its type byte where that byte is there and
above 4, in a row cut short too, and FilteredStreamShort where it is not. -/
def Obligations.ReconstructSucceedsExactly : Prop :=
  ∀ (F : Bytes) (height stride : Nat),
    ((∃ p, reconstruct F height stride = .ok p) ↔
      height * (1 + stride) ≤ F.length ∧ ∀ r, r < height → (F.getD (r * (1 + stride)) 0).toNat ≤ 4) ∧
    (∀ (out : Bytes) (kinds : List FilterKind), reconstruct F height stride = .ok (out, kinds) →
      out.length = height * stride ∧ kinds.length = height ∧
      ∀ r, r < height → (kinds[r]?).map FilterKind.code = some (F.getD (r * (1 + stride)) 0)) ∧
    (∀ e, reconstruct F height stride = .error e →
      ∃ r, r < height ∧
        (∀ q, q < r → (q + 1) * (1 + stride) ≤ F.length ∧ (F.getD (q * (1 + stride)) 0).toNat ≤ 4) ∧
        (r * (1 + stride) < F.length ∧ 4 < (F.getD (r * (1 + stride)) 0).toNat ∧
            e = .badFilterType r (F.getD (r * (1 + stride)) 0) ∨
          ¬(r * (1 + stride) < F.length ∧ 4 < (F.getD (r * (1 + stride)) 0).toNat) ∧
            F.length < (r + 1) * (1 + stride) ∧ e = .filteredStreamShort r))

/-- R209: bytes of the filtered stream at offsets `height*(1+stride)` and beyond are never read: where two such
streams agree before them, RECON ends alike, whether the host wrote any byte behind or none; the longer `IN`
must not come to lie in storage the command writes (R329; `powerUp` and shared storage: log entries 6 and 25). -/
def Obligations.ReconstructIgnoresSurplusBytes : Prop :=
  (∀ (F surplus : Bytes) (height stride : Nat), height * (1 + stride) ≤ F.length →
    reconstruct (F ++ surplus) height stride = reconstruct F height stride) ∧
  ∀ (s t : State) (m : Memory) (n : Nat), fitsCap s.caps.capIn n = true →
    s.argHeight.toNat * (1 + 4 * s.argWidth.toNat) ≤ s.inLen → s.argHeight.toNat * (1 + 4 * s.argWidth.toNat) ≤ n →
    (∀ o, o < s.argHeight.toNat * (1 + 4 * s.argWidth.toNat) → m.read o = s.inp.read o) →
    (∀ w : Writes, apart s.regMap.storage w s.inLen 0 = true → apart s.regMap.storage w n 0 = true) →
    exec .cmdRecon s = .next t →
    ∃ (m' : Memory) (p : Nat), (∀ o, o < n → m'.read o = m.read o) ∧
      exec .cmdRecon { s with inp := m, inLen := n } = .next { t with inp := m', inLen := n, powerUp := p }

/-- R211: for every raw buffer and every per-row kind sequence, reconstruction of the filtered stream gives back the
buffer and the sequence. -/
def Obligations.ReconstructInvertsFilter : Prop :=
  ∀ (raw : Bytes) (ks : List FilterKind) (stride : Nat), raw.length = ks.length * stride →
    reconstruct (filterStream raw ks stride) ks.length stride = .ok (raw, ks)

/-- R221 to R226: where the raw row is there, each of the five F records completes: the stream gains the type byte
and `stride` bytes, each the raw byte minus the prediction from raw neighbours; `row` advances; nothing else of the
spec's state changes. That the record sets which kind of item is due next (`phase`: the selection of the next row in
ENCODE, the next record otherwise) is the model's own (log entry 1), and so is that it runs in every state, whatever
`STATE` (log entry 14). -/
def Obligations.FilterRecordResult : Prop :=
  ∀ (s : State) (f : FilterKind),
    let stride := 4 * s.eng.width.toNat
    let r := s.eng.row
    (r + 1) * stride ≤ s.inLen →
    ∃ row : Bytes,
      exec (filterInstr f) s = .next (s.withEng { s.eng with
        f := s.eng.f ++ (f.code :: row), row := r + 1, col := 0
        phase := if s.eng.cmd = some .encode then .choose else .filt }) ∧
      row.length = stride ∧
      ∀ i, i < stride →
        let a : Byte := if 4 ≤ i then s.input.getD (r * stride + i - 4) 0 else 0
        let b : Byte := if 1 ≤ r then s.input.getD ((r - 1) * stride + i) 0 else 0
        let c : Byte := if 1 ≤ r ∧ 4 ≤ i then s.input.getD ((r - 1) * stride + i - 4) 0 else 0
        ((row.getD i 0).toNat : Int) =
          (((s.input.getD (r * stride + i) 0).toNat : Int) - (pred f a b c).toNat) % 256

/-- R227, R64: the filtered stream has `height * (1 + stride)` bytes, and record `r` starts at `r * (1 + stride)`
with the type byte of row `r`'s kind. -/
def Obligations.FilteredStreamLayout : Prop :=
  ∀ (raw : Bytes) (ks : List FilterKind) (stride : Nat),
    (filterStream raw ks stride).length = ks.length * (1 + stride) ∧
    ∀ r f, ks[r]? = some f →
      ((filterStream raw ks stride).drop (r * (1 + stride))).take (1 + stride) = f.code :: filterRow raw stride r f

/-- R228: the score is the sum of `min(v, 256 - v)` over the bytes, at most `128` for each. -/
def Obligations.ScoreSumsSignedMagnitudes : Prop :=
  ∀ row : Bytes, score row = (row.map (fun v => min v.toNat (256 - v.toNat))).sum ∧ score row ≤ 128 * row.length

/-- R229, R230, R328: the kind chosen for a row has the lowest score, and every kind before it in the fixed order scores
strictly more; and `select` lists the kind so chosen for each of the `height` rows. -/
def Obligations.BestIsTheFirstMinimum : Prop :=
  (∀ (raw : Bytes) (stride r : Nat) (f : FilterKind),
    let best := selectRow raw stride r
    score (filterRow raw stride r best) ≤ score (filterRow raw stride r f) ∧
    (f.code.toNat < best.code.toNat → score (filterRow raw stride r best) < score (filterRow raw stride r f))) ∧
  (∀ (raw : Bytes) (width height : U32),
    (selectKinds raw width height).length = height.toNat ∧
    ∀ r, r < height.toNat → (selectKinds raw width height)[r]? = some (selectRow raw (4 * width.toNat) r))

/-- R229: row 0 never selects Up or Paeth. -/
def Obligations.FirstRowNeverSelectsUpOrPaeth : Prop :=
  ∀ (raw : Bytes) (stride : Nat), selectRow raw stride 0 ≠ .up ∧ selectRow raw stride 0 ≠ .paeth

/-- R229: the kind of row `r` depends on raw rows `r` and `r - 1` only. -/
def Obligations.SelectionIsLocalToTwoRows : Prop :=
  ∀ (raw raw' : Bytes) (stride r : Nat),
    (∀ o, (r - 1) * stride ≤ o → o < (r + 1) * stride → raw.getD o 0 = raw'.getD o 0) →
    selectRow raw stride r = selectRow raw' stride r

/-- R122: SIG passes exactly on the eight bytes of the signature: `pos` is 8 and the list is empty; otherwise it
raises BadSignature. What is due next (`phase`) and that the item runs in every state are the model's choices (log
entries 1 and 14). -/
def Obligations.SignatureItemResult : Prop :=
  ∀ s : State,
    (8 ≤ s.inLen ∧ s.input.take 8 = [0x89, 0x50, 0x4E, 0x47, 0x0D, 0x0A, 0x1A, 0x0A] →
      exec .sig s = .next (s.withEng { s.eng with pos := 8, list := [], phase := .chunks })) ∧
    (¬(8 ≤ s.inLen ∧ s.input.take 8 = [0x89, 0x50, 0x4E, 0x47, 0x0D, 0x0A, 0x1A, 0x0A]) →
      exec .sig s = .next (raise .badSignature s))

/-- R41, R123, R126 to R129: where the record is there whole and its crc field is the crc32 of tag and payload, each
chunk opcode appends the chunk, advances `pos` by `12 + L`, and goes on with the next record, or ends the record
loop for IEND; nothing else changes but the CRC accumulator, which holds the same after every chunk, so that nothing
of the chunk survives in it. What is due next (`phase`), that a chunk is checked in one step, and that it runs in
every state are the model's choices (log entries 1, 14 and 16). -/
def Obligations.ChunkRecordResult : Prop :=
  ∃ acc : U32, ∀ (s : State) (payload : Bytes) (len : U32) (tag : Tag),
    s.eng.pos + 12 + len.toNat ≤ s.inLen →
    payload = (s.input.drop (s.eng.pos + 8)).take len.toNat →
    u32At s.input (s.eng.pos + 8 + len.toNat) = crc32 ([tag.b0, tag.b1, tag.b2, tag.b3] ++ payload) →
    let after := fun next : Phase => (.next (s.withEng { s.eng with
      list := s.eng.list ++ [⟨len.toNat, tag, payload, u32At s.input (s.eng.pos + 8 + len.toNat)⟩]
      pos := s.eng.pos + 12 + len.toNat, crcAcc := acc, phase := next }) : Outcome)
    (tag = ⟨0x49, 0x48, 0x44, 0x52⟩ → exec (.cIhdr len) s = after .chunks) ∧
    (tag = ⟨0x49, 0x44, 0x41, 0x54⟩ → exec (.cIdat len) s = after .chunks) ∧
    (tag = ⟨0x49, 0x45, 0x4E, 0x44⟩ → exec (.cIend len) s = after .merge) ∧
    exec (.cOther len tag) s = after .chunks

/-- R123, R124, R283, R284, R290: the errors of a chunk record, in their order: no byte left, fewer bytes than the
record declares, a stored crc that differs from the computed one. That the record runs in every state, whatever
`STATE`, is the model's choice (log entry 14). -/
def Obligations.ChunkRecordErrors : Prop :=
  ∀ (s : State) (i : Instr) (len : U32) (tag : Tag), s.eng.pos ≤ s.inLen →
    i = .cIhdr len ∧ tag = tagIhdr ∨ i = .cIdat len ∧ tag = tagIdat ∨ i = .cIend len ∧ tag = tagIend ∨
      i = .cOther len tag →
    (s.eng.pos = s.inLen → exec i s = .next (raise (.missingIend s.eng.pos) s)) ∧
    (s.eng.pos < s.inLen → s.inLen < s.eng.pos + 12 + len.toNat →
      exec i s = .next (raise (.truncated s.eng.pos) s)) ∧
    (s.eng.pos + 12 + len.toNat ≤ s.inLen →
      ∀ stored computed : U32, stored = u32At s.input (s.eng.pos + 8 + len.toNat) →
        computed = crc32 ([tag.b0, tag.b1, tag.b2, tag.b3] ++ (s.input.drop (s.eng.pos + 8)).take len.toNat) →
        computed ≠ stored → exec i s = .next (raise (.checksum tag len stored computed) s))

/-- R135, R290: a record that frames stops framing when one bit of its payload is flipped: the record with the
flipped bit raises ChecksumError, its stored crc the old one. This is a property of the CRC-32 instance the model binds,
which the spec marks as general knowledge: the model's choice (log entry 11). -/
def Obligations.FlippedPayloadBitRaisesChecksum : Prop :=
  ∀ (s : State) (front payload behind : Bytes) (len stored : U32) (tag : Tag) (k : Nat) (v : Byte) (j : Nat),
    payload.length = len.toNat → s.eng.pos + 8 = front.length → j < 8 →
    payload[k]? = some v → stored = crc32 ([tag.b0, tag.b1, tag.b2, tag.b3] ++ payload) →
    s.input = (front ++ payload.set k (v ^^^ BitVec.ofNat 8 (2 ^ j)) ++ be32 stored ++ behind) →
    ∃ computed, computed ≠ stored ∧ exec (.cOther len tag) s = .next (raise (.checksum tag len stored computed) s) ∧
      (tag = tagIdat → exec (.cIdat len) s = .next (raise (.checksum tag len stored computed) s)) ∧
      (tag = tagIhdr → exec (.cIhdr len) s = .next (raise (.checksum tag len stored computed) s)) ∧
      (tag = tagIend → exec (.cIend len) s = .next (raise (.checksum tag len stored computed) s))

/-- R135: parsing what `serialize` wrote of chunks built by `mk_chunk`, the last and no other an IEND, gives the
merged list. -/
def Obligations.ParseInvertsSerialize : Prop :=
  ∀ (parts : List (Tag × Bytes)) (final : Bytes),
    (∀ p ∈ parts, p.1 ≠ tagIend ∧ p.2.length < 2 ^ 32) → final.length < 2 ^ 32 →
    let cs := parts.map (fun p => mkChunk p.1 p.2) ++ [mkChunk tagIend final]
    parse (serialize cs) = .ok (merge cs)

/-- R128, R130: bytes at and after the end of the first IEND are never read: where the bytes `J` of the datastream
up to there stand in `IN`, PARSE and DECODE end alike whatever stands behind, whether the host wrote any byte
there or none; the longer `IN` must not come to lie in storage the command writes (R329; `powerUp` and shared
storage: log entries 6 and 25). -/
def Obligations.ParseIgnoresBytesAfterIend : Prop :=
  (∀ (J behind : Bytes) (cs : List Chunk), parse J = .ok cs → parse (J ++ behind) = .ok cs) ∧
  ∀ (s t : State) (m : Memory) (n : Nat) (J : Bytes) (cs : List Chunk), parse J = .ok cs →
    J.length ≤ s.inLen → (∀ o, o < J.length → s.inp.read o = J[o]?) →
    J.length ≤ n → (∀ o, o < J.length → m.read o = J[o]?) → fitsCap s.caps.capIn n = true →
    (∀ w : Writes, apart s.regMap.storage w s.inLen 0 = true → apart s.regMap.storage w n 0 = true) →
    parse s.input = .ok cs ∧
    ∀ i ∈ [Instr.cmdParse, .cmdDecode], exec i s = .next t →
      ∃ (m' : Memory) (p : Nat), (∀ o, o < n → m'.read o = m.read o) ∧
        exec i { s with inp := m, inLen := n } = .next { t with inp := m', inLen := n, powerUp := p }

/-- R130, R120, R131: what `parse` lists ends with an IEND, holds no other, and every chunk of it meets the Chunk
invariant. -/
def Obligations.ParsedChunksMeetTheInvariant : Prop :=
  ∀ (IN : Bytes) (cs : List Chunk), parse IN = .ok cs →
    (∀ c ∈ cs, c.length = c.payload.length ∧ c.crc = crc32 ([c.tag.b0, c.tag.b1, c.tag.b2, c.tag.b3] ++ c.payload)) ∧
    ∃ (front : List Chunk) (last : Chunk), cs = front ++ [last] ∧ last.tag = tagIend ∧ ∀ c ∈ front, c.tag ≠ tagIend

/-- R131, R132: a maximal run of IDAT chunks becomes one chunk with the sum of the lengths, the payloads
concatenated and a crc over tag and payload; every other chunk stays, unchanged and in place; so no two IDAT chunks
stand side by side, and what the merge lists are Chunks again. -/
def Obligations.MergeFoldsIdatRuns : Prop :=
  ∀ cs : List Chunk, (∀ c ∈ cs, ChunkOk c) →
    (∀ run behind : List Chunk, cs = run ++ behind → run ≠ [] → (∀ d ∈ run, d.tag = tagIdat) →
      (∀ c, behind.head? = some c → c.tag ≠ tagIdat) →
      merge cs = ⟨(run.map (fun d => d.length)).sum, tagIdat, run.flatMap (fun d => d.payload),
        crc32 ([0x49, 0x44, 0x41, 0x54] ++ run.flatMap (fun d => d.payload))⟩ :: merge behind) ∧
    (∀ (c : Chunk) (behind : List Chunk), cs = c :: behind → c.tag ≠ tagIdat → merge cs = c :: merge behind) ∧
    (cs = [] → merge cs = []) ∧
    (∀ (front behind : List Chunk) (c d : Chunk), merge cs = front ++ c :: d :: behind →
      ¬(c.tag = tagIdat ∧ d.tag = tagIdat)) ∧
    (∀ c ∈ merge cs, ChunkOk c)

/-- R157: the two header codecs are inverse, on every header and on every 13-byte payload. -/
def Obligations.HeaderCodecsInvertEachOther : Prop :=
  (∀ H : Header, decodeHeader (encodeHeader H) = H ∧ (encodeHeader H).length = 13) ∧
  (∀ P : Bytes, P.length = 13 → encodeHeader (decodeHeader P) = P)

/-- R150, R153, R155: `validate` accepts exactly the valid headers; otherwise it raises UnsupportedHeaderError for a
violated field, with every field before it in the order of checks as required. -/
def Obligations.ValidateReportsTheFirstViolation : Prop :=
  ∀ H : Header,
    let good : List Bool := [H.compression == 0, H.filter == 0, H.colorType == 6, H.bitDepth == 8, H.interlace == 0,
      H.width != 0, H.height != 0]
    let found : List U32 := [H.compression.setWidth 32, H.filter.setWidth 32, H.colorType.setWidth 32,
      H.bitDepth.setWidth 32, H.interlace.setWidth 32, H.width, H.height]
    let wanted : List U32 := [0, 0, 6, 8, 0, 1, 1]
    (validate H = .ok () ↔ ∀ k, k < 7 → good[k]? = some true) ∧
    (∀ k : Nat, k < 7 → good[k]? = some false → (∀ j, j < k → good[j]? = some true) →
      ∃ expected actual, wanted[k]? = some expected ∧ found[k]? = some actual ∧
        validate H = .error (.unsupportedHeader (BitVec.ofNat 3 (k + 1)) expected actual))

/-- R234: the split gives `max(1, ceil(L / M))` IDAT chunks whose payloads concatenate to `Z`; every payload but the
last has exactly `M` bytes, the last at most `M`. -/
def Obligations.SplitIdatCutsGreedily : Prop :=
  ∀ (Z : Bytes) (M : Nat), 1 ≤ M →
    let cs := splitIdat Z M
    (1 ≤ cs.length ∧ Z.length ≤ cs.length * M ∧ (Z.length = 0 → cs.length = 1) ∧
      (0 < Z.length → (cs.length - 1) * M < Z.length)) ∧
    cs.flatMap (fun c => c.payload) = Z ∧
    (∀ c ∈ cs, c.tag = tagIdat ∧ ChunkOk c ∧ c.payload.length ≤ M) ∧
    (∀ (k : Nat) (c : Chunk), k + 1 < cs.length → cs[k]? = some c → c.payload.length = M) ∧
    (∀ c : Chunk, cs[cs.length - 1]? = some c → c.payload.length = Z.length - (cs.length - 1) * M)

/-- R235: the datastream of an encoded image has `8 + 25 + (12*n + len(Z)) + 12` bytes, `n` its IDAT chunks. -/
def Obligations.PackagedStreamLength : Prop :=
  ∀ (width height maxIdat : U32) (Z : Bytes), 1 ≤ maxIdat.toNat →
    (serialize (packageChunks width height maxIdat Z)).length =
      8 + 25 + (12 * (splitIdat Z maxIdat.toNat).length + Z.length) + 12

/-- R296: a `raise` sets ERROR and the error record, empties every result, drops the internal items, and leaves
`IN`, `IN_LEN`, `ARG_*` and the configuration untouched. That the dropped items have the values of `Engine.rest` is
the model's choice (log entry 5); `kindValid`, `kindDiag`, `powerUp` and `chunksLost` are the model's own (log
entries 9, 23, 6 and 25). -/
def Obligations.RaiseLeavesOnlyTheErrorRecord : Prop :=
  ∀ (e : Err) (s : State),
    let t := raise e s
    t.status = .error ∧ t.err = errRegs e ∧ t.outLen = 0 ∧ t.kindLen = 0 ∧ t.nChunks = 0 ∧ t.chunks = [] ∧
    t.chunksLost = [] ∧
    (∀ o, t.out.read o = none ∧ t.kind.read o = none) ∧ t.resValid = false ∧ t.kindValid = false ∧
    t.kindDiag = [] ∧
    t.inLen = s.inLen ∧ (∀ o, t.inp.read o = s.inp.read o) ∧
    t.argWidth = s.argWidth ∧ t.argHeight = s.argHeight ∧ t.argMaxIdat = s.argMaxIdat ∧
    t.cmd = s.cmd ∧ t.eng = Engine.rest ∧ t.caps = s.caps ∧ t.collab = s.collab ∧ t.regMap = s.regMap ∧
    t.powerUp = s.powerUp

/-- R281 to R292: the `ERR_*` registers of each cause: class, sub-kind, field, tag, length, expected, actual,
position. -/
def Obligations.ErrorRegistersOfEachCause : Prop :=
  ∀ (p r : Nat) (v : Byte) (t : Tag) (len a b : U32) (k : BitVec 3),
    errRegs .badSignature = ⟨1, 1, 0, 0, 0, 0, 0, 0⟩ ∧
    errRegs (.truncated p) = ⟨1, 2, 0, 0, 0, 0, 0, p⟩ ∧
    errRegs (.missingIend p) = ⟨1, 3, 0, 0, 0, 0, 0, p⟩ ∧
    errRegs (.badFilterType r v) = ⟨1, 4, 0, 0, 0, 0, BitVec.ofNat 32 v.toNat, r⟩ ∧
    errRegs .chunkOrder = ⟨1, 5, 0, 0, 0, 0, 0, 0⟩ ∧
    errRegs .badIhdrLength = ⟨1, 6, 0, 0, 0, 0, 0, 0⟩ ∧
    errRegs .inflateFailed = ⟨1, 7, 0, 0, 0, 0, 0, 0⟩ ∧
    errRegs (.filteredStreamShort r) = ⟨1, 8, 0, 0, 0, 0, 0, r⟩ ∧
    errRegs (.checksum t len a b) = ⟨2, 0, 0, u32be t.b0 t.b1 t.b2 t.b3, len, a, b, 0⟩ ∧
    errRegs (.unsupportedHeader k a b) = ⟨3, 0, k, 0, 0, a, b, 0⟩

/-- R293: ENCODE, FILTER and SELECT never end in ERROR; PARSE raises only BadSignature, Truncated, MissingIEND and
ChecksumError; RECON only BadFilterType and FilteredStreamShort. -/
def Obligations.WhichCommandRaisesWhat : Prop :=
  ∀ s t : State,
    (exec .cmdEncode s = .next t ∨ exec .cmdFilter s = .next t ∨ exec .cmdSelect s = .next t → t.status = .done) ∧
    (exec .cmdParse s = .next t → t.status ≠ .done →
      t.status = .error ∧ (t.err.cls = 1 ∧ (t.err.sub = 1 ∨ t.err.sub = 2 ∨ t.err.sub = 3) ∨ t.err.cls = 2)) ∧
    (exec .cmdRecon s = .next t → t.status ≠ .done →
      t.status = .error ∧ t.err.cls = 1 ∧ (t.err.sub = 4 ∨ t.err.sub = 8))

/-- R251: DECODE whole: every error in the fixed order, and where there is none the pixels, kinds, chunks and
header; bytes after IEND are ignored. `kindValid`, that the command produced entries of `KIND`, is the model's
own (log entry 9), and so is `kindDiag`, that its kinds are kept from FILTER entry by entry (log entry 23); that
an error is raised whatever the capacities is read from R257 by inference (log entry 13). What it writes lies
apart in storage (R329); what other spaces in that storage then hold, `spill`, and `chunksLost` are the model's
own (log entry 25). -/
def Obligations.DecodeCommandWhole : Prop :=
  decode .command [0x01] = .ok (.cmdDecode, []) ∧
  (∀ (J behind : Bytes) (cs : List Chunk), parse J = .ok cs → parse (J ++ behind) = .ok cs) ∧
  ∀ s : State, s.status ≠ .busy → fitsCap s.caps.capIn s.inLen = true →
    (∀ e, parse s.input = .error e → exec .cmdDecode s = .next (raise e s)) ∧
    (∀ cs, parse s.input = .ok cs → cs.map (fun c => c.tag) ≠ [tagIhdr, tagIdat, tagIend] →
      exec .cmdDecode s = .next (raise .chunkOrder s)) ∧
    (∀ (c0 c1 c2 : Chunk) (H : Header), parse s.input = .ok [c0, c1, c2] → c0.tag = tagIhdr → c1.tag = tagIdat →
      c2.tag = tagIend → H = decodeHeader c0.payload →
      (c0.length ≠ 13 → exec .cmdDecode s = .next (raise .badIhdrLength s)) ∧
      (c0.length = 13 →
        (∀ e, validate H = .error e → exec .cmdDecode s = .next (raise e s)) ∧
        (validate H = .ok () →
          (inflate s.collab c1.payload = none → exec .cmdDecode s = .next (raise .inflateFailed s)) ∧
          (∀ F, inflate s.collab c1.payload = some F →
            (∀ e, reconstruct F H.height.toNat (4 * H.width.toNat) = .error e →
              exec .cmdDecode s = .next (raise e s)) ∧
            (∀ out kinds, reconstruct F H.height.toNat (4 * H.width.toNat) = .ok (out, kinds) →
              fitsCap s.caps.capOut (H.height.toNat * (4 * H.width.toNat)) = true →
              fitsCap s.caps.capKind H.height.toNat = true → fitsCap s.caps.capChunks 3 = true →
              let w : Writes := ⟨out, kinds.map FilterKind.code, 3, c1.payload.length, F.length⟩
              apart s.regMap.storage w s.inLen 0 = true →
              ∃ e : Engine, exec .cmdDecode s = .next (spill w { s with
                status := .done
                err := ErrRegs.zero
                out := Memory.ofBytes 0 out
                outLen := H.height.toNat * (4 * H.width.toNat)
                kind := Memory.ofBytes 0 (kinds.map FilterKind.code)
                kindLen := H.height.toNat
                kindValid := true
                kindDiag := List.range H.height.toNat
                chunks := [c0, c1, c2]
                chunksLost := []
                nChunks := 3
                res := ⟨H.width, H.height, 8, 6, 0, 0, 0⟩
                resValid := true
                eng := e }))))))

/-- R252, R236, R257: under its preconditions ENCODE completes: the kinds of `select`, the datastream of the
deflated filtered stream, the chunk list and the header. `kindValid`, that the command produced entries of
`KIND`, is the model's own (log entry 9); that its kinds are none of the diagnostics in `kindDiag`, so that they
serve a FILTER after it, is the model's choice (log entry 23). What it writes lies apart in storage (R329); what
other spaces in that storage then hold, `spill`, and `chunksLost` are the model's own (log entry 25). -/
def Obligations.EncodeCommandResult : Prop :=
  decode .command [0x02] = .ok (.cmdEncode, []) ∧
  ∀ s : State, s.status ≠ .busy → fitsCap s.caps.capIn s.inLen = true →
    1 ≤ s.argWidth.toNat → 1 ≤ s.argHeight.toNat → s.inLen = s.argHeight.toNat * (4 * s.argWidth.toNat) →
    1 ≤ s.argMaxIdat.toNat →
    let kinds := selectKinds s.input s.argWidth s.argHeight
    let Z := deflate s.collab (filterStream s.input kinds (4 * s.argWidth.toNat))
    let cs := [mkChunk tagIhdr (encodeHeader ⟨s.argWidth, s.argHeight, 8, 6, 0, 0, 0⟩)] ++
      splitIdat Z s.argMaxIdat.toNat ++ [mkChunk tagIend []]
    fitsCap s.caps.capOut (serialize cs).length = true → fitsCap s.caps.capKind s.argHeight.toNat = true →
    fitsCap s.caps.capChunks cs.length = true →
    let w : Writes := ⟨serialize cs, kinds.map FilterKind.code, cs.length, Z.length,
      (filterStream s.input kinds (4 * s.argWidth.toNat)).length⟩
    apart s.regMap.storage w s.inLen 0 = true →
    ∃ e : Engine, exec .cmdEncode s = .next (spill w { s with
      status := .done
      err := ErrRegs.zero
      out := Memory.ofBytes 0 (serialize cs)
      outLen := (serialize cs).length
      kind := Memory.ofBytes 0 (kinds.map FilterKind.code)
      kindLen := s.argHeight.toNat
      kindValid := true
      kindDiag := []
      chunks := cs
      chunksLost := []
      nChunks := cs.length
      res := ⟨s.argWidth, s.argHeight, 8, 6, 0, 0, 0⟩
      resValid := true
      eng := e })

/-- R253: PARSE whole: the error of `parse`, or the merged list and no other result. `kindValid` and `kindDiag`,
which say that no entry of `KIND` stands, are the model's own (log entries 9 and 23); that an error is raised
whatever the capacities is read from R257 by inference (log entry 13). What it writes lies apart in storage
(R329); what other spaces in that storage then hold, `spill`, and `chunksLost` are the model's own (log entry
25). -/
def Obligations.ParseCommandWhole : Prop :=
  decode .command [0x03] = .ok (.cmdParse, []) ∧
  ∀ s : State, s.status ≠ .busy → fitsCap s.caps.capIn s.inLen = true →
    (∀ e, parse s.input = .error e → exec .cmdParse s = .next (raise e s)) ∧
    (∀ cs, parse s.input = .ok cs → fitsCap s.caps.capOut 0 = true → fitsCap s.caps.capKind 0 = true →
      fitsCap s.caps.capChunks cs.length = true →
      let w : Writes := ⟨[], [], cs.length, 0, 0⟩
      apart s.regMap.storage w s.inLen 0 = true →
      ∃ (e : Engine) (r : Header), exec .cmdParse s = .next (spill w { s with
        status := .done
        err := ErrRegs.zero
        out := []
        outLen := 0
        kind := []
        kindLen := 0
        kindValid := false
        kindDiag := []
        chunks := cs
        chunksLost := []
        nChunks := cs.length
        res := r
        resValid := false
        eng := e }))

/-- R254: RECON whole: the error of `reconstruct`, or the pixels and kinds; surplus bytes are ignored. `kindValid`,
that the command produced entries of `KIND`, is the model's own (log entry 9), and so is `kindDiag`, that its
kinds are kept from FILTER entry by entry (log entry 23); that an error is raised whatever the capacities is
read from R257 by inference (log entry 13). What it writes lies apart in storage (R329); what other spaces in
that storage then hold, `spill`, and `chunksLost` are the model's own (log entry 25). -/
def Obligations.ReconCommandWhole : Prop :=
  decode .command [0x04] = .ok (.cmdRecon, []) ∧
  (∀ (G surplus : Bytes) (height stride : Nat), height * (1 + stride) ≤ G.length →
    reconstruct (G ++ surplus) height stride = reconstruct G height stride) ∧
  ∀ s : State, s.status ≠ .busy → fitsCap s.caps.capIn s.inLen = true →
    1 ≤ s.argWidth.toNat → 1 ≤ s.argHeight.toNat →
    (∀ e, reconstruct s.input s.argHeight.toNat (4 * s.argWidth.toNat) = .error e →
      exec .cmdRecon s = .next (raise e s) ∧ ∃ r, e = .filteredStreamShort r ∨ ∃ t, e = .badFilterType r t) ∧
    (∀ out kinds, reconstruct s.input s.argHeight.toNat (4 * s.argWidth.toNat) = .ok (out, kinds) →
      fitsCap s.caps.capOut (s.argHeight.toNat * (4 * s.argWidth.toNat)) = true →
      fitsCap s.caps.capKind s.argHeight.toNat = true → fitsCap s.caps.capChunks 0 = true →
      let w : Writes := ⟨out, kinds.map FilterKind.code, 0, 0, 0⟩
      apart s.regMap.storage w s.inLen 0 = true →
      ∃ (e : Engine) (r : Header), exec .cmdRecon s = .next (spill w { s with
        status := .done
        err := ErrRegs.zero
        out := Memory.ofBytes 0 out
        outLen := s.argHeight.toNat * (4 * s.argWidth.toNat)
        kind := Memory.ofBytes 0 (kinds.map FilterKind.code)
        kindLen := s.argHeight.toNat
        kindValid := true
        kindDiag := List.range s.argHeight.toNat
        chunks := []
        chunksLost := []
        nChunks := 0
        res := r
        resValid := false
        eng := e }))

/-- R255, R305: under its preconditions FILTER completes with the filtered stream; `KIND` and `KIND_LEN` are left as
the host wrote them. Where an entry of `KIND` is still the type sequence of an earlier DECODE or RECON, FILTER
does not run on it, and no FILTER runs straight after such a command. That this stop is the fault of a value
that is not there, and that the kinds an ENCODE or SELECT left serve as well as the host's own, is the model's
choice (log entry 23). `kindValid`, that the command did not produce entries of `KIND`, is the model's own (log
entry 9). What it writes lies apart in storage (R329); what other spaces in that storage then hold, `spill`, and
`chunksLost` are the model's own (log entry 25). -/
def Obligations.FilterCommandResult : Prop :=
  decode .command [0x05] = .ok (.cmdFilter, []) ∧
  (∀ s t u : State, exec .cmdDecode s = .next t ∨ exec .cmdRecon s = .next t → exec .cmdFilter t ≠ .next u) ∧
  (∀ s : State, s.status ≠ .busy → fitsCap s.caps.capIn s.inLen = true →
    1 ≤ s.argWidth.toNat → 1 ≤ s.argHeight.toNat → s.inLen = s.argHeight.toNat * (4 * s.argWidth.toNat) →
    s.kindLen = s.argHeight.toNat → fitsCap s.caps.capKind s.kindLen = true → (∃ i ∈ s.kindDiag, i < s.kindLen) →
    exec .cmdFilter s = .fault .unwritten) ∧
  ∀ (s : State) (ks : List FilterKind), s.status ≠ .busy → fitsCap s.caps.capIn s.inLen = true →
    1 ≤ s.argWidth.toNat → 1 ≤ s.argHeight.toNat →
    s.inLen = s.argHeight.toNat * (4 * s.argWidth.toNat) → s.kindLen = s.argHeight.toNat → ks.length = s.kindLen →
    fitsCap s.caps.capKind s.kindLen = true → (∀ i ∈ s.kindDiag, s.kindLen ≤ i) →
    (∀ i f, ks[i]? = some f → s.kind.read i = some f.code) →
    fitsCap s.caps.capOut (s.argHeight.toNat * (1 + 4 * s.argWidth.toNat)) = true → fitsCap s.caps.capChunks 0 = true →
    let w : Writes := ⟨filterStream s.input ks (4 * s.argWidth.toNat), [], 0, 0, 0⟩
    apart s.regMap.storage w s.inLen s.kindLen = true →
    ∃ (e : Engine) (r : Header), exec .cmdFilter s = .next (spill w { s with
      status := .done
      err := ErrRegs.zero
      out := Memory.ofBytes 0 (filterStream s.input ks (4 * s.argWidth.toNat))
      outLen := s.argHeight.toNat * (1 + 4 * s.argWidth.toNat)
      kindValid := false
      chunks := []
      chunksLost := []
      nChunks := 0
      res := r
      resValid := false
      eng := e })

/-- R256: under its preconditions SELECT completes with the chosen kinds and no other result. `kindValid`, that the
command produced entries of `KIND`, is the model's own (log entry 9); that its kinds are none of the diagnostics
in `kindDiag`, so that they serve a FILTER after it, is the model's choice (log entry 23). What it writes lies
apart in storage (R329); what other spaces in that storage then hold, `spill`, and `chunksLost` are the model's
own (log entry 25). -/
def Obligations.SelectCommandResult : Prop :=
  decode .command [0x06] = .ok (.cmdSelect, []) ∧
  ∀ s : State, s.status ≠ .busy → fitsCap s.caps.capIn s.inLen = true →
    1 ≤ s.argWidth.toNat → 1 ≤ s.argHeight.toNat → s.inLen = s.argHeight.toNat * (4 * s.argWidth.toNat) →
    fitsCap s.caps.capOut 0 = true → fitsCap s.caps.capKind s.argHeight.toNat = true →
    fitsCap s.caps.capChunks 0 = true →
    let w : Writes := ⟨[], (selectKinds s.input s.argWidth s.argHeight).map FilterKind.code, 0, 0, 0⟩
    apart s.regMap.storage w s.inLen 0 = true →
    ∃ (e : Engine) (r : Header), exec .cmdSelect s = .next (spill w { s with
      status := .done
      err := ErrRegs.zero
      out := []
      outLen := 0
      kind := Memory.ofBytes 0 ((selectKinds s.input s.argWidth s.argHeight).map FilterKind.code)
      kindLen := s.argHeight.toNat
      kindValid := true
      kindDiag := []
      chunks := []
      chunksLost := []
      nChunks := 0
      res := r
      resValid := false
      eng := e })

/-- R257, R329: a command started while one runs, or with a precondition violated, is refused: on its arguments, on
the capacity of a buffer it reads, on its `KIND` entries, and on the capacity of a buffer it writes. The last is
said so: where the command with those capacities lifted ends in DONE with a result beyond one of them, the command
is refused, and none ends in DONE with a result beyond its capacity. And in the same way: a command refuses to write
storage that it reads or that another of its results lies in. When capacities are tested, and that this refusal
comes before the fault of an entry of `KIND` never written, are the model's reading and choice (log entries 13 and
17), and so is the refusal of storage that is not `IN` and `OUT` (log entry 25). -/
def Obligations.CommandsStartedWronglyAreRefused : Prop :=
  let aliases := fun (c : Command) (s t : State) =>
    let g := s.regMap.storage
    overlap (g.outCell, t.outLen) (g.inCell, s.inLen) = true ∨
    overlap (g.chunkCell, t.nChunks) (g.inCell, s.inLen) = true ∨
    c ≠ .filter ∧ overlap (g.kindCell, t.kindLen) (g.inCell, s.inLen) = true ∨
    overlap (g.outCell, t.outLen) (g.kindCell, t.kindLen) = true ∨
    overlap (g.outCell, t.outLen) (g.chunkCell, t.nChunks) = true ∨
    overlap (g.kindCell, t.kindLen) (g.chunkCell, t.nChunks) = true
  ∀ s : State,
    (s.status = .busy → ∀ c : Command, exec (commandInstr c) s = .refused .busy) ∧
    (s.status ≠ .busy →
      (∀ (c : Command) (cap : Nat), s.caps.capIn = some cap → cap < s.inLen →
        exec (commandInstr c) s = .refused .precondition) ∧
      (∀ cap : Nat, s.caps.capKind = some cap → cap < s.kindLen → exec .cmdFilter s = .refused .precondition) ∧
      (s.argWidth = 0 ∨ s.argHeight = 0 →
        exec .cmdRecon s = .refused .precondition ∧ exec .cmdEncode s = .refused .precondition ∧
        exec .cmdFilter s = .refused .precondition ∧ exec .cmdSelect s = .refused .precondition) ∧
      (s.inLen ≠ s.argHeight.toNat * (4 * s.argWidth.toNat) →
        exec .cmdEncode s = .refused .precondition ∧ exec .cmdFilter s = .refused .precondition ∧
        exec .cmdSelect s = .refused .precondition) ∧
      (s.argMaxIdat = 0 → exec .cmdEncode s = .refused .precondition) ∧
      (s.kindLen ≠ s.argHeight.toNat → exec .cmdFilter s = .refused .precondition) ∧
      (∀ (k : Nat) (t : Byte), (∀ i, i < s.kindLen → (s.kind.read i).isSome = true) →
        (∀ i ∈ s.kindDiag, s.kindLen ≤ i) →
        k < s.kindLen → s.kind.read k = some t → 4 < t.toNat → exec .cmdFilter s = .refused .precondition) ∧
      (∀ (c : Command) (t : State),
        exec (commandInstr c) { s with caps := ⟨s.caps.capIn, none, none, none⟩ } = .next t → t.status = .done →
        (c = .filter → fitsCap s.caps.capKind s.kindLen = true) →
        fitsCap s.caps.capOut t.outLen = false ∨ fitsCap s.caps.capChunks t.nChunks = false ∨
          c ≠ .filter ∧ fitsCap s.caps.capKind t.kindLen = false →
        exec (commandInstr c) s = .refused .capacity) ∧
      (∀ (c : Command) (t : State), exec (commandInstr c) s = .next t → t.status = .done →
        fitsCap s.caps.capOut t.outLen = true ∧ fitsCap s.caps.capChunks t.nChunks = true ∧
        (c ≠ .filter → fitsCap s.caps.capKind t.kindLen = true)) ∧
      (∀ (c : Command) (t : State),
        exec (commandInstr c) { s with regMap := ⟨s.regMap.regions, .own⟩ } = .next t → t.status = .done →
        aliases c s t → exec (commandInstr c) s = .refused .aliased) ∧
      (∀ (c : Command) (t : State), exec (commandInstr c) s = .next t → t.status = .done → ¬aliases c s t))

/-- R16, R43, R261: the result of a command depends on its arguments alone: two states whose arguments, bytes of
`IN` below `IN_LEN`, `KIND` entries (for FILTER), capacities, collaborator and `REG_MAP` agree end a command
with the same status, error record and results, whatever earlier commands left in them. `kindValid`, `kindDiag`,
`chunksLost` and what the dropped internal items hold (`eng`) are the model's own (log entries 5, 9, 23 and 25). -/
def Obligations.CommandsDependOnTheirArgumentsAlone : Prop :=
  ∀ (c : Command) (s t s' t' : State), s.status ≠ .busy → t.status ≠ .busy →
    s.argWidth = t.argWidth → s.argHeight = t.argHeight → s.argMaxIdat = t.argMaxIdat → s.input = t.input →
    (c = .filter → s.kindLen = t.kindLen ∧ ∀ o, s.kind.read o = t.kind.read o) →
    s.caps = t.caps → s.collab = t.collab → s.regMap = t.regMap →
    exec (commandInstr c) s = .next s' → exec (commandInstr c) t = .next t' →
    s'.status = t'.status ∧ s'.err = t'.err ∧ s'.outLen = t'.outLen ∧ (∀ o, s'.out.read o = t'.out.read o) ∧
    s'.kindLen = t'.kindLen ∧ (∀ o, s'.kind.read o = t'.kind.read o) ∧ s'.chunks = t'.chunks ∧
    s'.nChunks = t'.nChunks ∧ s'.res = t'.res ∧ s'.resValid = t'.resValid ∧ s'.kindValid = t'.kindValid ∧
    s'.chunksLost = t'.chunksLost ∧ (c ≠ .filter → s'.kindDiag = t'.kindDiag) ∧ s'.eng = t'.eng

/-- R237: with a collaborator that meets the law of R264, DECODE of what ENCODE wrote ends in DONE with the raw
pixels, the dimensions and the kinds of `select`. -/
def Obligations.DecodeInvertsEncodeCommand : Prop :=
  ∀ (s t u : State), (∀ b : Bytes, inflate s.collab (deflate s.collab b) = some b) →
    exec .cmdEncode s = .next t →
    u.status ≠ .busy → u.caps = ⟨none, none, none, none⟩ → u.regMap.storage = .own → u.collab = s.collab →
    u.inLen = t.outLen → (∀ o, o < u.inLen → u.inp.read o = t.out.read o) →
    ∃ v : State, exec .cmdDecode u = .next v ∧ v.status = .done ∧ v.out = Memory.ofBytes 0 s.input ∧
      v.outLen = s.inLen ∧ v.res = ⟨s.argWidth, s.argHeight, 8, 6, 0, 0, 0⟩ ∧ v.resValid = true ∧
      v.kind = t.kind ∧ v.kindLen = t.kindLen

/-- R4, R68, R250, R266: a command's one atomic transition is what the sequencer does record by record: from the
BUSY state a command starts in, stepping the machine arrives at exactly the state its meaning answers (or its
capacity refusal). The size of these steps is the model's choice (log entry 1). -/
def Obligations.SequencerRefinesTheCommands : Prop :=
  ∀ (c : Command) (s b : State), startCommand c s = .next b →
    ∃ n : Nat, core.run n b = exec (commandInstr c) s

/-- R201, R221, R325: a scanline record is its byte operations: from the opened record, one step for each column and
one to close it arrive at exactly the state the record's meaning answers, in either direction. The size of these
steps is the model's choice (log entry 1). -/
def Obligations.RecordsAreTheirByteOperations : Prop :=
  ∀ (s : State) (f : FilterKind), s.status = .busy → s.eng.op = none → s.eng.w = Window.zero →
    (s.eng.phase = .recon → s.eng.out.length = s.eng.row * (4 * s.eng.width.toNat) →
      s.eng.row * (1 + 4 * s.eng.width.toNat) + 1 + 4 * s.eng.width.toNat ≤ s.eng.f.length →
      core.run (4 * s.eng.width.toNat + 1) (openRecon f s) = exec (reconInstr f) s) ∧
    (s.eng.phase = .filt → s.eng.rowBuf = [] →
      (s.eng.row + 1) * (4 * s.eng.width.toNat) ≤ s.inLen →
      core.run (4 * s.eng.width.toNat + 1) (openFilter f s) = exec (filterInstr f) s)
end

