-- ==== Sys2Proof/Laws/Bytes.lean ====
section
/-! SUPPORT. Byte strings: reading single bytes, 32-bit fields, tags and slices out of concatenations (R12, R14, R15), and the kind codes (R98). -/

namespace Sys2Proof.Machine

/-- Bytes below the end of `out` are those of any continuation of it. -/
theorem byteAt_append_left {out more : Bytes} {o : Nat} (h : o < out.length) : byteAt (out ++ more) o = byteAt out o := by
  simp [byteAt, List.getD, List.getElem?_append_left h]

theorem byteAt_append_right {out more : Bytes} {o : Nat} (h : out.length ≤ o) :
    byteAt (out ++ more) o = byteAt more (o - out.length) := by
  simp [byteAt, List.getD, List.getElem?_append_right h]

theorem kindOfCode_code (f : FilterKind) : kindOfCode f.code = some f := by cases f <;> decide

theorem kindOfCode_some {t : Byte} {f : FilterKind} (h : kindOfCode t = some f) : t = f.code := by
  simp only [kindOfCode] at h
  repeat' split at h
  all_goals first | cases h; done | (cases h; assumption)

theorem code_le (f : FilterKind) : f.code.toNat ≤ 4 := by cases f <;> decide

theorem kindOfCode_none {t : Byte} (h : kindOfCode t = none) : 5 ≤ t.toNat := by
  by_contra hc
  have key : ∀ n : Nat, n < 5 → kindOfCode (BitVec.ofNat 8 n) ≠ none := by decide
  have := key t.toNat (by omega)
  rw [BitVec.ofNat_toNat] at this
  exact this (by simpa using h)

theorem kindOfCode_isSome (t : Byte) : (∃ f, kindOfCode t = some f) ↔ t.toNat ≤ 4 := by
  constructor
  · rintro ⟨f, h⟩; rw [kindOfCode_some h]; exact code_le f
  · intro h
    cases hk : kindOfCode t with
    | some f => exact ⟨f, rfl⟩
    | none => have := kindOfCode_none hk; omega

theorem byteAt_drop (B : Bytes) (o k : Nat) : byteAt (B.drop o) k = byteAt B (o + k) := by
  simp [byteAt, List.getD]

theorem u32be_be32 (v : U32) : u32be (BitVec.ofNat 8 (v.toNat / 2 ^ 24)) (BitVec.ofNat 8 (v.toNat / 2 ^ 16))
    (BitVec.ofNat 8 (v.toNat / 2 ^ 8)) (BitVec.ofNat 8 v.toNat) = v := by
  apply BitVec.eq_of_toNat_eq
  simp only [u32be, BitVec.toNat_ofNat]
  omega

theorem be32_u32be (a b c d : Byte) : be32 (u32be a b c d) = [a, b, c, d] := by
  simp only [be32, u32be, BitVec.toNat_ofNat]
  have := a.isLt; have := b.isLt; have := c.isLt; have := d.isLt
  refine List.cons_eq_cons.2 ⟨?_, List.cons_eq_cons.2 ⟨?_, List.cons_eq_cons.2 ⟨?_, List.cons_eq_cons.2 ⟨?_, rfl⟩⟩⟩⟩ <;>
  (apply BitVec.eq_of_toNat_eq; simp only [BitVec.toNat_ofNat]; omega)

theorem be32_length (v : U32) : (be32 v).length = 4 := rfl

theorem tagBytes_length (t : Tag) : (tagBytes t).length = 4 := rfl

theorem u32At_drop (B : Bytes) (o k : Nat) : u32At (B.drop o) k = u32At B (o + k) := by
  simp [u32At, byteAt_drop, Nat.add_assoc]

theorem tagAt_drop (B : Bytes) (o k : Nat) : tagAt (B.drop o) k = tagAt B (o + k) := by
  simp [tagAt, byteAt_drop, Nat.add_assoc]

theorem u32At_front (A : Bytes) (v : U32) (r : Bytes) : u32At (A ++ be32 v ++ r) A.length = v := by
  have := u32At_drop (A ++ be32 v ++ r) A.length 0
  rw [Nat.add_zero] at this
  rw [← this, List.append_assoc, List.drop_left]
  simpa [u32At, be32, byteAt] using u32be_be32 v

theorem tagAt_front (A : Bytes) (t : Tag) (r : Bytes) : tagAt (A ++ tagBytes t ++ r) A.length = t := by
  have := tagAt_drop (A ++ tagBytes t ++ r) A.length 0
  rw [Nat.add_zero] at this
  rw [← this, List.append_assoc, List.drop_left]
  simp [tagAt, tagBytes, byteAt]

theorem u32At_append {A B : Bytes} {o : Nat} (h : o + 4 ≤ A.length) : u32At (A ++ B) o = u32At A o := by
  have e : ∀ k, k < A.length → byteAt (A ++ B) k = byteAt A k := fun k hk => byteAt_append_left hk
  simp only [u32At]
  rw [e _ (by omega), e _ (by omega), e _ (by omega), e _ (by omega)]

theorem tagAt_append {A B : Bytes} {o : Nat} (h : o + 4 ≤ A.length) : tagAt (A ++ B) o = tagAt A o := by
  have e : ∀ k, k < A.length → byteAt (A ++ B) k = byteAt A k := fun k hk => byteAt_append_left hk
  simp only [tagAt]
  rw [e _ (by omega), e _ (by omega), e _ (by omega), e _ (by omega)]

theorem slice_length {B : Bytes} {o n : Nat} (h : o + n ≤ B.length) : (slice B o n).length = n := by
  simp [slice]; omega

theorem slice_append {A B : Bytes} {o n : Nat} (h : o + n ≤ A.length) : slice (A ++ B) o n = slice A o n := by
  rw [slice, slice, List.drop_append_of_le_length (by omega), List.take_append_of_le_length (by simp; omega)]

theorem slice8 (IN : Bytes) (p : Nat) : u32At (slice IN p 8) 0 = u32At IN p ∧ tagAt (slice IN p 8) 4 = tagAt IN (p + 4) := by
  have h : ∀ k, k < 8 → byteAt (slice IN p 8) k = byteAt IN (p + k) := by
    intro k hk; simp [byteAt, slice, List.getD, hk]
  simp only [u32At, tagAt, Nat.zero_add, Nat.reduceAdd]
  rw [h 0 (by omega), h 1 (by omega), h 2 (by omega), h 3 (by omega), h 4 (by omega), h 5 (by omega), h 6 (by omega), h 7 (by omega)]
  exact ⟨rfl, rfl⟩

end Sys2Proof.Machine
end

