-- ==== Sys2Proof/Laws/Chunk.lean ====
section
/-! SUPPORT. Framing, the record loop and the merge: what each answers (R123, R124, R130, R131). -/

namespace Sys2Proof.Machine

/-- R123: what framing a record answers where it is there whole: the verdict of the crc. -/
theorem frame_whole {IN : Bytes} {pos : Nat} {len : U32} {tag : Tag} (h : pos + 12 + len.toNat ≤ IN.length) :
    frame IN pos len tag =
      if chunkCrc tag (slice IN (pos + 8) len.toNat) = u32At IN (pos + 8 + len.toNat) then
        .ok ⟨len.toNat, tag, slice IN (pos + 8) len.toNat, u32At IN (pos + 8 + len.toNat)⟩
      else .error (.checksum tag len (u32At IN (pos + 8 + len.toNat)) (chunkCrc tag (slice IN (pos + 8) len.toNat))) := by
  have h12 : Config.chunkOverhead = 12 := rfl
  simp only [frame]
  rw [if_neg (by omega), if_neg (by omega), if_neg (by omega)]
  rfl

theorem frame_short {IN : Bytes} {pos : Nat} {len : U32} {tag : Tag} (h0 : pos < IN.length)
    (h : IN.length < pos + 12 + len.toNat) : frame IN pos len tag = .error (.truncated pos) := by
  have h12 : Config.chunkOverhead = 12 := rfl
  simp only [frame]
  rw [if_neg (by omega)]
  split
  · rfl
  · rw [if_pos (by omega)]

theorem frame_end {IN : Bytes} {pos : Nat} {len : U32} {tag : Tag} (h : IN.length ≤ pos) :
    frame IN pos len tag = .error (.missingIend pos) := by
  simp only [frame]
  rw [if_pos (by omega)]

theorem frame_ok {IN : Bytes} {pos : Nat} {len : U32} {tag : Tag} {ch : Chunk}
    (h : frame IN pos len tag = .ok ch) :
    pos + 12 + len.toNat ≤ IN.length ∧ ch = ⟨len.toNat, tag, slice IN (pos + 8) len.toNat, chunkCrc tag (slice IN (pos + 8) len.toNat)⟩ ∧
      chunkCrc tag (slice IN (pos + 8) len.toNat) = u32At IN (pos + 8 + len.toNat) := by
  by_cases h0 : IN.length ≤ pos
  · rw [frame_end h0] at h; cases h
  by_cases h1 : IN.length < pos + 12 + len.toNat
  · rw [frame_short (by omega) h1] at h; cases h
  rw [frame_whole (by omega)] at h
  split at h
  · rename_i hc
    cases h
    exact ⟨by omega, by rw [hc], hc⟩
  · cases h

/-- The causes a chunk record can raise. -/
theorem frame_error {IN : Bytes} {pos : Nat} {len : U32} {tag : Tag} {e : Err} (h : frame IN pos len tag = .error e) :
    e = .missingIend pos ∨ e = .truncated pos ∨ ∃ a b, e = .checksum tag len a b := by
  by_cases h0 : IN.length ≤ pos
  · rw [frame_end h0] at h; cases h; exact .inl rfl
  by_cases h1 : IN.length < pos + 12 + len.toNat
  · rw [frame_short (by omega) h1] at h; cases h; exact .inr (.inl rfl)
  rw [frame_whole (by omega)] at h
  split at h
  · cases h
  · cases h; exact .inr (.inr ⟨_, _, rfl⟩)

theorem frame_ok_chunkOk {IN : Bytes} {pos : Nat} {len : U32} {tag : Tag} {ch : Chunk}
    (h : frame IN pos len tag = .ok ch) : ChunkOk ch := by
  obtain ⟨h1, rfl, _⟩ := frame_ok h
  refine ⟨?_, rfl⟩
  exact (slice_length (by omega : pos + 8 + len.toNat ≤ IN.length)).symm

theorem recordHead_ok {IN : Bytes} {pos : Nat} {len : U32} {tag : Tag} (h : recordHead IN pos = .ok (len, tag)) :
    pos + 12 ≤ IN.length ∧ len = u32At IN pos ∧ tag = tagAt IN (pos + 4) := by
  have h12 : Config.chunkOverhead = 12 := rfl
  simp only [recordHead] at h
  split at h
  · cases h
  split at h
  · cases h
  · cases h; exact ⟨by omega, rfl, rfl⟩

theorem recordHead_of_fits {IN : Bytes} {pos : Nat} (h : pos + 12 ≤ IN.length) :
    recordHead IN pos = .ok (u32At IN pos, tagAt IN (pos + 4)) := by
  have h12 : Config.chunkOverhead = 12 := rfl
  simp only [recordHead]
  rw [if_neg (by omega), if_neg (by omega)]

theorem recordHead_error {IN : Bytes} {pos : Nat} {e : Err} (h : recordHead IN pos = .error e) :
    e = .missingIend pos ∨ e = .truncated pos := by
  simp only [recordHead] at h
  split at h
  · cases h; exact .inl rfl
  split at h
  · cases h; exact .inr rfl
  · cases h

/-- One record of the loop. -/
theorem parseLoop_succ_ok {IN : Bytes} {fuel pos : Nat} {list cs : List Chunk}
    (h : parseLoop IN (fuel + 1) pos list = .ok cs) : ∃ len tag ch, recordHead IN pos = .ok (len, tag) ∧
      frame IN pos len tag = .ok ch ∧
      (tag = tagIend ∧ cs = list ++ [ch] ∨
        tag ≠ tagIend ∧ parseLoop IN fuel (nextPos pos len) (list ++ [ch]) = .ok cs) := by
  simp only [parseLoop] at h
  split at h
  · cases h
  · rename_i len tag hr
    split at h
    · cases h
    · rename_i ch hf
      refine ⟨len, tag, ch, hr, hf, ?_⟩
      split at h
      · rename_i ht; cases h; exact .inl ⟨ht, rfl⟩
      · rename_i ht; exact .inr ⟨ht, h⟩

/-- R130: what the record loop lists. -/
theorem parseLoop_ok (IN : Bytes) : ∀ (fuel pos : Nat) (list cs : List Chunk), parseLoop IN fuel pos list = .ok cs →
    ∃ (more : List Chunk) (last : Chunk), cs = list ++ more ++ [last] ∧ last.tag = tagIend ∧
      (∀ c ∈ more, c.tag ≠ tagIend ∧ ChunkOk c) ∧ ChunkOk last := by
  intro fuel
  induction fuel with
  | zero => intro pos list cs h; cases h
  | succ fuel ih =>
    intro pos list cs h
    obtain ⟨len, tag, ch, hr, hf, hc⟩ := parseLoop_succ_ok h
    have hok := frame_ok_chunkOk hf
    obtain ⟨_, hch, _⟩ := frame_ok hf
    have htag : ch.tag = tag := by rw [hch]
    rcases hc with ⟨ht, rfl⟩ | ⟨ht, hc⟩
    · exact ⟨[], ch, by simp, by rw [htag, ht], by simp, hok⟩
    · obtain ⟨more, last, h1, h2, h3, h4⟩ := ih _ _ _ hc
      refine ⟨ch :: more, last, by rw [h1]; simp, h2, ?_, h4⟩
      intro c hcm
      rcases List.mem_cons.1 hcm with rfl | hcm
      · exact ⟨by rw [htag]; exact ht, hok⟩
      · exact h3 c hcm

/-- R293: the causes the record loop can raise. -/
theorem parseLoop_error (IN : Bytes) : ∀ (fuel pos : Nat) (list : List Chunk) (e : Err),
    parseLoop IN fuel pos list = .error e → (∃ p, e = .missingIend p) ∨ (∃ p, e = .truncated p) ∨
      ∃ t l a b, e = .checksum t l a b := by
  intro fuel
  induction fuel with
  | zero => intro pos list e h; cases h; exact .inl ⟨_, rfl⟩
  | succ fuel ih =>
    intro pos list e h
    simp only [parseLoop] at h
    split at h
    · rename_i e' hr
      cases h
      rcases recordHead_error hr with h | h
      · exact .inl ⟨_, h⟩
      · exact .inr (.inl ⟨_, h⟩)
    · split at h
      · rename_i e' hf
        cases h
        rcases frame_error hf with h | h | ⟨a, b, h⟩
        · exact .inl ⟨_, h⟩
        · exact .inr (.inl ⟨_, h⟩)
        · exact .inr (.inr ⟨_, _, a, b, h⟩)
      · split at h
        · cases h
        · exact ih _ _ _ h

/-- A record that frames, frames in a longer stream. -/
theorem frame_append {IN : Bytes} (more : Bytes) {pos : Nat} {len : U32} {tag : Tag} {ch : Chunk}
    (h : frame IN pos len tag = .ok ch) : frame (IN ++ more) pos len tag = .ok ch := by
  have hl := (frame_ok h).1
  rw [frame_whole hl] at h
  rw [frame_whole (by simp; omega), slice_append (by omega), u32At_append (by omega)]
  exact h

theorem recordHead_append {IN : Bytes} (more : Bytes) {pos : Nat} {p : U32 × Tag} (h : recordHead IN pos = .ok p) :
    recordHead (IN ++ more) pos = .ok p := by
  obtain ⟨len, tag⟩ := p
  obtain ⟨h1, h2, h3⟩ := recordHead_ok h
  rw [recordHead_of_fits (by simp; omega), u32At_append (by omega), tagAt_append (by omega), ← h2, ← h3]

/-- R128: the record loop reads nothing past its IEND, and more fuel changes nothing. -/
theorem parseLoop_append {IN : Bytes} (more : Bytes) : ∀ (fuel fuel' pos : Nat) (list cs : List Chunk),
    parseLoop IN fuel pos list = .ok cs → fuel ≤ fuel' → parseLoop (IN ++ more) fuel' pos list = .ok cs := by
  intro fuel
  induction fuel with
  | zero => intro fuel' pos list cs h; cases h
  | succ fuel ih =>
    intro fuel' pos list cs h hle
    obtain ⟨n, rfl⟩ : ∃ n, fuel' = n + 1 := ⟨fuel' - 1, by omega⟩
    obtain ⟨len, tag, ch, hr, hf, hc⟩ := parseLoop_succ_ok h
    simp only [parseLoop, recordHead_append more hr, frame_append more hf]
    rcases hc with ⟨ht, rfl⟩ | ⟨ht, hc⟩
    · rw [if_pos ht]
    · rw [if_neg ht]; exact ih _ _ _ _ hc (by omega)

theorem parse_ok {IN : Bytes} {cs : List Chunk} (h : parse IN = .ok cs) :
    signatureOk IN = true ∧ ∃ list, parseLoop IN IN.length 8 [] = .ok list ∧ cs = merge list := by
  simp only [parse] at h
  split at h
  · rename_i hs
    split at h
    · cases h
    · cases h; exact ⟨hs, _, ‹_›, rfl⟩
  · cases h

theorem chunkBytes_length (c : Chunk) : (chunkBytes c).length = 12 + c.payload.length := by
  simp only [chunkBytes, List.length_append, be32_length, tagBytes_length]; omega

/-- A record that `serialize` wrote frames as its chunk. -/
theorem frame_chunkBytes (A B : Bytes) (tag : Tag) (payload : Bytes) (h : payload.length < 2 ^ 32) :
    let IN := A ++ chunkBytes (mkChunk tag payload) ++ B
    recordHead IN A.length = .ok (BitVec.ofNat 32 payload.length, tag) ∧
      frame IN A.length (BitVec.ofNat 32 payload.length) tag = .ok (mkChunk tag payload) ∧
      nextPos A.length (BitVec.ofNat 32 payload.length) = (A ++ chunkBytes (mkChunk tag payload)).length := by
  intro IN
  have hlen : (BitVec.ofNat 32 payload.length).toNat = payload.length := by
    rw [BitVec.toNat_ofNat]; omega
  have hcb : (chunkBytes (mkChunk tag payload)).length = 12 + payload.length := chunkBytes_length _
  have e1 : IN = A ++ be32 (BitVec.ofNat 32 payload.length) ++ (tagBytes tag ++ payload ++ be32 (chunkCrc tag payload) ++ B) := by
    simp [IN, chunkBytes, mkChunk]
  have e2 : IN = (A ++ be32 (BitVec.ofNat 32 payload.length)) ++ tagBytes tag ++ (payload ++ be32 (chunkCrc tag payload) ++ B) := by
    simp [IN, chunkBytes, mkChunk]
  have e3 : IN = (A ++ be32 (BitVec.ofNat 32 payload.length) ++ tagBytes tag) ++ (payload ++ (be32 (chunkCrc tag payload) ++ B)) := by
    simp [IN, chunkBytes, mkChunk]
  have e4 : IN = (A ++ be32 (BitVec.ofNat 32 payload.length) ++ tagBytes tag ++ payload) ++ be32 (chunkCrc tag payload) ++ B := by
    simp [IN, chunkBytes, mkChunk]
  have hIN : IN.length = A.length + (12 + payload.length) + B.length := by simp [IN, hcb]; omega
  have u1 : u32At IN A.length = BitVec.ofNat 32 payload.length := by rw [e1, u32At_front]
  have u2 : tagAt IN (A.length + 4) = tag := by
    have := tagAt_front (A ++ be32 (BitVec.ofNat 32 payload.length)) tag (payload ++ be32 (chunkCrc tag payload) ++ B)
    rw [← e2] at this; simpa [be32_length] using this
  have u3 : slice IN (A.length + 8) payload.length = payload := by
    have hl : (A ++ be32 (BitVec.ofNat 32 payload.length) ++ tagBytes tag).length = A.length + 8 := by
      simp [be32_length, tagBytes_length]
    rw [slice, e3, ← hl, List.drop_left, List.take_left]
  have u4 : u32At IN (A.length + 8 + payload.length) = chunkCrc tag payload := by
    have := u32At_front (A ++ be32 (BitVec.ofNat 32 payload.length) ++ tagBytes tag ++ payload) (chunkCrc tag payload) B
    rw [← e4] at this
    have hl : (A ++ be32 (BitVec.ofNat 32 payload.length) ++ tagBytes tag ++ payload).length = A.length + 8 + payload.length := by
      simp only [List.length_append, be32_length, tagBytes_length]
    rwa [hl] at this
  refine ⟨?_, ?_, ?_⟩
  · rw [recordHead_of_fits (by omega), u1, u2]
  · rw [frame_whole (by rw [hlen]; omega), hlen, u3, u4, if_pos rfl]
    rfl
  · rw [nextPos, hlen, List.length_append, hcb]
    have : Config.chunkOverhead = 12 := rfl
    omega

theorem combine_ok {c d : Chunk} (hc : ChunkOk c) (hd : ChunkOk d) : ChunkOk (combine c d) := by
  refine ⟨?_, rfl⟩
  simp only [combine, List.length_append]
  rw [hc.1, hd.1]

theorem mergeCons_cases (c : Chunk) (ds : List Chunk) : mergeCons c ds = c :: ds ∨
    ∃ d es, ds = d :: es ∧ c.tag = tagIdat ∧ d.tag = tagIdat ∧ mergeCons c ds = combine c d :: es := by
  cases ds with
  | nil => exact .inl rfl
  | cons d es =>
    simp only [mergeCons]
    split
    · rename_i h; exact .inr ⟨d, es, rfl, h.1, h.2, rfl⟩
    · exact .inl rfl

theorem merge_ok : ∀ cs : List Chunk, (∀ c ∈ cs, ChunkOk c) → ∀ c ∈ merge cs, ChunkOk c := by
  intro cs
  induction cs with
  | nil => intro _ c hc; cases hc
  | cons a cs ih =>
    intro h c hc
    have ih' := ih (fun c hc => h c (List.mem_cons_of_mem _ hc))
    have ha := h a (List.mem_cons_self)
    rw [merge] at hc
    rcases mergeCons_cases a (merge cs) with he | ⟨d, es, hd, _, _, he⟩
    · rw [he] at hc
      rcases List.mem_cons.1 hc with rfl | hc
      · exact ha
      · exact ih' c hc
    · rw [he] at hc
      rcases List.mem_cons.1 hc with rfl | hc
      · exact combine_ok ha (ih' d (by rw [hd]; exact List.mem_cons_self))
      · exact ih' c (by rw [hd]; exact List.mem_cons_of_mem _ hc)

/-- The head of a merged list is an IDAT chunk exactly where the list's head is. -/
theorem merge_head : ∀ (c : Chunk) (cs : List Chunk), ∃ d ds, merge (c :: cs) = d :: ds ∧ d.tag = c.tag := by
  intro c cs
  rw [merge]
  rcases mergeCons_cases c (merge cs) with he | ⟨d, es, _, hc, _, he⟩
  · exact ⟨c, _, he, rfl⟩
  · exact ⟨_, _, he, hc.symm⟩

/-- A chunk that is not IDAT stays in its place. -/
theorem merge_cons_other {c : Chunk} (h : c.tag ≠ tagIdat) (cs : List Chunk) : merge (c :: cs) = c :: merge cs := by
  rw [merge]
  rcases mergeCons_cases c (merge cs) with he | ⟨d, es, _, hc, _, _⟩
  · exact he
  · exact absurd hc h

/-- R131: a maximal run of IDAT chunks becomes one. -/
theorem merge_run : ∀ (run : List Chunk) (behind : List Chunk), run ≠ [] → (∀ d ∈ run, d.tag = tagIdat ∧ ChunkOk d) →
    (∀ c, behind.head? = some c → c.tag ≠ tagIdat) →
    merge (run ++ behind) = mkChunk tagIdat (run.flatMap (fun d => d.payload)) :: merge behind := by
  intro run
  induction run with
  | nil => intro _ h; exact absurd rfl h
  | cons a run ih =>
    intro behind _ hr hb
    obtain ⟨hat, hal, hac⟩ := hr a List.mem_cons_self
    rw [List.cons_append, merge]
    cases run with
    | nil =>
      have : mergeCons a (merge behind) = a :: merge behind := by
        rcases mergeCons_cases a (merge behind) with he | ⟨d, es, hd, _, ht, _⟩
        · exact he
        · cases behind with
          | nil => cases hd
          | cons b bs =>
            obtain ⟨d', ds', h1, h2⟩ := merge_head b bs
            rw [hd] at h1; cases h1
            exact absurd (h2.symm.trans ht) (hb b rfl)
      rw [List.nil_append, this]
      obtain ⟨l, t, p, c⟩ := a
      simp only at hat hal hac
      simp [mkChunk, ← hat, hal, hac]
    | cons b bs =>
      rw [ih behind (by simp) (fun d hd => hr d (List.mem_cons_of_mem _ hd)) hb]
      simp only [mergeCons]
      rw [if_pos ⟨hat, rfl⟩]
      simp [combine, mkChunk, hal]

end Sys2Proof.Machine
end

