-- ==== Sys2Proof/Laws/Memory.lean ====
section
/-! SUPPORT. The laws of a buffer: the canonical form and its keeping, reading after writing, laying bytes out and
reading them back. -/

namespace Sys2Proof.Machine

@[simp] theorem read_nil (o : Nat) : Memory.read [] o = none := rfl

theorem read_cons (a : Nat) (b : Byte) (m : Memory) (o : Nat) :
    Memory.read ((a, b) :: m) o = if a = o then some b else Memory.read m o := rfl

theorem above_cons (lo a : Nat) (b : Byte) (m : Memory) :
    Memory.above lo ((a, b) :: m) = true ↔ lo ≤ a ∧ Memory.above (a + 1) m = true := by
  simp [Memory.above]

theorem above_mono {lo lo' : Nat} {m : Memory} (h : lo' ≤ lo) (hm : Memory.above lo m = true) :
    Memory.above lo' m = true := by
  cases m with
  | nil => rfl
  | cons c m =>
    obtain ⟨a, b⟩ := c
    rw [above_cons] at hm ⊢
    exact ⟨by omega, hm.2⟩

/-- Below the bound nothing is listed. -/
theorem read_below {m : Memory} : ∀ {lo o : Nat}, Memory.above lo m = true → o < lo → m.read o = none := by
  induction m with
  | nil => intros; rfl
  | cons c m ih =>
    intro lo o hm ho
    obtain ⟨a, b⟩ := c
    rw [above_cons] at hm
    rw [read_cons, if_neg (by omega), ih hm.2 (by omega)]

theorem above_write {m : Memory} (v : Byte) :
    ∀ {lo o : Nat}, Memory.above lo m = true → lo ≤ o → Memory.above lo (m.write o v) = true := by
  induction m with
  | nil => intro lo o _ ho; simp [Memory.write, Memory.above, ho]
  | cons c m ih =>
    intro lo o hm ho
    obtain ⟨a, b⟩ := c
    rw [above_cons] at hm
    simp only [Memory.write]
    split
    · rw [above_cons, above_cons]; exact ⟨ho, by omega, hm.2⟩
    · split
      · subst_vars; rw [above_cons]; exact hm
      · rw [above_cons]; exact ⟨hm.1, ih hm.2 (by omega)⟩

/-- A write keeps the canonical form. -/
theorem write_wf {m : Memory} (o : Nat) (v : Byte) (h : m.wf = true) : (m.write o v).wf = true :=
  above_write v h (Nat.zero_le o)

/-- A read after a write. -/
theorem read_write {m : Memory} (v : Byte) :
    ∀ {o a : Nat}, (m.write o v).read a = if a = o then some v else m.read a := by
  induction m with
  | nil => intro o a; simp [Memory.write, Memory.read, eq_comm]
  | cons c m ih =>
    intro o a
    obtain ⟨k, b⟩ := c
    simp only [Memory.write]
    by_cases hk : o < k
    · simp only [hk, if_true, read_cons]
      by_cases ha : a = o
      · simp [ha]
      · simp [ha, Ne.symm ha]
    · by_cases ho : o = k
      · subst ho
        simp only [Nat.lt_irrefl, if_false, if_true, read_cons]
        by_cases ha : a = o
        · simp [ha]
        · simp [ha, Ne.symm ha]
      · simp only [hk, ho, if_false, read_cons, ih]
        by_cases ha : a = o
        · subst ha; simp [Ne.symm ho]
        · simp [ha]

/-- Canonical buffers that read the same are the same data. -/
theorem read_ext_above {m : Memory} : ∀ {lo : Nat} {n : Memory}, Memory.above lo m = true → Memory.above lo n = true →
    (∀ o, m.read o = n.read o) → m = n := by
  induction m with
  | nil =>
    intro lo n _ _ h
    cases n with
    | nil => rfl
    | cons d n => obtain ⟨a, b⟩ := d; have := h a; simp [read_cons] at this
  | cons c m ih =>
    intro lo n hm hn h
    obtain ⟨a, b⟩ := c
    rw [above_cons] at hm
    cases n with
    | nil => have := h a; simp [read_cons] at this
    | cons d n =>
      obtain ⟨a', b'⟩ := d
      rw [above_cons] at hn
      have haa : a = a' := by
        rcases Nat.lt_trichotomy a a' with hlt | heq | hgt
        · have := h a
          rw [read_cons, if_pos rfl, read_cons, if_neg (by omega), read_below hn.2 (by omega)] at this
          cases this
        · exact heq
        · have := h a'
          rw [read_cons, if_neg (by omega), read_below hm.2 (by omega), read_cons, if_pos rfl] at this
          cases this
      subst haa
      have hb : b = b' := by have := h a; simpa [read_cons] using this
      subst hb
      rw [ih hm.2 hn.2]
      intro o
      by_cases ho : o = a
      · subst ho; rw [read_below hm.2 (by omega), read_below hn.2 (by omega)]
      · have := h o; simpa [read_cons, Ne.symm ho] using this

theorem above_ofBytes (bs : Bytes) : ∀ o : Nat, Memory.above o (Memory.ofBytes o bs) = true := by
  induction bs with
  | nil => intro o; rfl
  | cons b bs ih => intro o; rw [Memory.ofBytes, above_cons]; exact ⟨Nat.le_refl o, ih (o + 1)⟩

/-- Bytes laid out from offset 0 are canonical. -/
theorem ofBytes_wf (bs : Bytes) : (Memory.ofBytes 0 bs).wf = true := above_ofBytes bs 0

theorem read_ofBytes (bs : Bytes) : ∀ o a : Nat, o ≤ a → (Memory.ofBytes o bs).read a = bs[a - o]? := by
  induction bs with
  | nil => intros; rfl
  | cons b bs ih =>
    intro o a h
    rw [Memory.ofBytes, read_cons]
    by_cases ha : o = a
    · subst ha; simp
    · rw [if_neg ha, ih (o + 1) a (by omega)]
      rw [show a - o = (a - (o + 1)) + 1 by omega]
      simp

/-- The byte at offset `a` of a buffer laid out from 0. -/
@[simp] theorem read_ofBytes_zero (bs : Bytes) (a : Nat) : (Memory.ofBytes 0 bs).read a = bs[a]? := by
  rw [read_ofBytes bs 0 a (Nat.zero_le a)]; rfl

/-- R35: a buffer laid out from 0 holds a value at exactly the offsets below its length. -/
theorem ofBytes_isSome (bs : Bytes) (o : Nat) : ((Memory.ofBytes 0 bs).read o).isSome = decide (o < bs.length) := by
  rw [read_ofBytes_zero]
  by_cases h : o < bs.length
  · simp [h]
  · simp [h]

/-- What reading `n` bytes from `o` answers: exactly the bytes that stand there. -/
theorem bytes_eq_some_iff (m : Memory) : ∀ (n o : Nat) (bs : Bytes),
    m.bytes o n = some bs ↔ bs.length = n ∧ ∀ k, k < n → m.read (o + k) = bs[k]? := by
  intro n
  induction n with
  | zero => intro o bs; cases bs <;> simp [Memory.bytes]
  | succ n ih =>
    intro o bs
    constructor
    · intro h
      simp only [Memory.bytes] at h
      split at h
      · cases h
      · rename_i b hb
        split at h
        · cases h
        · rename_i cs hcs
          cases h
          obtain ⟨hl, hr⟩ := (ih (o + 1) cs).1 hcs
          refine ⟨by simp [hl], ?_⟩
          intro k hk
          cases k with
          | zero => simpa using hb
          | succ k =>
            rw [show o + (k + 1) = o + 1 + k by omega, hr k (by omega)]
            simp
    · rintro ⟨hl, hr⟩
      cases bs with
      | nil => simp at hl
      | cons b cs =>
        have h0 := hr 0 (by omega)
        simp only [Nat.add_zero, List.getElem?_cons_zero] at h0
        have hcs : m.bytes (o + 1) n = some cs := by
          rw [ih (o + 1) cs]
          refine ⟨by simpa using hl, fun k hk => ?_⟩
          have := hr (k + 1) (by omega)
          rw [show o + (k + 1) = o + 1 + k by omega] at this
          simpa using this
        simp [Memory.bytes, h0, hcs]

/-- A buffer laid out from 0 reads back whole. -/
theorem bytes_ofBytes (bs : Bytes) : (Memory.ofBytes 0 bs).bytes 0 bs.length = some bs := by
  rw [bytes_eq_some_iff]
  exact ⟨rfl, fun k _ => by simp⟩

/-- R305: FILTER has an operand exactly where no entry is a diagnostic, and it is what stands in `KIND`. -/
theorem kindInput_eq_some_iff (s : State) (ts : Bytes) : s.kindInput = some ts ↔
    (∀ i ∈ s.kindDiag, s.kindLen ≤ i) ∧ s.kind.bytes 0 s.kindLen = some ts := by
  simp only [State.kindInput]
  by_cases h : s.kindStale = true
  · rw [if_pos h]
    obtain ⟨i, hi, hlt⟩ := List.any_eq_true.1 h
    simp only [reduceCtorEq, false_iff, not_and]
    intro hall
    have := hall i hi
    simp only [decide_eq_true_iff] at hlt
    omega
  · rw [if_neg h]
    refine ⟨fun he => ⟨fun i hi => ?_, he⟩, fun he => he.2⟩
    by_contra hc
    exact h (List.any_eq_true.2 ⟨i, hi, by simpa using hc⟩)

/-- R33: the operand has `IN_LEN` bytes. -/
@[simp] theorem input_length (s : State) : s.input.length = s.inLen := by simp [State.input]

/-- R33: the operand's byte at an offset below `IN_LEN`. -/
theorem input_getElem? (s : State) (k : Nat) : s.input[k]? = if k < s.inLen then some (s.inByte k) else none := by
  simp only [State.input, List.getElem?_map]
  by_cases h : k < s.inLen
  · simp [h]
  · simp [h, List.getElem?_eq_none (show (List.range s.inLen).length ≤ k by simpa using h)]

/-- R33: a string is the operand exactly where it has `IN_LEN` bytes and each is the one the engine reads. -/
theorem input_eq_iff (s : State) (IN : Bytes) :
    s.input = IN ↔ IN.length = s.inLen ∧ ∀ k, k < s.inLen → IN[k]? = some (s.inByte k) := by
  constructor
  · rintro rfl
    exact ⟨input_length s, fun k hk => by rw [input_getElem?, if_pos hk]⟩
  · rintro ⟨hl, hr⟩
    refine List.ext_getElem? fun k => ?_
    rw [input_getElem?]
    by_cases h : k < s.inLen
    · rw [if_pos h, hr k h]
    · rw [if_neg h, List.getElem?_eq_none (by omega)]

/-- R33: where every byte was written, the operand is what stands in `IN`. -/
theorem input_eq_of_read {s : State} {IN : Bytes} (hl : IN.length = s.inLen)
    (hr : ∀ k, k < s.inLen → s.inp.read k = IN[k]?) : s.input = IN := by
  refine (input_eq_iff s IN).2 ⟨hl, fun k hk => ?_⟩
  rw [State.inByte, hr k hk, List.getElem?_eq_getElem (by omega)]
  rfl

/-- Two operands of one power-up that agree in what was written below an offset agree in the bytes below it. -/
theorem input_take_congr {s t : State} {n : Nat} (hp : s.powerUp = t.powerUp)
    (h : ∀ k, k < n → s.inp.read k = t.inp.read k) (hs : n ≤ s.inLen) (ht : n ≤ t.inLen) :
    s.input.take n = t.input.take n := by
  refine List.ext_getElem? fun k => ?_
  simp only [List.getElem?_take]
  split
  · rename_i hk
    rw [input_getElem?, input_getElem?, if_pos (by omega), if_pos (by omega), State.inByte, State.inByte, h k hk, hp]
  · rfl

/-- Two operands of one power-up and one length that were written alike are equal. -/
theorem input_congr {s t : State} (hp : s.powerUp = t.powerUp) (hl : s.inLen = t.inLen) (h : ∀ k, k < s.inLen →
    s.inp.read k = t.inp.read k) : s.input = t.input := by
  have := input_take_congr hp h (Nat.le_refl _) (Nat.le_of_eq hl)
  rwa [List.take_of_length_le (by simp), List.take_of_length_le (by simp [hl])] at this

/-- R128: where the first bytes of `IN` were written, the operand is those bytes and some bytes behind them. -/
theorem input_eq_append {s : State} {J : Bytes} (hl : J.length ≤ s.inLen)
    (hr : ∀ k, k < J.length → s.inp.read k = J[k]?) : s.input = J ++ s.input.drop J.length := by
  conv => lhs; rw [← List.take_append_drop J.length s.input]
  congr 1
  refine List.ext_getElem? fun k => ?_
  rw [List.getElem?_take]
  split
  · rename_i hk
    rw [input_getElem?, if_pos (by omega), State.inByte, hr k hk, List.getElem?_eq_getElem hk]; rfl
  · rw [List.getElem?_eq_none (by omega)]

end Sys2Proof.Machine
end

