-- ==== Sys2Proof/Laws/State.lean ====
section
/-! SUPPORT. One lemma for each field of each update of the state. -/

namespace Sys2Proof.Machine

@[simp] theorem withEng_cmd (e : Engine) (s : State) : (s.withEng e).cmd = s.cmd := rfl
@[simp] theorem withEng_status (e : Engine) (s : State) : (s.withEng e).status = s.status := rfl
@[simp] theorem withEng_err (e : Engine) (s : State) : (s.withEng e).err = s.err := rfl
@[simp] theorem withEng_argWidth (e : Engine) (s : State) : (s.withEng e).argWidth = s.argWidth := rfl
@[simp] theorem withEng_argHeight (e : Engine) (s : State) : (s.withEng e).argHeight = s.argHeight := rfl
@[simp] theorem withEng_argMaxIdat (e : Engine) (s : State) : (s.withEng e).argMaxIdat = s.argMaxIdat := rfl
@[simp] theorem withEng_inLen (e : Engine) (s : State) : (s.withEng e).inLen = s.inLen := rfl
@[simp] theorem withEng_kindLen (e : Engine) (s : State) : (s.withEng e).kindLen = s.kindLen := rfl
@[simp] theorem withEng_outLen (e : Engine) (s : State) : (s.withEng e).outLen = s.outLen := rfl
@[simp] theorem withEng_nChunks (e : Engine) (s : State) : (s.withEng e).nChunks = s.nChunks := rfl
@[simp] theorem withEng_res (e : Engine) (s : State) : (s.withEng e).res = s.res := rfl
@[simp] theorem withEng_resValid (e : Engine) (s : State) : (s.withEng e).resValid = s.resValid := rfl
@[simp] theorem withEng_inp (e : Engine) (s : State) : (s.withEng e).inp = s.inp := rfl
@[simp] theorem withEng_out (e : Engine) (s : State) : (s.withEng e).out = s.out := rfl
@[simp] theorem withEng_kind (e : Engine) (s : State) : (s.withEng e).kind = s.kind := rfl
@[simp] theorem withEng_chunks (e : Engine) (s : State) : (s.withEng e).chunks = s.chunks := rfl
@[simp] theorem withEng_chunksLost (e : Engine) (s : State) : (s.withEng e).chunksLost = s.chunksLost := rfl
@[simp] theorem withEng_eng (e : Engine) (s : State) : (s.withEng e).eng = e := rfl
@[simp] theorem withEng_caps (e : Engine) (s : State) : (s.withEng e).caps = s.caps := rfl
@[simp] theorem withEng_collab (e : Engine) (s : State) : (s.withEng e).collab = s.collab := rfl
@[simp] theorem withEng_regMap (e : Engine) (s : State) : (s.withEng e).regMap = s.regMap := rfl
@[simp] theorem withEng_powerUp (e : Engine) (s : State) : (s.withEng e).powerUp = s.powerUp := rfl
@[simp] theorem withEng_kindValid (e : Engine) (s : State) : (s.withEng e).kindValid = s.kindValid := rfl
@[simp] theorem withEng_kindDiag (e : Engine) (s : State) :
    (s.withEng e).kindDiag = s.kindDiag := rfl

@[simp] theorem raise_cmd (e : Err) (s : State) : (raise e s).cmd = s.cmd := rfl
@[simp] theorem raise_status (e : Err) (s : State) : (raise e s).status = .error := rfl
@[simp] theorem raise_err (e : Err) (s : State) : (raise e s).err = errRegs e := rfl
@[simp] theorem raise_argWidth (e : Err) (s : State) : (raise e s).argWidth = s.argWidth := rfl
@[simp] theorem raise_argHeight (e : Err) (s : State) : (raise e s).argHeight = s.argHeight := rfl
@[simp] theorem raise_argMaxIdat (e : Err) (s : State) : (raise e s).argMaxIdat = s.argMaxIdat := rfl
@[simp] theorem raise_inLen (e : Err) (s : State) : (raise e s).inLen = s.inLen := rfl
@[simp] theorem raise_kindLen (e : Err) (s : State) : (raise e s).kindLen = 0 := rfl
@[simp] theorem raise_outLen (e : Err) (s : State) : (raise e s).outLen = 0 := rfl
@[simp] theorem raise_nChunks (e : Err) (s : State) : (raise e s).nChunks = 0 := rfl
@[simp] theorem raise_res (e : Err) (s : State) : (raise e s).res = Header.zero := rfl
@[simp] theorem raise_resValid (e : Err) (s : State) : (raise e s).resValid = false := rfl
@[simp] theorem raise_inp (e : Err) (s : State) : (raise e s).inp = s.inp := rfl
@[simp] theorem raise_out (e : Err) (s : State) : (raise e s).out = [] := rfl
@[simp] theorem raise_kind (e : Err) (s : State) : (raise e s).kind = [] := rfl
@[simp] theorem raise_chunks (e : Err) (s : State) : (raise e s).chunks = [] := rfl
@[simp] theorem raise_chunksLost (e : Err) (s : State) : (raise e s).chunksLost = [] := rfl
@[simp] theorem raise_eng (e : Err) (s : State) : (raise e s).eng = Engine.rest := rfl
@[simp] theorem raise_caps (e : Err) (s : State) : (raise e s).caps = s.caps := rfl
@[simp] theorem raise_collab (e : Err) (s : State) : (raise e s).collab = s.collab := rfl
@[simp] theorem raise_regMap (e : Err) (s : State) : (raise e s).regMap = s.regMap := rfl
@[simp] theorem raise_powerUp (e : Err) (s : State) : (raise e s).powerUp = s.powerUp := rfl
@[simp] theorem raise_kindValid (e : Err) (s : State) : (raise e s).kindValid = false := rfl
@[simp] theorem raise_kindDiag (e : Err) (s : State) :
    (raise e s).kindDiag = [] := rfl

@[simp] theorem commit_cmd (r : Result) (s : State) : (commit r s).cmd = s.cmd := rfl
@[simp] theorem commit_status (r : Result) (s : State) : (commit r s).status = .done := rfl
@[simp] theorem commit_err (r : Result) (s : State) : (commit r s).err = ErrRegs.zero := rfl
@[simp] theorem commit_argWidth (r : Result) (s : State) : (commit r s).argWidth = s.argWidth := rfl
@[simp] theorem commit_argHeight (r : Result) (s : State) : (commit r s).argHeight = s.argHeight := rfl
@[simp] theorem commit_argMaxIdat (r : Result) (s : State) : (commit r s).argMaxIdat = s.argMaxIdat := rfl
@[simp] theorem commit_inLen (r : Result) (s : State) : (commit r s).inLen = s.inLen := rfl
@[simp] theorem commit_outLen (r : Result) (s : State) : (commit r s).outLen = r.out.length := rfl
@[simp] theorem commit_nChunks (r : Result) (s : State) : (commit r s).nChunks = r.chunks.length := rfl
@[simp] theorem commit_resValid (r : Result) (s : State) : (commit r s).resValid = r.dims.isSome := rfl
@[simp] theorem commit_inp (r : Result) (s : State) : (commit r s).inp = s.inp := rfl
@[simp] theorem commit_out (r : Result) (s : State) : (commit r s).out = Memory.ofBytes 0 r.out := rfl
@[simp] theorem commit_chunks (r : Result) (s : State) : (commit r s).chunks = r.chunks := rfl
@[simp] theorem commit_chunksLost (r : Result) (s : State) : (commit r s).chunksLost = [] := rfl
@[simp] theorem commit_eng (r : Result) (s : State) : (commit r s).eng = Engine.rest := rfl
@[simp] theorem commit_caps (r : Result) (s : State) : (commit r s).caps = s.caps := rfl
@[simp] theorem commit_collab (r : Result) (s : State) : (commit r s).collab = s.collab := rfl
@[simp] theorem commit_regMap (r : Result) (s : State) : (commit r s).regMap = s.regMap := rfl
@[simp] theorem commit_powerUp (r : Result) (s : State) : (commit r s).powerUp = s.powerUp := rfl
@[simp] theorem commit_kindValid (r : Result) (s : State) : (commit r s).kindValid = r.writesKinds := rfl

@[simp] theorem invalidate_cmd (c : Command) (s : State) : (invalidate c s).cmd = s.cmd := rfl
@[simp] theorem invalidate_status (c : Command) (s : State) : (invalidate c s).status = s.status := rfl
@[simp] theorem invalidate_err (c : Command) (s : State) : (invalidate c s).err = ErrRegs.zero := rfl
@[simp] theorem invalidate_argWidth (c : Command) (s : State) : (invalidate c s).argWidth = s.argWidth := rfl
@[simp] theorem invalidate_argHeight (c : Command) (s : State) : (invalidate c s).argHeight = s.argHeight := rfl
@[simp] theorem invalidate_argMaxIdat (c : Command) (s : State) : (invalidate c s).argMaxIdat = s.argMaxIdat := rfl
@[simp] theorem invalidate_inLen (c : Command) (s : State) : (invalidate c s).inLen = s.inLen := rfl
@[simp] theorem invalidate_kindLen (c : Command) (s : State) : (invalidate c s).kindLen = if c = .filter then s.kindLen else 0 := rfl
@[simp] theorem invalidate_outLen (c : Command) (s : State) : (invalidate c s).outLen = 0 := rfl
@[simp] theorem invalidate_nChunks (c : Command) (s : State) : (invalidate c s).nChunks = 0 := rfl
@[simp] theorem invalidate_res (c : Command) (s : State) : (invalidate c s).res = Header.zero := rfl
@[simp] theorem invalidate_resValid (c : Command) (s : State) : (invalidate c s).resValid = false := rfl
@[simp] theorem invalidate_inp (c : Command) (s : State) : (invalidate c s).inp = s.inp := rfl
@[simp] theorem invalidate_out (c : Command) (s : State) : (invalidate c s).out = [] := rfl
@[simp] theorem invalidate_kind (c : Command) (s : State) : (invalidate c s).kind = if c = .filter then s.kind else [] := rfl
@[simp] theorem invalidate_chunks (c : Command) (s : State) : (invalidate c s).chunks = [] := rfl
@[simp] theorem invalidate_chunksLost (c : Command) (s : State) : (invalidate c s).chunksLost = [] := rfl
@[simp] theorem invalidate_eng (c : Command) (s : State) : (invalidate c s).eng = s.eng := rfl
@[simp] theorem invalidate_caps (c : Command) (s : State) : (invalidate c s).caps = s.caps := rfl
@[simp] theorem invalidate_collab (c : Command) (s : State) : (invalidate c s).collab = s.collab := rfl
@[simp] theorem invalidate_regMap (c : Command) (s : State) : (invalidate c s).regMap = s.regMap := rfl
@[simp] theorem invalidate_powerUp (c : Command) (s : State) : (invalidate c s).powerUp = s.powerUp := rfl
@[simp] theorem invalidate_kindValid (c : Command) (s : State) : (invalidate c s).kindValid = false := rfl
@[simp] theorem invalidate_kindDiag (c : Command) (s : State) :
    (invalidate c s).kindDiag = if c = .filter then s.kindDiag else [] := rfl

/-- The results of a commit that leaves `KIND` as it stands, or replaces it. -/
@[simp] theorem commit_kind_none {r : Result} (h : r.kinds = none) (s : State) : (commit r s).kind = s.kind := by
  simp [commit, h]

@[simp] theorem commit_kind_some {r : Result} {ks : List FilterKind} (h : r.kinds = some ks) (s : State) :
    (commit r s).kind = Memory.ofBytes 0 (kindCodes ks) := by
  simp [commit, h]

@[simp] theorem commit_kindLen_none {r : Result} (h : r.kinds = none) (s : State) :
    (commit r s).kindLen = s.kindLen := by
  simp [commit, h]

@[simp] theorem commit_kindLen_some {r : Result} {ks : List FilterKind} (h : r.kinds = some ks) (s : State) :
    (commit r s).kindLen = ks.length := by
  simp [commit, h]

@[simp] theorem commit_kindDiag_none {r : Result} (h : r.kinds = none) (s : State) :
    (commit r s).kindDiag = s.kindDiag := by
  simp [commit, h]

@[simp] theorem commit_kindDiag_some {r : Result} {ks : List FilterKind} (h : r.kinds = some ks) (s : State) :
    (commit r s).kindDiag = if r.diagnostic then List.range ks.length else [] := by
  simp [commit, h]

@[simp] theorem commit_res_none {r : Result} (h : r.dims = none) (s : State) : (commit r s).res = Header.zero := by
  simp [commit, h]

@[simp] theorem commit_res_some {r : Result} {d : U32 × U32} (h : r.dims = some d) (s : State) :
    (commit r s).res = acceptedHeader d.1 d.2 := by
  simp [commit, h]

/-- R60: a command that lists a kind for at least one row produced entries of `KIND`. -/
theorem writesKinds_some {r : Result} {ks : List FilterKind} (h : r.kinds = some ks) (hl : 1 ≤ ks.length) :
    r.writesKinds = true := by
  cases ks with
  | nil => simp at hl
  | cons f ks => simp [Result.writesKinds, h]

@[simp] theorem withEng_self (s : State) : s.withEng s.eng = s := rfl

@[simp] theorem withEng_withEng (s : State) (e e' : Engine) : (s.withEng e).withEng e' = s.withEng e' := rfl

@[simp] theorem withEng_kindInput (s : State) (e : Engine) : (s.withEng e).kindInput = s.kindInput := rfl

/-- The operand bytes do not depend on the internal items. -/
@[simp] theorem withEng_input (s : State) (e : Engine) : (s.withEng e).input = s.input := rfl

@[simp] theorem raise_input (e : Err) (s : State) : (raise e s).input = s.input := rfl

@[simp] theorem commit_input (r : Result) (s : State) : (commit r s).input = s.input := rfl

/-- An error leaves nothing of the internal items it interrupts (R297). -/
@[simp] theorem raise_withEng (x : Err) (s : State) (e : Engine) : raise x (s.withEng e) = raise x s := rfl

/-- A result leaves nothing of the internal items. -/
@[simp] theorem commit_withEng (r : Result) (s : State) (e : Engine) : commit r (s.withEng e) = commit r s := rfl

@[simp] theorem finish_withEng (r : Result) (s : State) (e : Engine) : finish r (s.withEng e) = finish r s := rfl

end Sys2Proof.Machine
end

