-- ==== Sys2Proof/Laws/Storage.lean ====
section
/-! SUPPORT. Shared storage (R70): what the writing of one space leaves in the others, and when a command's runs of
places lie apart (R329). -/

namespace Sys2Proof.Machine

/-- R70: two places share storage exactly where both spaces lie in storage and the places in one cell of it. -/
theorem sharedOffset_eq_some_iff (a b : Option Nat) (o p : Nat) :
    sharedOffset a b o = some p ↔ ∃ x y, a = some x ∧ b = some y ∧ x + o = y + p := by
  cases a with
  | none => simp [sharedOffset]
  | some x =>
    cases b with
    | none => simp [sharedOffset]
    | some y =>
      simp only [sharedOffset, Option.some.injEq, exists_and_left, exists_eq_left']
      split
      · rw [Option.some.injEq]; omega
      · simp only [reduceCtorEq, false_iff]; omega

theorem sharedOffset_comm (a b : Option Nat) (o p : Nat) : sharedOffset a b o = some p ↔ sharedOffset b a p = some o := by
  rw [sharedOffset_eq_some_iff, sharedOffset_eq_some_iff]
  exact ⟨fun ⟨x, y, h1, h2, h3⟩ => ⟨y, x, h2, h1, h3.symm⟩, fun ⟨x, y, h1, h2, h3⟩ => ⟨y, x, h2, h1, h3.symm⟩⟩

@[simp] theorem sharedOffset_own (a : Option Nat) (o : Nat) : sharedOffset a none o = none := by cases a <;> rfl

/-- R70: two runs overlap exactly where a place of the one shares storage with a place of the other. -/
theorem overlap_iff (p q : Option Nat × Nat) :
    overlap p q = true ↔ ∃ j k, j < p.2 ∧ k < q.2 ∧ sharedOffset p.1 q.1 j = some k := by
  simp only [sharedOffset_eq_some_iff]
  obtain ⟨a, n⟩ := p
  obtain ⟨b, m⟩ := q
  cases a with
  | none => simp [overlap]
  | some x =>
    cases b with
    | none => simp [overlap]
    | some y =>
      simp only [overlap, decide_eq_true_iff, Option.some.injEq, exists_and_left, exists_eq_left']
      constructor
      · intro h; exact ⟨max x y - x, by omega, max x y - y, by omega, by omega⟩
      · rintro ⟨j, h1, k, h2, h3⟩; omega

theorem covered_iff (a b : Option Nat) (n o : Nat) :
    covered a b n o = true ↔ ∃ k, k < n ∧ sharedOffset a b k = some o := by
  simp only [covered]
  constructor
  · intro h
    split at h
    · cases h
    · rename_i k hk; exact ⟨k, by simpa using h, (sharedOffset_comm _ _ _ _).2 hk⟩
  · rintro ⟨k, hk, hs⟩
    rw [(sharedOffset_comm _ _ _ _).1 hs]
    simpa using hk

/-- A value put or lost at an offset, and every other as it stood. -/
theorem read_put (m : Memory) (o : Nat) (v : Option Byte) (a : Nat) :
    (m.put o v).read a = if a = o then v else m.read a := by
  cases v with
  | some b => exact read_write b
  | none =>
    induction m with
    | nil => simp [Memory.put]
    | cons c m ih =>
      obtain ⟨k, b⟩ := c
      simp only [Memory.put, List.filter_cons] at ih ⊢
      by_cases hk : k = o
      · subst hk
        simp only [ne_eq, not_true_eq_false, decide_false, Bool.false_eq_true, if_false, ih, read_cons]
        split
        · rfl
        · rename_i h; rw [if_neg (Ne.symm h)]
      · simp only [ne_eq, hk, not_false_eq_true, decide_true, if_true, read_cons, ih]
        by_cases ha : k = a
        · subst ha; simp [hk]
        · simp [ha]

theorem above_filter (p : Host.Cell → Bool) {m : Memory} : ∀ {lo : Nat}, Memory.above lo m = true →
    Memory.above lo (m.filter p) = true := by
  induction m with
  | nil => intro lo _; rfl
  | cons c m ih =>
    intro lo h
    obtain ⟨a, b⟩ := c
    rw [above_cons] at h
    rw [List.filter_cons]
    split
    · rw [above_cons]; exact ⟨h.1, ih h.2⟩
    · exact above_mono (by omega) (ih h.2)

theorem put_wf {m : Memory} (o : Nat) (v : Option Byte) (h : m.wf = true) : (m.put o v).wf = true := by
  cases v with
  | some b => exact write_wf o b h
  | none => exact above_filter _ h

theorem seenAt_wf (a b : Option Nat) (takes : Nat → Bool) (k : Nat) (v : Option Byte) {m : Memory} (h : m.wf = true) :
    (seenAt a b takes k v m).wf = true := by
  simp only [seenAt]
  split
  · exact h
  · split
    · exact put_wf _ _ h
    · exact h

/-- R70: all that one value written or lost does to the buffer. -/
theorem read_seenAt (a b : Option Nat) (takes : Nat → Bool) (k : Nat) (v : Option Byte) (m : Memory) (o : Nat) :
    (seenAt a b takes k v m).read o = if sharedOffset b a o = some k ∧ takes o = true then v else m.read o := by
  simp only [seenAt, ← sharedOffset_comm]
  cases hs : sharedOffset a b k with
  | none => simp
  | some p =>
    simp only [Option.some.injEq]
    by_cases hp : p = o
    · subst hp
      by_cases ht : takes p = true
      · simp [ht, read_put]
      · simp [ht]
    · rw [if_neg (show ¬(p = o ∧ takes o = true) from fun h => hp h.1)]
      split
      · rw [read_put, if_neg (Ne.symm hp)]
      · rfl

theorem spread_wf (a b : Option Nat) (takes : Nat → Bool) (vs : List (Option Byte)) : ∀ (k : Nat) {m : Memory},
    m.wf = true → (spread a b takes k vs m).wf = true := by
  induction vs with
  | nil => intro k m h; exact h
  | cons v vs ih =>
    intro k m h
    exact ih (k + 1) (seenAt_wf a b takes k v h)

/-- R70: where no place written shares storage with one that takes it, the buffer stays as it is. -/
theorem spread_id {a b : Option Nat} {takes : Nat → Bool} (vs : List (Option Byte)) : ∀ (k : Nat) (m : Memory),
    (∀ j o, k ≤ j → j < k + vs.length → sharedOffset a b j = some o → takes o = false) →
    spread a b takes k vs m = m := by
  induction vs with
  | nil => intros; rfl
  | cons v vs ih =>
    intro k m h
    have hm : seenAt a b takes k v m = m := by
      simp only [seenAt]
      cases hs : sharedOffset a b k with
      | none => rfl
      | some o => simp [h k o (Nat.le_refl k) (by simp) hs]
    rw [spread, hm]
    exact ih (k + 1) m (fun j o h1 h2 h3 => h j o (by omega) (by simp; omega) h3)

/-- R70: what stands at a place after a run of places is written: the value of the place it shares storage with, where
it takes it, else what stood there. -/
theorem read_spread {a b : Option Nat} {takes : Nat → Bool} (vs : List (Option Byte)) : ∀ (k : Nat) (m : Memory) (o : Nat),
    (spread a b takes k vs m).read o =
      match (sharedOffset b a o).bind (fun j => if k ≤ j ∧ takes o = true then vs[j - k]? else none) with
      | some v => v
      | none => m.read o := by
  induction vs with
  | nil =>
    intro k m o
    cases hs : sharedOffset b a o <;> simp [spread]
  | cons v vs ih =>
    intro k m o
    rw [spread, ih, read_seenAt]
    cases hs : sharedOffset b a o with
    | none => simp
    | some j =>
      simp only [Option.bind_some, Option.some.injEq]
      by_cases ht : takes o = true
      · simp only [ht, and_true]
        by_cases h1 : k + 1 ≤ j
        · rw [if_pos h1, if_neg (show ¬j = k by omega), if_pos (show k ≤ j by omega), show j - k = (j - (k + 1)) + 1 by omega, List.getElem?_cons_succ]
        · rw [if_neg h1]
          by_cases h2 : j = k
          · subst h2; simp
          · rw [if_neg (show ¬k ≤ j by omega), if_neg h2]
      · simp [ht]

theorem spreadIn_wf (g : Config.Storage) (cap : Option Nat) (w : Writes) {m : Memory} (h : m.wf = true) :
    (spreadIn g cap w m).wf = true :=
  spread_wf _ _ _ _ _ (spread_wf _ _ _ _ _ (spread_wf _ _ _ _ _ (spread_wf _ _ _ _ _ (spread_wf _ _ _ _ _ h))))

/-- R70: where nothing written lies at the storage of an offset, what stands there stays. -/
theorem read_spread_other {a b : Option Nat} {takes : Nat → Bool} {vs : List (Option Byte)} {m : Memory} {o : Nat}
    (h : covered a b vs.length o = false) : (spread a b takes 0 vs m).read o = m.read o := by
  rw [read_spread]
  cases hs : sharedOffset b a o with
  | none => rfl
  | some j =>
    have : ¬j < vs.length := by
      intro hj
      have : covered a b vs.length o = true := (covered_iff _ _ _ _).2 ⟨j, hj, (sharedOffset_comm _ _ _ _).2 hs⟩
      rw [h] at this; cases this
    simp only [Option.bind_some, Nat.zero_le, true_and, Nat.sub_zero]
    split
    · rename_i v hv
      split at hv
      · rw [List.getElem?_eq_none (by omega)] at hv; cases hv
      · cases hv
    · rfl

theorem read_spread_shared {a b : Option Nat} {takes : Nat → Bool} {vs : List (Option Byte)} {m : Memory} {o j : Nat}
    (hs : sharedOffset a b j = some o) (ht : takes o = true) (hj : j < vs.length) :
    (spread a b takes 0 vs m).read o = vs[j] := by
  rw [read_spread, (sharedOffset_comm _ _ _ _).1 hs]
  simp [ht, hj]

/-- R70: no run that lies apart from another covers a place of it. -/
theorem covered_apart {a b : Option Nat} {n k o : Nat} (h : overlap (a, n) (b, k) = false) (ho : o < k) :
    covered a b n o = false := by
  cases hc : covered a b n o with
  | false => rfl
  | true =>
    obtain ⟨j, hj, hs⟩ := (covered_iff _ _ _ _).1 hc
    rw [(overlap_iff _ _).2 ⟨j, o, hj, ho, hs⟩] at h
    cases h

/-- R329: what `apart` says of the operand in `IN` and of the entries of `KIND` read. -/
theorem apart_read {g : Config.Storage} {w : Writes} {inLen kindLen : Nat} (h : apart g w inLen kindLen = true) :
    ∀ p ∈ w.runs g, overlap p (g.inCell, inLen) = false ∧ overlap p (g.kindCell, kindLen) = false := by
  intro p hp
  simp only [apart, Bool.and_eq_true, List.all_eq_true, Bool.not_eq_true'] at h
  exact h.2 p hp

/-- R329: and of any two runs written. -/
theorem disjoint_iff (ps : List (Option Nat × Nat)) : disjoint ps = true ↔ ps.Pairwise (fun p q => overlap p q = false) := by
  induction ps with
  | nil => simp [disjoint]
  | cons p ps ih => simp [disjoint, ih]

/-- R70: spaces with storage of their own lie apart. -/
@[simp] theorem apart_own (w : Writes) (inLen kindLen : Nat) : apart .own w inLen kindLen = true := rfl

/-- R70: and what is written in them shows in no other. -/
theorem spread_none (a : Option Nat) (takes : Nat → Bool) (k : Nat) (vs : List (Option Byte)) (m : Memory) :
    spread a none takes k vs m = m :=
  spread_id vs k m (fun j o _ _ h => by rw [sharedOffset_own] at h; cases h)

theorem spreadIn_own {g : Config.Storage} (h : g.inCell = none) (cap : Option Nat) (w : Writes) (m : Memory) :
    spreadIn g cap w m = m := by
  simp only [spreadIn, h, spread_none]

/-- R70: the runs of places `IN` sees, and what it holds at an offset that none of them covers. -/
theorem read_spreadIn_other {g : Config.Storage} {cap : Option Nat} {w : Writes} {m : Memory} {o : Nat}
    (h : ∀ p ∈ w.runs g, covered p.1 g.inCell p.2 o = false) : (spreadIn g cap w m).read o = m.read o := by
  simp only [Writes.runs, List.mem_cons, List.not_mem_nil, or_false, forall_eq_or_imp, forall_eq] at h
  obtain ⟨h1, h2, h3, h4, h5⟩ := h
  rw [spreadIn, read_spread_other (by simpa using h1), read_spread_other (by simpa using h2),
    read_spread_other (by simpa using h3), read_spread_other (by simpa using h4), read_spread_other (by simpa using h5)]

/-- R329: the operand of the command stands as it was. -/
theorem read_spreadIn_operand {g : Config.Storage} {cap : Option Nat} {w : Writes} {m : Memory} {inLen kindLen o : Nat}
    (h : apart g w inLen kindLen = true) (ho : o < inLen) : (spreadIn g cap w m).read o = m.read o :=
  read_spreadIn_other (fun p hp => covered_apart (apart_read h p hp).1 ho)

@[simp] theorem spill_cmd (w : Writes) (s : State) : (spill w s).cmd = s.cmd := rfl
@[simp] theorem spill_status (w : Writes) (s : State) : (spill w s).status = s.status := rfl
@[simp] theorem spill_err (w : Writes) (s : State) : (spill w s).err = s.err := rfl
@[simp] theorem spill_argWidth (w : Writes) (s : State) : (spill w s).argWidth = s.argWidth := rfl
@[simp] theorem spill_argHeight (w : Writes) (s : State) : (spill w s).argHeight = s.argHeight := rfl
@[simp] theorem spill_argMaxIdat (w : Writes) (s : State) : (spill w s).argMaxIdat = s.argMaxIdat := rfl
@[simp] theorem spill_inLen (w : Writes) (s : State) : (spill w s).inLen = s.inLen := rfl
@[simp] theorem spill_kindLen (w : Writes) (s : State) : (spill w s).kindLen = s.kindLen := rfl
@[simp] theorem spill_outLen (w : Writes) (s : State) : (spill w s).outLen = s.outLen := rfl
@[simp] theorem spill_nChunks (w : Writes) (s : State) : (spill w s).nChunks = s.nChunks := rfl
@[simp] theorem spill_res (w : Writes) (s : State) : (spill w s).res = s.res := rfl
@[simp] theorem spill_resValid (w : Writes) (s : State) : (spill w s).resValid = s.resValid := rfl
@[simp] theorem spill_out (w : Writes) (s : State) : (spill w s).out = s.out := rfl
@[simp] theorem spill_kindValid (w : Writes) (s : State) : (spill w s).kindValid = s.kindValid := rfl
@[simp] theorem spill_chunks (w : Writes) (s : State) : (spill w s).chunks = s.chunks := rfl
@[simp] theorem spill_chunksLost (w : Writes) (s : State) : (spill w s).chunksLost = s.chunksLost := rfl
@[simp] theorem spill_eng (w : Writes) (s : State) : (spill w s).eng = s.eng := rfl
@[simp] theorem spill_caps (w : Writes) (s : State) : (spill w s).caps = s.caps := rfl
@[simp] theorem spill_collab (w : Writes) (s : State) : (spill w s).collab = s.collab := rfl
@[simp] theorem spill_regMap (w : Writes) (s : State) : (spill w s).regMap = s.regMap := rfl

theorem filter_not_covered_none (a : Option Nat) (n : Nat) (l : List Nat) :
    l.filter (fun i => !covered a none n i) = l := by
  refine List.filter_eq_self.2 (fun i _ => ?_)
  cases hc : covered a none n i with
  | false => rfl
  | true => obtain ⟨k, _, hs⟩ := (covered_iff _ _ _ _).1 hc; rw [sharedOffset_own] at hs; cases hs

/-- R70: where `IN` and `KIND` have storage of their own, what a command writes shows nowhere else. -/
theorem spill_own {s : State} (hi : s.regMap.storage.inCell = none) (hk : s.regMap.storage.kindCell = none) (w : Writes) :
    spill w s = s := by
  simp only [spill, spreadIn_own hi, hk, spread_none, filter_not_covered_none, if_true]

/-- R70: the entries of `KIND` that no byte written covers, or that hold none, stay as they are. -/
theorem spill_kind_read {w : Writes} {s : State} {i : Nat}
    (h : covered s.regMap.storage.outCell s.regMap.storage.kindCell w.out.length i = false) :
    (spill w s).kind.read i = s.kind.read i :=
  read_spread_other (by simpa using h)

theorem spill_kind_isSome (w : Writes) (s : State) (i : Nat) : ((spill w s).kind.read i).isSome = (s.kind.read i).isSome := by
  simp only [spill, read_spread]
  cases hs : sharedOffset s.regMap.storage.kindCell s.regMap.storage.outCell i with
  | none => rfl
  | some j =>
    simp only [Option.bind_some, Nat.zero_le, true_and, Nat.sub_zero]
    by_cases ht : (s.kind.read i).isSome = true
    · rw [if_pos ht, ht]
      by_cases hj : j < w.out.length
      · simp [hj]
      · rw [List.getElem?_eq_none (by simpa using hj)]; exact ht
    · rw [if_neg ht]

/-- R70: a command whose `KIND` is all its own, and apart from `OUT`, finds it as it wrote it. -/
theorem spill_kind_id {w : Writes} {s : State} {n : Nat}
    (ha : overlap (s.regMap.storage.outCell, w.out.length) (s.regMap.storage.kindCell, n) = false)
    (hh : ∀ i, n ≤ i → s.kind.read i = none) : (spill w s).kind = s.kind := by
  refine spread_id _ _ _ (fun j o _ hj hs => ?_)
  by_cases ho : o < n
  · rw [(overlap_iff _ _).2 ⟨j, o, by simpa using hj, ho, hs⟩] at ha; cases ha
  · simp [hh o (by omega)]

/-- R35: an index added to a rising list. -/
theorem mem_insertRising (i a : Nat) (l : List Nat) : a ∈ insertRising i l ↔ a = i ∨ a ∈ l := by
  induction l with
  | nil => simp [insertRising]
  | cons j l ih =>
    simp only [insertRising]
    split
    · simp
    · split
      · rename_i h; subst h; simp
      · simp only [List.mem_cons, ih]; tauto

theorem insertRising_sorted (i : Nat) {l : List Nat} (h : l.Pairwise (· < ·)) : (insertRising i l).Pairwise (· < ·) := by
  induction l with
  | nil => simp [insertRising]
  | cons j l ih =>
    rw [List.pairwise_cons] at h
    simp only [insertRising]
    split
    · rename_i hij
      refine List.pairwise_cons.2 ⟨fun a ha => ?_, List.pairwise_cons.2 h⟩
      rcases List.mem_cons.1 ha with rfl | ha
      · exact hij
      · exact Nat.lt_trans hij (h.1 a ha)
    · split
      · exact List.pairwise_cons.2 h
      · refine List.pairwise_cons.2 ⟨fun a ha => ?_, ih h.2⟩
        rcases (mem_insertRising _ _ _).1 ha with rfl | ha
        · omega
        · exact h.1 a ha

end Sys2Proof.Machine
end

