-- ==== Sys2Proof/Laws/Command.lean ====
section
/-! SUPPORT. The commands: what one needs to start, what it can end with (R250, R257). -/

namespace Sys2Proof.Machine

/-- R250, R257: what a command needs to start. -/
theorem operands_next_iff (c : Command) (s : State) (IN : Bytes) (ks : List FilterKind) :
    operands c s = .next (IN, ks) ↔
      s.status ≠ .busy ∧ precondition c s = true ∧ s.input = IN ∧ kindOperand c s = .next ks := by
  simp only [operands]
  by_cases hb : s.status = .busy
  · simp [hb]
  · rw [if_neg hb]
    by_cases hp : precondition c s = true
    · rw [if_pos hp]
      cases hk : kindOperand c s with
      | next ls => simp [hb, hp]
      | fault r => simp
      | refused r => simp
    · rw [if_neg hp]; simp [hp]

/-- R257: the capacities of the buffers a command writes are no matter of its start; FILTER reads `KIND`. -/
theorem operands_lift {c : Command} {s : State} {IN : Bytes} {ks : List FilterKind}
    (h : operands c { s with caps := ⟨s.caps.capIn, none, none, none⟩ } = .next (IN, ks))
    (hc : c = .filter → fitsCap s.caps.capKind s.kindLen = true) : operands c s = .next (IN, ks) := by
  obtain ⟨h1, h2, h3, h4⟩ := (operands_next_iff _ _ _ _).1 h
  refine (operands_next_iff _ _ _ _).2 ⟨h1, ?_, h3, h4⟩
  cases c with
  | filter =>
    simp only [precondition, Bool.and_eq_true] at h2 ⊢
    exact ⟨h2.1, ⟨h2.2.1.1, hc rfl⟩, h2.2.2⟩
  | decode => exact h2
  | encode => exact h2
  | parse => exact h2
  | recon => exact h2
  | select => exact h2

theorem kindOperand_other {c : Command} (h : c ≠ .filter) (s : State) : kindOperand c s = .next [] := by
  simp [kindOperand, h]

/-- A command with its operands there: its function, then the results or the error. -/
theorem runCommand_next {c : Command} {compute : Bytes → List FilterKind → Except Err Result} {s : State} {IN : Bytes}
    {ks : List FilterKind} (h : operands c s = .next (IN, ks)) :
    runCommand c compute s =
      match compute IN ks with
      | .error e => .next (raise e s)
      | .ok r => finish r s := by
  simp only [runCommand, h]
  all_goals (cases compute IN ks <;> rfl)

/-- What a command can do: raise what its function raises, or commit what it computes. -/
theorem runCommand_cases {c : Command} {compute : Bytes → List FilterKind → Except Err Result} {s t : State}
    (h : runCommand c compute s = .next t) : ∃ IN ks, operands c s = .next (IN, ks) ∧
      ((∃ e, compute IN ks = .error e ∧ t = raise e s) ∨
        ∃ r, compute IN ks = .ok r ∧ fits s.caps r = true ∧
          apart s.regMap.storage r.writes s.inLen (r.kindRead s) = true ∧ t = spill r.writes (commit r s)) := by
  simp only [runCommand] at h
  split at h
  · cases h
  · cases h
  · rename_i IN ks ho
    refine ⟨IN, ks, ho, ?_⟩
    split at h
    · rename_i e he; cases h; exact .inl ⟨e, he, rfl⟩
    · rename_i r hr
      simp only [finish] at h
      split at h
      · split at h
        · cases h; exact .inr ⟨r, hr, ‹_›, ‹_›, rfl⟩
        · cases h
      · cases h

theorem finish_fits {r : Result} {s : State} (h : fits s.caps r = true)
    (ha : apart s.regMap.storage r.writes s.inLen (r.kindRead s) = true) :
    finish r s = .next (spill r.writes (commit r s)) := by
  rw [finish, if_pos h, if_pos ha]

/-- R329: a command whose writes do not lie apart is refused. -/
theorem finish_aliased {r : Result} {s : State} (h : fits s.caps r = true)
    (ha : apart s.regMap.storage r.writes s.inLen (r.kindRead s) = false) : finish r s = .refused .aliased := by
  rw [finish, if_pos h, if_neg (by simp [ha])]

theorem finish_refused {r : Result} {s : State} (h : fits s.caps r = false) : finish r s = .refused .capacity :=
  if_neg (by simp [h])

theorem kindsOfCodes_codes (ks : List FilterKind) : kindsOfCodes (kindCodes ks) = some ks := by
  induction ks with
  | nil => rfl
  | cons f ks ih =>
    have : kindOfCode f.code = some f := by cases f <;> decide
    simp only [kindCodes, List.map_cons, kindsOfCodes, this]
    rw [show kindsOfCodes (List.map FilterKind.code ks) = some ks from ih]

theorem startCommand_next {c : Command} {s b : State} (h : startCommand c s = .next b) : ∃ IN ks,
    operands c s = .next (IN, ks) ∧ b = ({ invalidate c s with status := .busy }).withEng (startEngine c IN ks s) := by
  simp only [startCommand] at h
  split at h
  · cases h
  · cases h
  · rename_i IN ks ho; cases h; exact ⟨IN, ks, ho, rfl⟩

theorem kindOperand_filter {s : State} {ks : List FilterKind} (h : kindOperand .filter s = .next ks) : ks.length = s.kindLen := by
  simp only [kindOperand, if_true] at h
  split at h
  · cases h
  · rename_i ts ht
    split at h
    · cases h
    · rename_i ks' hk
      cases h
      rw [← ((bytes_eq_some_iff _ _ _ _).1 ((kindInput_eq_some_iff _ _).1 ht).2).1]
      clear ht
      induction ts generalizing ks with
      | nil => cases hk; rfl
      | cons t ts ih =>
        simp only [kindsOfCodes] at hk
        split at hk
        · cases hk
        · split at hk
          · cases hk
          · rename_i h2; cases hk; simp [ih h2]

/-- R305: the type sequence an earlier DECODE or RECON left in `KIND` is no operand. -/
theorem kindOperand_stale {s : State} (h : s.kindStale = true) : kindOperand .filter s = .fault .unwritten := by
  simp only [kindOperand, if_true, State.kindInput, if_pos h]

theorem raise_invalidate (er : Err) (c : Command) (e : Engine) (s : State) :
    raise er (({ invalidate c s with status := .busy }).withEng e) = raise er s := rfl

theorem finish_invalidate (r : Result) (c : Command) (e : Engine) (s : State) (h : r.kinds = none → c = .filter) :
    finish r (({ invalidate c s with status := .busy }).withEng e) = finish r s := by
  have hc : commit r (({ invalidate c s with status := .busy }).withEng e) = commit r s := by
    cases hk : r.kinds with
    | some ks => simp only [commit, hk]; rfl
    | none => simp only [commit, hk]; rw [h hk]; rfl
  have hk : r.kindRead (({ invalidate c s with status := .busy }).withEng e) = r.kindRead s := by
    cases hk : r.kinds with
    | some ks => simp only [Result.kindRead, hk]
    | none => simp only [Result.kindRead, hk]; rw [h hk]; rfl
  simp only [finish, hc, hk]; rfl

theorem ne_zero_of_pos {w : U32} (h : 1 ≤ w.toNat) : w ≠ 0 := by rintro rfl; exact absurd h (by decide)

theorem precondition_dims {c : Command} {s : State} (h : precondition c s = true) (hc : c ≠ .decode) (hc' : c ≠ .parse) : s.argWidth ≠ 0 ∧ s.argHeight ≠ 0 := by
  have : dimsOk s = true := by cases c <;> simp_all [precondition]
  simp only [dimsOk, decide_eq_true_iff] at this
  exact ⟨ne_zero_of_pos this.1, ne_zero_of_pos this.2⟩

end Sys2Proof.Machine
end

