-- ==== Sys2Proof/Laws/Crc.lean ====
section
/-! SUPPORT. The CRC-32 step is injective, so a changed byte changes the crc (R135). -/

namespace Sys2Proof.Machine

theorem crcBit_injective {c d : U32} (h : crcBit c = crcBit d) : c = d := by
  have bound : ∀ x : U32, (x >>> 1).toNat < 2 ^ 31 := by
    intro x; rw [BitVec.toNat_ushiftRight, Nat.shiftRight_eq_div_pow]; have := x.isLt; omega
  have mixed : ∀ x y : U32, (x >>> 1) ^^^ (0xEDB88320 : U32) = y >>> 1 → False := by
    intro x y hxy
    have e : (0xEDB88320 : U32) = (x >>> 1) ^^^ (y >>> 1) := by rw [← hxy, ← BitVec.xor_assoc, BitVec.xor_self, BitVec.zero_xor]
    have := congrArg BitVec.toNat e
    rw [BitVec.toNat_xor] at this
    have hlt := Nat.xor_lt_two_pow (bound x) (bound y)
    rw [← this] at hlt
    exact absurd hlt (by decide)
  have half : ∀ x y : U32, x >>> 1 = y >>> 1 → x.toNat % 2 = y.toNat % 2 → x = y := by
    intro x y hxy hp
    have := congrArg BitVec.toNat hxy
    rw [BitVec.toNat_ushiftRight, BitVec.toNat_ushiftRight, Nat.shiftRight_eq_div_pow, Nat.shiftRight_eq_div_pow] at this
    apply BitVec.eq_of_toNat_eq
    omega
  simp only [crcBit] at h
  split at h <;> split at h
  · exact half c d (by simpa using h) (by omega)
  · exact (mixed c d h).elim
  · exact (mixed d c h.symm).elim
  · exact half c d h (by omega)

theorem crcByte_injective {c d : U32} {v w : Byte} (h : crcByte c v = crcByte d w) : c ^^^ v.setWidth 32 = d ^^^ w.setWidth 32 := by
  simp only [crcByte] at h
  exact crcBit_injective (crcBit_injective (crcBit_injective (crcBit_injective (crcBit_injective (crcBit_injective
    (crcBit_injective (crcBit_injective h)))))))

theorem crcRun_injective (B : Bytes) : ∀ {c d : U32}, crcRun c B = crcRun d B → c = d := by
  induction B with
  | nil => intro c d h; exact h
  | cons v B ih =>
    intro c d h
    have := crcByte_injective (ih h)
    exact (BitVec.xor_right_inj (v.setWidth 32)).1 (by rw [BitVec.xor_comm _ c, BitVec.xor_comm _ d]; exact this)

theorem crcRun_append (A B : Bytes) : ∀ c : U32, crcRun c (A ++ B) = crcRun (crcRun c A) B := by
  induction A with
  | nil => intro c; rfl
  | cons v A ih => intro c; exact ih _

/-- One byte changed changes the crc. -/
theorem crc32_change (A B : Bytes) {v w : Byte} (h : v ≠ w) : crc32 (A ++ v :: B) ≠ crc32 (A ++ w :: B) := by
  intro he
  have h1 : crcRun crcInit (A ++ v :: B) = crcRun crcInit (A ++ w :: B) := by
    have := he
    simp only [crc32, crcFinal] at this
    exact BitVec.xor_left_inj _ |>.1 this
  rw [crcRun_append, crcRun_append] at h1
  have h2 := crcByte_injective (crcRun_injective B h1)
  have h3 : v.setWidth 32 = w.setWidth 32 := BitVec.xor_right_inj _ |>.1 h2
  apply h
  have := congrArg BitVec.toNat h3
  apply BitVec.eq_of_toNat_eq
  have a := v.isLt; have b := w.isLt
  simp only [BitVec.toNat_setWidth] at this
  omega

end Sys2Proof.Machine
end

