-- ==== Sys2Proof/Laws/Kernel.lean ====
section
/-! SUPPORT. The arithmetic of the kernel: what each helper is as a number (R13, R173, R184). -/

namespace Sys2Proof.Machine

/-- R13: `mod256` is the residue in 0..255. -/
theorem mod256_toNat (v : Int) : ((mod256 v).toNat : Int) = v % 256 := by
  rw [mod256, BitVec.toNat_ofInt]
  omega

theorem subMod_toNat (x q : Byte) : ((subMod x q).toNat : Int) = ((x.toNat : Int) - q.toNat) % 256 := mod256_toNat _

theorem addMod_toNat (x q : Byte) : ((addMod x q).toNat : Int) = ((x.toNat : Int) + q.toNat) % 256 := mod256_toNat _

/-- R184: a byte operation is subtraction of bytes. -/
theorem subMod_eq (x q : Byte) : subMod x q = x - q := by
  apply BitVec.eq_of_toNat_eq
  have h := subMod_toNat x q
  have hx := x.isLt
  have hq := q.isLt
  rw [BitVec.toNat_sub]
  omega

/-- R184: a byte operation is addition of bytes. -/
theorem addMod_eq (x q : Byte) : addMod x q = x + q := by
  apply BitVec.eq_of_toNat_eq
  have h := addMod_toNat x q
  rw [BitVec.toNat_add]
  omega

theorem average_toNat (a b : Byte) : (average a b).toNat = (a.toNat + b.toNat) / 2 := by
  have ha := a.isLt
  have hb := b.isLt
  rw [average, floor2, BitVec.toNat_ofNat]
  omega

/-- R173: every ENC is `x - pred`. -/
theorem encOp_eq (f : FilterKind) (w : Window) : encOp f w = w.x - pred f w.a w.b w.c := by
  cases f <;> simp [encOp, opEncNone, opEncSub, opEncUp, opEncAvg, opEncPaeth, pred, subMod_eq]

/-- R173: every DEC is `x + pred`. -/
theorem decOp_eq (f : FilterKind) (w : Window) : decOp f w = w.x + pred f w.a w.b w.c := by
  cases f <;> simp [decOp, opDecNone, opDecSub, opDecUp, opDecAvg, opDecPaeth, pred, addMod_eq]

/-- R172: the predictor answers one of its operands. -/
theorem paeth_mem (a b c : Byte) : paeth a b c = a ∨ paeth a b c = b ∨ paeth a b c = c := by
  simp only [paeth]
  split
  · exact .inl rfl
  · split
    · exact .inr (.inl rfl)
    · exact .inr (.inr rfl)

/-- The meaning of the byte operation of a kind. -/
theorem storeFiltered_next (v : Byte) (s : State) :
    storeFiltered v s = .next (s.withEng { s.eng with
      rowBuf := s.eng.rowBuf ++ [v], col := s.eng.col + 1, w := Window.zero }) := rfl

theorem storeReconstructed_next (v : Byte) (s : State) :
    storeReconstructed v s = .next (s.withEng { s.eng with
      out := s.eng.out ++ [v], col := s.eng.col + 1, w := Window.zero }) := rfl

end Sys2Proof.Machine
end

