-- ==== Sys2Proof/Laws/Recon.lean ====
section
/-! SUPPORT. The byte loop and the row loop of the Reconstructor: lengths, what stays, and each byte written. -/

namespace Sys2Proof.Machine

/-- R171: sampling reads only bytes below `r*stride + i`. -/
theorem windowAt_congr {x : Byte} {B C : Bytes} {stride r i : Nat} (hi : i < stride)
    (h : ∀ o, o < rawOffset stride r i → byteAt B o = byteAt C o) : windowAt x B stride r i = windowAt x C stride r i := by
  have hb : Config.bpp = 4 := rfl
  have up : 1 ≤ r → rawOffset stride (r - 1) i < rawOffset stride r i := by
    intro hr
    obtain ⟨k, rfl⟩ : ∃ k, r = k + 1 := ⟨r - 1, by omega⟩
    simp only [rawOffset, Nat.add_sub_cancel, Nat.add_mul]
    omega
  simp only [windowAt, Window.mk.injEq, true_and, sampleA, sampleB, sampleC]
  refine ⟨?_, ?_, ?_⟩
  · split
    · exact h _ (by simp only [rawOffset] at *; omega)
    · rfl
  · split
    · exact h _ (up ‹_›)
    · rfl
  · split
    · rename_i hc
      have := up hc.1
      exact h _ (by omega)
    · rfl

/-- The window at the next byte is the same when sampled from a longer `out`. -/
theorem reconWindow_append {F out more : Bytes} {stride r i : Nat} (hi : i < stride)
    (h : out.length = rawOffset stride r i) : reconWindow F (out ++ more) stride r i = reconWindow F out stride r i := by
  apply windowAt_congr hi
  intro o ho
  exact byteAt_append_left (by omega)

/-- What the byte loop appends. -/
theorem reconBytes_spec (F : Bytes) (stride r : Nat) (f : FilterKind) : ∀ (n i : Nat) (out : Bytes), i + n = stride →
    out.length = rawOffset stride r i →
    ∃ more : Bytes, reconBytes F stride r f n i out = out ++ more ∧ more.length = n ∧
      ∀ k, k < n → byteAt more k = decOp f (reconWindow F (out ++ more) stride r (i + k)) := by
  intro n
  induction n with
  | zero => intro i out _ _; exact ⟨[], by simp [reconBytes], rfl, fun k hk => absurd hk (Nat.not_lt_zero k)⟩
  | succ n ih =>
    intro i out hn hout
    obtain ⟨more, he, hl, hb⟩ := ih (i + 1) (out ++ [decOp f (reconWindow F out stride r i)]) (by omega)
      (by simp [hout, rawOffset]; omega)
    refine ⟨decOp f (reconWindow F out stride r i) :: more, ?_, by simp [hl], ?_⟩
    · rw [reconBytes, he]; simp
    · intro k hk
      cases k with
      | zero =>
        rw [Nat.add_zero, reconWindow_append (by omega) hout]
        rfl
      | succ k =>
        have := hb k (by omega)
        rw [List.append_assoc, List.singleton_append] at this
        rw [show i + (k + 1) = i + 1 + k by omega, ← this]
        rfl

theorem reconBytes_length (F : Bytes) (stride r : Nat) (f : FilterKind) : ∀ (n i : Nat) (out : Bytes),
    (reconBytes F stride r f n i out).length = out.length + n := by
  intro n
  induction n with
  | zero => intros; rfl
  | succ n ih => intro i out; rw [reconBytes, ih]; simp; omega

/-- The byte loop reads `F` below the end of the record only. -/
theorem reconBytes_congr {F G : Bytes} {stride r : Nat} {f : FilterKind}
    (h : ∀ o, o < recordOffset stride r + 1 + stride → byteAt F o = byteAt G o) :
    ∀ (n i : Nat) (out : Bytes), i + n = stride → reconBytes F stride r f n i out = reconBytes G stride r f n i out := by
  intro n
  induction n with
  | zero => intros; rfl
  | succ n ih =>
    intro i out hn
    have hw : reconWindow F out stride r i = reconWindow G out stride r i := by
      simp only [reconWindow, filteredOffset]
      rw [h _ (by omega)]
    rw [reconBytes, reconBytes, hw, ih (i + 1) _ (by omega)]

/-- R208: what the record step answers, in its order of checks. -/
theorem reconStep_ok {F : Bytes} {stride r : Nat} {out out' : Bytes} {f : FilterKind}
    (h : reconStep F stride r out = .ok (f, out')) :
    kindOfCode (byteAt F (recordOffset stride r)) = some f ∧ recordOffset stride r + 1 + stride ≤ F.length ∧
      out' = reconBytes F stride r f stride 0 out := by
  simp only [reconStep] at h
  split at h
  · cases h
  · split at h
    · cases h
    · rename_i g hg
      split at h
      · cases h
      · cases h
        exact ⟨hg, by omega, rfl⟩

/-- R201, R285: the error of a record: its type byte is there and illegal, or the row is not there whole. -/
def StepError (F : Bytes) (stride r : Nat) (e : Err) : Prop :=
  recordOffset stride r < F.length ∧ 4 < (byteAt F (recordOffset stride r)).toNat ∧
      e = .badFilterType r (byteAt F (recordOffset stride r)) ∨
    ¬(recordOffset stride r < F.length ∧ 4 < (byteAt F (recordOffset stride r)).toNat) ∧
      F.length < recordOffset stride r + 1 + stride ∧ e = .filteredStreamShort r

theorem reconStep_error {F : Bytes} {stride r : Nat} {out : Bytes} {e : Err} (h : reconStep F stride r out = .error e) :
    StepError F stride r e := by
  simp only [reconStep] at h
  split at h
  · cases h; exact .inr ⟨by omega, by omega, rfl⟩
  · split at h
    · rename_i hg; cases h; exact .inl ⟨by omega, kindOfCode_none hg, rfl⟩
    · rename_i f hg
      have hle := (kindOfCode_isSome _).1 ⟨f, hg⟩
      split at h
      · cases h; exact .inr ⟨by omega, by omega, rfl⟩
      · cases h

theorem reconStep_of_fits {F : Bytes} {stride r : Nat} {f : FilterKind} (out : Bytes)
    (hk : kindOfCode (byteAt F (recordOffset stride r)) = some f) (hf : recordOffset stride r + 1 + stride ≤ F.length) :
    reconStep F stride r out = .ok (f, reconBytes F stride r f stride 0 out) := by
  simp only [reconStep, hk]
  rw [if_neg (by omega), if_neg (by omega)]

/-- The record step reads `F` below the end of the record only. -/
theorem reconStep_append {F : Bytes} (more : Bytes) {stride r : Nat} (out : Bytes)
    (hf : recordOffset stride r + 1 + stride ≤ F.length) :
    reconStep (F ++ more) stride r out = reconStep F stride r out := by
  have h0 : byteAt (F ++ more) (recordOffset stride r) = byteAt F (recordOffset stride r) :=
    byteAt_append_left (by omega)
  simp only [reconStep, h0, List.length_append]
  rw [if_neg (by omega), if_neg (by omega)]
  cases kindOfCode (byteAt F (recordOffset stride r)) with
  | none => rfl
  | some f =>
    simp only []
    rw [if_neg (by omega), if_neg (by omega)]
    rw [reconBytes_congr (fun o ho => byteAt_append_left (by omega)) stride 0 out (by omega)]

/-- The row loop, row by row. -/
theorem reconRows_ok_iff (F : Bytes) (stride : Nat) : ∀ (n r : Nat) (out : Bytes) (kinds : List FilterKind),
    (∃ p, reconRows F stride n r out kinds = .ok p) ↔
      ∀ k, k < n → recordOffset stride (r + k) + 1 + stride ≤ F.length ∧
        (byteAt F (recordOffset stride (r + k))).toNat ≤ 4 := by
  intro n
  induction n with
  | zero => intro r out kinds; exact ⟨fun _ k hk => absurd hk (Nat.not_lt_zero k), fun _ => ⟨_, rfl⟩⟩
  | succ n ih =>
    intro r out kinds
    rw [reconRows]
    cases hs : reconStep F stride r out with
    | error e =>
      simp only [reduceCtorEq, exists_false, false_iff]
      intro h
      obtain ⟨h1, h2⟩ := h 0 (by omega)
      rw [Nat.add_zero] at h1 h2
      obtain ⟨f, hf⟩ := (kindOfCode_isSome _).2 h2
      rw [reconStep_of_fits out hf h1] at hs
      cases hs
    | ok p =>
      obtain ⟨f, out'⟩ := p
      obtain ⟨h1, h2, h3⟩ := reconStep_ok hs
      simp only []
      rw [ih]
      constructor
      · intro h k hk
        cases k with
        | zero => exact ⟨h2, (kindOfCode_isSome _).1 ⟨f, h1⟩⟩
        | succ k => have := h k (by omega); rwa [show r + 1 + k = r + (k + 1) by omega] at this
      · intro h k hk
        have := h (k + 1) (by omega)
        rwa [show r + (k + 1) = r + 1 + k by omega] at this

/-- What the row loop adds. -/
theorem reconRows_ok (F : Bytes) (stride : Nat) : ∀ (n r : Nat) (out : Bytes) (kinds : List FilterKind) (out' : Bytes)
    (kinds' : List FilterKind), reconRows F stride n r out kinds = .ok (out', kinds') →
    out'.length = out.length + n * stride ∧ ∃ ks : List FilterKind, kinds' = kinds ++ ks ∧ ks.length = n ∧
      ∀ k, k < n → (ks[k]?).map FilterKind.code = some (byteAt F (recordOffset stride (r + k))) := by
  intro n
  induction n with
  | zero =>
    intro r out kinds out' kinds' h
    cases h
    exact ⟨by simp, [], by simp, rfl, fun k hk => absurd hk (Nat.not_lt_zero k)⟩
  | succ n ih =>
    intro r out kinds out' kinds' h
    rw [reconRows] at h
    split at h
    · cases h
    · rename_i f o hs
      obtain ⟨h1, h2, h3⟩ := reconStep_ok hs
      obtain ⟨hl, ks, hk, hkl, hkc⟩ := ih _ _ _ _ _ h
      refine ⟨?_, f :: ks, ?_, by simp [hkl], ?_⟩
      · rw [hl, h3, reconBytes_length, Nat.add_mul]; omega
      · rw [hk]; simp
      · intro k hk
        cases k with
        | zero => simp [kindOfCode_some h1]
        | succ k => rw [show r + (k + 1) = r + 1 + k by omega]; simpa using hkc k (by omega)

/-- R295 steps 8 to 10: the error of the row loop is that of its first row that is not legal and whole. -/
theorem reconRows_error (F : Bytes) (stride : Nat) : ∀ (n r : Nat) (out : Bytes) (kinds : List FilterKind) (e : Err),
    reconRows F stride n r out kinds = .error e → ∃ k, k < n ∧ StepError F stride (r + k) e ∧
      ∀ q, q < k → recordOffset stride (r + q) + 1 + stride ≤ F.length ∧
        (byteAt F (recordOffset stride (r + q))).toNat ≤ 4 := by
  intro n
  induction n with
  | zero => intro r out kinds e h; cases h
  | succ n ih =>
    intro r out kinds e h
    rw [reconRows] at h
    split at h
    · rename_i e' hs
      cases h
      exact ⟨0, by omega, reconStep_error hs, fun q hq => absurd hq (Nat.not_lt_zero q)⟩
    · rename_i f o hs
      obtain ⟨h1, h2, h3⟩ := reconStep_ok hs
      obtain ⟨k, hk, he, hbefore⟩ := ih _ _ _ _ h
      rw [show r + 1 + k = r + (k + 1) by omega] at he
      refine ⟨k + 1, by omega, he, ?_⟩
      intro q hq
      cases q with
      | zero => exact ⟨h2, (kindOfCode_isSome _).1 ⟨f, h1⟩⟩
      | succ q => have := hbefore q (by omega); rwa [show r + 1 + q = r + (q + 1) by omega] at this

/-- R209: the row loop reads `F` below the end of its last record only. -/
theorem reconRows_append {F : Bytes} (more : Bytes) (stride : Nat) : ∀ (n r : Nat) (out : Bytes)
    (kinds : List FilterKind), recordOffset stride (r + n) ≤ F.length →
    reconRows (F ++ more) stride n r out kinds = reconRows F stride n r out kinds := by
  intro n
  induction n with
  | zero => intros; rfl
  | succ n ih =>
    intro r out kinds h
    have hm : recordOffset stride (r + (n + 1)) = recordOffset stride (r + 1 + n) := by
      rw [show r + (n + 1) = r + 1 + n by omega]
    have hr : recordOffset stride r + 1 + stride ≤ recordOffset stride (r + 1 + n) := by
      simp only [recordOffset, Nat.add_mul]; omega
    rw [reconRows, reconRows, reconStep_append more out (by omega)]
    split
    · rfl
    · exact ih _ _ _ (by omega)

end Sys2Proof.Machine
end

