-- ==== Sys2Proof/Laws/Filter.lean ====
section
/-! SUPPORT. The filter direction: lengths and layout of rows and streams (R64), the byte loop that undoes a row (R185, R211), the scores. -/

namespace Sys2Proof.Machine

theorem filterRow_length (raw : Bytes) (stride r : Nat) (f : FilterKind) : (filterRow raw stride r f).length = stride := by
  simp [filterRow]

theorem byteAt_filterRow {raw : Bytes} {stride r i : Nat} (f : FilterKind) (h : i < stride) :
    byteAt (filterRow raw stride r f) i = encOp f (filterWindow raw stride r i) := by
  simp [byteAt, filterRow, List.getD, h]

theorem filterScanline_length (raw : Bytes) (stride r : Nat) (f : FilterKind) :
    (filterScanline raw stride r f).length = 1 + stride := by
  simp [filterScanline, filterRow_length]; omega

theorem filterRows_length (raw : Bytes) (stride : Nat) : ∀ (ks : List FilterKind) (r : Nat),
    (filterRows raw stride r ks).length = ks.length * (1 + stride) := by
  intro ks
  induction ks with
  | nil => intro r; simp [filterRows]
  | cons f ks ih => intro r; rw [filterRows, List.length_append, filterScanline_length, ih]; simp [Nat.add_mul]; omega

theorem filterStream_length (raw : Bytes) (ks : List FilterKind) (stride : Nat) :
    (filterStream raw ks stride).length = ks.length * (1 + stride) := filterRows_length raw stride ks 0

theorem filterRows_append (raw : Bytes) (stride : Nat) : ∀ (ks ls : List FilterKind) (r : Nat),
    filterRows raw stride r (ks ++ ls) = filterRows raw stride r ks ++ filterRows raw stride (r + ks.length) ls := by
  intro ks
  induction ks with
  | nil => intros; simp [filterRows]
  | cons f ks ih =>
    intro ls r
    rw [List.cons_append, filterRows, filterRows, ih, List.append_assoc, List.length_cons,
      show r + 1 + ks.length = r + (ks.length + 1) by omega]

/-- R64: record `r` of the filtered stream. -/
theorem filterRows_drop (raw : Bytes) (stride : Nat) : ∀ (ks : List FilterKind) (r k : Nat), k ≤ ks.length →
    (filterRows raw stride r ks).drop (recordOffset stride k) = filterRows raw stride (r + k) (ks.drop k) := by
  intro ks r k hk
  have h := filterRows_append raw stride (ks.take k) (ks.drop k) r
  have hl : (ks.take k).length = k := by simp [hk]
  rw [List.take_append_drop, hl] at h
  rw [h, List.drop_append_of_le_length (by rw [filterRows_length, hl]; exact Nat.le_refl _), List.drop_eq_nil_of_le]
  · rfl
  · rw [filterRows_length, hl]; exact Nat.le_refl _

/-- The byte loop gives the raw row back from its filtered bytes. -/
theorem reconBytes_inverts {F raw : Bytes} {stride r : Nat} {f : FilterKind}
    (hF : ∀ i, i < stride → byteAt F (filteredOffset stride r i) = encOp f (filterWindow raw stride r i))
    (hraw : rawOffset stride (r + 1) 0 ≤ raw.length) : ∀ (n i : Nat), i + n = stride →
    reconBytes F stride r f n i (raw.take (rawOffset stride r i)) = raw.take (rawOffset stride (r + 1) 0) := by
  have hrow : rawOffset stride (r + 1) 0 = rawOffset stride r stride := by simp [rawOffset, Nat.add_mul]
  intro n
  induction n with
  | zero => intro i hi; rw [reconBytes, hrow, show i = stride by omega]
  | succ n ih =>
    intro i hi
    have hlt : rawOffset stride r i < raw.length := by rw [hrow] at hraw; simp only [rawOffset] at *; omega
    have hw : reconWindow F (raw.take (rawOffset stride r i)) stride r i =
        windowAt (encOp f (filterWindow raw stride r i)) raw stride r i := by
      rw [reconWindow, hF i (by omega)]
      apply windowAt_congr (by omega)
      intro o ho
      simp [byteAt, List.getD, ho]
    have hb : decOp f (windowAt (encOp f (filterWindow raw stride r i)) raw stride r i) =
        byteAt raw (rawOffset stride r i) := by
      rw [decOp_eq, encOp_eq]
      simp [filterWindow, windowAt]
    have ht : raw.take (rawOffset stride r i) ++ [byteAt raw (rawOffset stride r i)] =
        raw.take (rawOffset stride r (i + 1)) := by
      have : rawOffset stride r (i + 1) = rawOffset stride r i + 1 := rfl
      rw [this, List.take_add_one]
      simp [byteAt, List.getD, List.getElem?_eq_getElem hlt]
    rw [reconBytes, hw, hb, ht, ih (i + 1) (by omega)]

theorem s8_abs (v : Byte) : (s8 v).natAbs = min v.toNat (256 - v.toNat) := by
  have := v.isLt; unfold s8; split <;> omega

theorem scoreAt_eq (raw st r f) : scoreAt (scoresOf (candidates raw st r)) f = score (filterRow raw st r f) := by cases f <;> rfl

theorem selectRows_length (raw : Bytes) (stride : Nat) : ∀ n r : Nat, (selectRows raw stride n r).length = n := by
  intro n
  induction n with
  | zero => intro r; rfl
  | succ n ih => intro r; simp [selectRows, ih]

/-- R230: row `r + k` of the rows selected from `r`. -/
theorem selectRows_getElem (raw : Bytes) (stride : Nat) : ∀ n r k : Nat, k < n →
    (selectRows raw stride n r)[k]? = some (selectRow raw stride (r + k)) := by
  intro n
  induction n with
  | zero => intro r k hk; omega
  | succ n ih =>
    intro r k hk
    cases k with
    | zero => rfl
    | succ k =>
      rw [selectRows, List.getElem?_cons_succ, ih (r + 1) k (by omega), show r + 1 + k = r + (k + 1) by omega]

theorem selectKinds_length (raw : Bytes) (w h : U32) : (selectKinds raw w h).length = h.toNat := selectRows_length _ _ _ _

end Sys2Proof.Machine
end

