-- ==== Sys2Proof/Laws/Header.lean ====
section
/-! SUPPORT. The header checks, and the operand of a command (R153, R251). -/

namespace Sys2Proof.Machine

/-- R153, R10: an accepted header has positive dimensions. -/
theorem validate_dims {H : Header} (h : validate H = .ok ()) : H.width ≠ 0 ∧ H.height ≠ 0 := by
  simp only [validate] at h
  split at h
  · cases h
  split at h
  · cases h
  split at h
  · cases h
  split at h
  · cases h
  split at h
  · cases h
  split at h
  · cases h
  split at h
  · cases h
  · rename_i a b; exact ⟨a, b⟩

/-- R153: a header with every field as required is accepted. -/
theorem validate_of_valid {H : Header} (h1 : H.compression = 0) (h2 : H.filter = 0) (h3 : H.colorType = 6)
    (h4 : H.bitDepth = 8) (h5 : H.interlace = 0) (h6 : H.width ≠ 0) (h7 : H.height ≠ 0) : validate H = .ok () := by
  rw [validate, if_neg (not_not.2 h1), if_neg (not_not.2 h2), if_neg (not_not.2 h3), if_neg (not_not.2 h4),
    if_neg (not_not.2 h5), if_neg h6, if_neg h7]

/-- R251: so has the header DECODE goes on with. -/
theorem checkChunks_dims {cs : List Chunk} {H : Header} {Z : Bytes} (h : checkChunks cs = .ok (H, Z)) : H.width ≠ 0 ∧ H.height ≠ 0 := by
  simp only [checkChunks] at h
  split at h
  · split at h
    · split at h
      · split at h
        · cases h
        · rename_i hv
          cases h
          exact validate_dims hv
      · cases h
    · cases h
  · cases h

/-- R43: the bytes read depend on the offsets read alone. -/
theorem memory_bytes_congr {m n : Memory} {k : Nat} (h : ∀ o, o < k → m.read o = n.read o) : m.bytes 0 k = n.bytes 0 k := by
  cases hm : m.bytes 0 k with
  | some bs =>
    obtain ⟨a, b⟩ := (bytes_eq_some_iff _ _ _ _).1 hm
    exact ((bytes_eq_some_iff _ _ _ _).2 ⟨a, fun j hj => by rw [Nat.zero_add, ← h j hj]; have := b j hj; rwa [Nat.zero_add] at this⟩).symm
  | none =>
    cases hn : n.bytes 0 k with
    | none => rfl
    | some bs =>
      obtain ⟨a, b⟩ := (bytes_eq_some_iff _ _ _ _).1 hn
      have := (bytes_eq_some_iff m k 0 bs).2 ⟨a, fun j hj => by rw [Nat.zero_add, h j hj]; have := b j hj; rwa [Nat.zero_add] at this⟩
      rw [hm] at this; cases this

end Sys2Proof.Machine
end

