-- ==== Sys2Proof/Laws/Safety.lean ====
section
/-! SUPPORT. The invariant under the updates a step makes: other internal items, an error, a committed result. -/

namespace Sys2Proof.Machine

theorem inv_withEng {s : State} {e : Engine} (h : s.Inv) (hb : s.status = .busy) (hl : ∀ c ∈ e.list, ChunkOk c) (hpos : e.pos ≤ s.inLen)
   (hrow : e.row ≤ e.height.toNat) (hopen : e.op ≠ none → e.row < e.height.toNat) (hcol : e.col ≤ strideOf e.width)
   (hclosed : e.op = none → e.col = 0) (hfresh : phaseBeforeRows e.phase = true → e.op = none ∧ e.row = 0 ∧ e.out = [])
   (hdims : phaseHasDims e.phase = true → e.width ≠ 0 ∧ e.height ≠ 0)
   (hout : e.phase = .recon → e.out.length = rawOffset (strideOf e.width) e.row e.col) : (s.withEng e).Inv := by
  exact { h with
    listOk := hl, restOutside := fun hn => absurd hb hn, posInside := hpos, rowInside := hrow, rowOpen := hopen
    colInside := hcol, colClosed := hclosed, rowsFresh := hfresh, dimsPositive := hdims, outHeld := hout }

theorem errRegs_cls (e : Err) : (errRegs e).cls ≠ 0 ∧ ((errRegs e).sub ≠ 0 → (errRegs e).cls = classFormat) := by
  have h1 : (1 : BitVec 2) ≠ 0 := by decide
  have h2 : (2 : BitVec 2) ≠ 0 := by decide
  have h3 : (3 : BitVec 2) ≠ 0 := by decide
  cases e <;> first | exact ⟨h1, fun _ => rfl⟩ | exact ⟨h2, fun h => absurd rfl h⟩ | exact ⟨h3, fun h => absurd rfl h⟩

theorem inv_raise {s : State} (h : s.Inv) (e : Err) : (raise e s).Inv where
  inWf := h.inWf
  kindWf := rfl
  outExtent := ⟨rfl, fun o => by simp [raise]⟩
  chunkCount := rfl
  lostInside := by intro i hi; cases hi
  lostSorted := .nil
  chunksOk := by intro c hc; cases hc
  listOk := by intro c hc; cases hc
  noError := fun h => absurd rfl h
  errorClass := fun _ => (errRegs_cls e).1
  subOnlyFormat := (errRegs_cls e).2
  resultsOnlyDone := fun _ => ⟨rfl, rfl, rfl⟩
  kindsOnlyDone := fun _ => rfl
  diagHeld := by intro i hi; cases hi
  diagSorted := .nil
  headerAccepted := by intro h; cases h
  headerAbsent := fun _ => rfl
  restOutside := fun _ => rfl
  posInside := Nat.zero_le _
  rowInside := Nat.zero_le _
  rowOpen := fun h => absurd rfl h
  colInside := Nat.zero_le _
  colClosed := fun _ => rfl
  rowsFresh := fun _ => ⟨rfl, rfl, rfl⟩
  dimsPositive := by intro h; cases h
  outHeld := by intro h; cases h

theorem inv_commit {s : State} (h : s.Inv) {r : Result} (hc : ∀ c ∈ r.chunks, ChunkOk c)
    (hd : ∀ d, r.dims = some d → d.1 ≠ 0 ∧ d.2 ≠ 0) : (commit r s).Inv where
  inWf := h.inWf
  kindWf := by
    cases hk : r.kinds with
    | none => simp only [commit, hk]; exact h.kindWf
    | some ks => simp only [commit, hk]; exact ofBytes_wf _
  outExtent := ⟨ofBytes_wf _, fun o => ofBytes_isSome _ o⟩
  chunkCount := rfl
  lostInside := by intro i hi; cases hi
  lostSorted := .nil
  chunksOk := hc
  listOk := by intro c hc; cases hc
  noError := fun _ => rfl
  errorClass := by intro h; cases h
  subOnlyFormat := fun h => absurd rfl h
  resultsOnlyDone := fun h => absurd rfl h
  kindsOnlyDone := fun h => absurd rfl h
  diagHeld := by
    intro i hi
    cases hk : r.kinds with
    | none => rw [commit_kindDiag_none hk] at hi; rw [commit_kind_none hk]; exact h.diagHeld i hi
    | some ks =>
      rw [commit_kindDiag_some hk] at hi
      split at hi
      · rw [commit_kind_some hk, ofBytes_isSome]; simpa [kindCodes] using hi
      · cases hi
  diagSorted := by
    cases hk : r.kinds with
    | none => rw [commit_kindDiag_none hk]; exact h.diagSorted
    | some ks =>
      rw [commit_kindDiag_some hk]
      split
      · exact List.pairwise_lt_range
      · exact .nil
  headerAccepted := by
    intro hv
    cases hk : r.dims with
    | none => simp [commit, hk] at hv
    | some d => simp only [commit, hk]; exact ⟨rfl, hd d hk⟩
  headerAbsent := by
    intro hv
    cases hk : r.dims with
    | none => simp only [commit, hk]
    | some d => simp [commit, hk] at hv
  restOutside := fun _ => rfl
  posInside := Nat.zero_le _
  rowInside := Nat.zero_le _
  rowOpen := fun h => absurd rfl h
  colInside := Nat.zero_le _
  colClosed := fun _ => rfl
  rowsFresh := fun _ => ⟨rfl, rfl, rfl⟩
  dimsPositive := by intro h; cases h
  outHeld := by intro h; cases h

/-- R70: what a command's writes leave in the spaces that share their storage. -/
theorem inv_spill {s : State} (h : s.Inv) (w : Writes) : (spill w s).Inv :=
  { h with
    inWf := spreadIn_wf _ _ _ h.inWf
    kindWf := spread_wf _ _ _ _ _ h.kindWf
    diagHeld := fun i hi => by rw [spill_kind_isSome]; exact h.diagHeld i (List.mem_filter.1 hi).1
    diagSorted := h.diagSorted.filter _ }

theorem inv_finish {s t : State} (h : s.Inv) {r : Result} (hf : finish r s = .next t) (hc : ∀ c ∈ r.chunks, ChunkOk c)
    (hd : ∀ d, r.dims = some d → d.1 ≠ 0 ∧ d.2 ≠ 0) : t.Inv := by
  simp only [finish] at hf
  split at hf
  · split at hf
    · cases hf; exact inv_spill (inv_commit h hc hd) _
    · cases hf
  · cases hf

end Sys2Proof.Machine
end

