-- ==== Sys2Proof/Laws/Host.lean ====
section
/-! SUPPORT. The host's accesses: the numbering of the registers, what a write stores, and that it keeps the
invariant. -/

namespace Sys2Proof.Machine

/-- R28: the index of a register names it, and no other index names a register. -/
theorem regOfIndex_eq_some_iff (n : Nat) (r : Reg) : regOfIndex n = some r ↔ n = regIndex r := by
  constructor
  · intro h
    by_cases hn : n < 24
    · have : ∀ m : Fin 24, regOfIndex m.val = some r → m.val = regIndex r := by cases r <;> decide
      exact this ⟨n, hn⟩ h
    · rw [regOfIndex, List.getElem?_eq_none (by simp; omega)] at h; cases h
  · rintro rfl; cases r <;> rfl

/-- R11: a host access at an address mapped to a register is the access of that register. -/
theorem hostReadAt_reg {a : Nat} {r : Reg} {s : State} (h : busPlace s.regMap.regions a = some (.regs, regIndex r)) :
    hostReadAt a s = answer .number (hostRead r s) := by
  simp only [hostReadAt, h, (regOfIndex_eq_some_iff _ _).2 rfl]

theorem hostWriteAt_reg {a v : Nat} {r : Reg} {s : State} (h : busPlace s.regMap.regions a = some (.regs, regIndex r)) :
    hostWriteAt a v s = hostWrite r v s := by
  simp only [hostWriteAt, h, (regOfIndex_eq_some_iff _ _).2 rfl]

/-- R40: an offset is inside a capacity exactly where no capacity bounds it or it is below it. -/
theorem insideCap_iff (cap : Option Nat) (o : Nat) : insideCap cap o = true ↔ ∀ c, cap = some c → o < c := by
  cases cap <;> simp [insideCap]

/-- R29: a code from 1 to 6 names a command and no other does. -/
theorem commandOfCode_isSome (v : Byte) : (commandOfCode v).isSome = true ↔ 1 ≤ v.toNat ∧ v.toNat ≤ 6 := by
  revert v; decide +kernel

/-- The state owns the block where a command runs. -/
theorem not_busy_of_not_owned {s : State} (h : owned s = false) : s.status ≠ .busy := by
  intro hb; simp [owned, hb] at h

/-- R28: a state with another argument register, length, `CMD` or byte stored meets the invariant. -/
theorem inv_hostWrite {s t : State} {r : Reg} {v : Nat} (h : s.Inv) (hw : hostWrite r v s = .next t) : t.Inv := by
  simp only [hostWrite] at hw
  split at hw
  · cases hw
  rename_i ho
  have hpos : s.eng.pos = 0 := by rw [h.restOutside (not_busy_of_not_owned (by simpa using ho))]; rfl
  have arg : ∀ f : U32 → State, writeArg v f = .next t → (∀ x, (f x).Inv) → t.Inv := by
    intro f hw hf
    simp only [writeArg] at hw
    split at hw
    · cases hw; exact hf _
    · cases hw
  cases r <;> simp only [writeReg] at hw <;> try (cases hw; done)
  · simp only [writeCmd] at hw
    split at hw
    · split at hw
      · cases hw
      · cases hw; exact { h with }
    · cases hw
  · exact arg _ hw (fun x => { h with })
  · exact arg _ hw (fun x => { h with })
  · exact arg _ hw (fun x => { h with })
  · cases hw; exact { h with posInside := by rw [hpos]; exact Nat.zero_le _ }
  · cases hw; exact { h with }

/-- R40: a byte of `IN` stored. -/
theorem inv_storeIn {s : State} (h : s.Inv) (o : Nat) (v : Byte) : (storeIn o v s).Inv :=
  { h with inWf := write_wf o v h.inWf }

/-- R38: an entry of `KIND` stored; it is no diagnostic any more. -/
theorem inv_storeKind {s : State} (h : s.Inv) (i : Nat) (v : Byte) : (storeKind i v s).Inv := by
  refine { h with kindWf := write_wf i v h.kindWf, diagHeld := ?_, diagSorted := h.diagSorted.filter _ }
  intro j hj
  change ((s.kind.write i v).read j).isSome = true
  rw [read_write]
  split
  · rfl
  · exact h.diagHeld j (List.mem_filter.1 hj).1

/-- R70: all that a byte stored in another space does to `IN`. -/
theorem echoIn_cases (a : Option Nat) (o : Nat) (v : Byte) (s : State) : ∃ m : Memory, echoIn a o v s = { s with inp := m } ∧
    ∀ p, m.read p = if sharedOffset a s.regMap.storage.inCell o = some p ∧ insideCap s.caps.capIn p = true then some v
      else s.inp.read p := by
  simp only [echoIn]
  cases hs : sharedOffset a s.regMap.storage.inCell o with
  | none => exact ⟨s.inp, rfl, fun p => by simp⟩
  | some j =>
    by_cases hc : insideCap s.caps.capIn j = true
    · refine ⟨s.inp.write j v, by simp only [if_pos hc]; rfl, fun p => ?_⟩
      rw [read_write]
      by_cases hp : p = j
      · subst hp; simp [hc]
      · simp [hp, Ne.symm hp]
    · refine ⟨s.inp, by simp only [if_neg hc], fun p => ?_⟩
      rw [if_neg]; rintro ⟨h, h'⟩; cases h; exact hc h'

/-- R70: all that it does to `KIND` and its diagnostics. -/
theorem echoKind_cases (a : Option Nat) (o : Nat) (v : Byte) (s : State) : ∃ (m : Memory) (d : List Nat),
    echoKind a o v s = { s with kind := m, kindDiag := d } ∧
    (∀ p, m.read p = if sharedOffset a s.regMap.storage.kindCell o = some p ∧ insideCap s.caps.capKind p = true then some v
      else s.kind.read p) ∧
    ∀ p, p ∈ d ↔ p ∈ s.kindDiag ∧
      ¬(sharedOffset a s.regMap.storage.kindCell o = some p ∧ insideCap s.caps.capKind p = true) := by
  simp only [echoKind]
  cases hs : sharedOffset a s.regMap.storage.kindCell o with
  | none => exact ⟨s.kind, s.kindDiag, rfl, fun p => by simp, fun p => by simp⟩
  | some j =>
    by_cases hc : insideCap s.caps.capKind j = true
    · refine ⟨s.kind.write j v, s.kindDiag.filter (fun i => decide (i ≠ j)), by simp only [if_pos hc]; rfl, fun p => ?_,
        fun p => ?_⟩
      · rw [read_write]
        by_cases hp : p = j
        · subst hp; simp [hc]
        · simp [hp, Ne.symm hp]
      · by_cases hp : p = j
        · subst hp; simp [hc]
        · simp [hp, Ne.symm hp]
    · have hn : ∀ p, ¬(some j = some p ∧ insideCap s.caps.capKind p = true) := by
        rintro p ⟨h, h'⟩; cases h; exact hc h'
      exact ⟨s.kind, s.kindDiag, by simp only [if_neg hc], fun p => by rw [if_neg (hn p)],
        fun p => ⟨fun h => ⟨h, hn p⟩, fun h => h.1⟩⟩

/-- R70, R35: all that it does to `OUT`. -/
theorem echoOut_cases (a : Option Nat) (o : Nat) (v : Byte) (s : State) : ∃ m : Memory, echoOut a o v s = { s with out := m } ∧
    ∀ p, m.read p = if sharedOffset a s.regMap.storage.outCell o = some p ∧ p < s.outLen then some v else s.out.read p := by
  simp only [echoOut]
  cases hs : sharedOffset a s.regMap.storage.outCell o with
  | none => exact ⟨s.out, rfl, fun p => by simp⟩
  | some j =>
    by_cases hc : j < s.outLen
    · refine ⟨s.out.write j v, by simp only [if_pos hc], fun p => ?_⟩
      rw [read_write]
      by_cases hp : p = j
      · subst hp; simp [hc]
      · simp [hp, Ne.symm hp]
    · refine ⟨s.out, by simp only [if_neg hc], fun p => ?_⟩
      rw [if_neg]; rintro ⟨h, h'⟩; cases h; exact hc h'

/-- R70: all that it does to `CHUNKS`. -/
theorem echoChunks_cases (a : Option Nat) (o : Nat) (s : State) : ∃ l : List Nat,
    echoChunks a o s = { s with chunksLost := l } ∧
    ∀ p, p ∈ l ↔ p ∈ s.chunksLost ∨ sharedOffset a s.regMap.storage.chunkCell o = some p ∧ p < s.nChunks := by
  simp only [echoChunks]
  cases hs : sharedOffset a s.regMap.storage.chunkCell o with
  | none => exact ⟨s.chunksLost, rfl, fun p => by simp⟩
  | some j =>
    by_cases hc : j < s.nChunks
    · refine ⟨insertRising j s.chunksLost, by simp only [if_pos hc], fun p => ?_⟩
      rw [mem_insertRising]
      constructor
      · rintro (rfl | h)
        · exact .inr ⟨rfl, hc⟩
        · exact .inl h
      · rintro (h | ⟨h, _⟩)
        · exact .inr h
        · cases h; exact .inl rfl
    · refine ⟨s.chunksLost, by simp only [if_neg hc], fun p => ?_⟩
      refine ⟨.inl, ?_⟩
      rintro (h | ⟨h, h'⟩)
      · exact h
      · cases h; exact absurd h' hc

/-- R70: a byte stored in another space, as each of the four sees it. -/
theorem inv_echoIn {s : State} (h : s.Inv) (a : Option Nat) (o : Nat) (v : Byte) : (echoIn a o v s).Inv := by
  simp only [echoIn]
  split
  · exact h
  · split
    · exact inv_storeIn h _ v
    · exact h

theorem inv_echoKind {s : State} (h : s.Inv) (a : Option Nat) (o : Nat) (v : Byte) : (echoKind a o v s).Inv := by
  simp only [echoKind]
  split
  · exact h
  · split
    · exact inv_storeKind h _ v
    · exact h

theorem inv_echoOut {s : State} (h : s.Inv) (a : Option Nat) (o : Nat) (v : Byte) : (echoOut a o v s).Inv := by
  simp only [echoOut]
  split
  · exact h
  · split
    · rename_i j _ hj
      refine { h with outExtent := ⟨write_wf j v h.outExtent.1, fun p => ?_⟩ }
      rw [read_write]
      split
      · rename_i hp; simp [hp, hj]
      · exact h.outExtent.2 p
    · exact h

theorem inv_echoChunks {s : State} (h : s.Inv) (a : Option Nat) (o : Nat) : (echoChunks a o s).Inv := by
  simp only [echoChunks]
  split
  · exact h
  · split
    · rename_i j _ hj
      refine { h with lostInside := fun i hi => ?_, lostSorted := insertRising_sorted _ h.lostSorted }
      rcases (mem_insertRising _ _ _).1 hi with rfl | hi
      · exact hj
      · exact h.lostInside i hi
    · exact h

theorem inv_hostWriteIn {s t : State} {o : Nat} {v : Byte} (h : s.Inv) (hw : hostWriteIn o v s = .next t) : t.Inv := by
  simp only [hostWriteIn] at hw
  split at hw
  · cases hw
  split at hw
  · cases hw; exact inv_echoChunks (inv_echoOut (inv_echoKind (inv_storeIn h o v) _ o v) _ o v) _ o
  · cases hw

theorem inv_hostWriteKind {s t : State} {i : Nat} {v : Byte} (h : s.Inv) (hw : hostWriteKind i v s = .next t) :
    t.Inv := by
  simp only [hostWriteKind] at hw
  split at hw
  · cases hw
  split at hw
  · cases hw; exact inv_echoChunks (inv_echoOut (inv_echoIn (inv_storeKind h i v) _ i v) _ i v) _ i
  · cases hw

/-- R70: a write at a bus address is one of the writes by name. -/
theorem inv_hostWriteAt {s t : State} {a v : Nat} (h : s.Inv) (hw : hostWriteAt a v s = .next t) : t.Inv := by
  simp only [hostWriteAt] at hw
  split at hw
  · cases hw
  · split at hw
    · cases hw
    · exact inv_hostWrite h hw
  · simp only [writeByte] at hw
    split at hw
    · exact inv_hostWriteIn h hw
    · cases hw
  · cases hw
  · simp only [writeByte] at hw
    split at hw
    · exact inv_hostWriteKind h hw
    · cases hw
  · cases hw

end Sys2Proof.Machine
end

