-- ==== Sys2Proof/Laws/Sequencer.lean ====
section
/-! SUPPORT. The sequencer: what each kind of step answers. -/

namespace Sys2Proof.Machine

theorem exec_recon (f : FilterKind) (s : State) : exec (reconInstr f) s = reconRecord f s := by cases f <;> rfl

theorem exec_filter (f : FilterKind) (s : State) : exec (filterInstr f) s = filterRecord f s := by cases f <;> rfl

theorem exec_chunkOfHead (len : U32) (tag : Tag) (s : State) :
    exec (chunkOfHead len tag) s = chunkRecord tag len (if tag = tagIend then .merge else .chunks) s := by
  simp only [chunkOfHead]
  split
  · rename_i h; subst h; rw [if_neg (by decide)]; rfl
  split
  · rename_i h; subst h; rw [if_neg (by decide)]; rfl
  split
  · rename_i h; subst h; rfl
  · rfl

theorem exec_dec (f : FilterKind) (s : State) : exec (decInstr f) s = storeReconstructed (decOp f s.eng.w) s := by cases f <;> rfl

theorem exec_enc (f : FilterKind) (s : State) : exec (encInstr f) s = storeFiltered (encOp f s.eng.w) s := by cases f <;> rfl

theorem step_busy {s : State} (h : s.status = .busy) (ho : s.eng.op = none) : step s = stepPhase s := by
  simp only [step, h, if_true, engineStep, ho]

theorem step_with {b : State} {e : Engine} (hb : b.status = .busy) (ho : e.op = none) :
    step (b.withEng e) = stepPhase (b.withEng e) := step_busy (s := b.withEng e) hb ho

theorem step_byte {s : State} {f : FilterKind} (hb : s.status = .busy) (ho : s.eng.op = some f) : step s = stepByte f s := by
  simp only [step, hb, if_true, engineStep, ho]

theorem run_step {s s' : State} (n : Nat) (h : step s = .next s') : core.run (n + 1) s = core.run n s' := by
  have h2 : core.step s = .next s' := h
  simp only [Host.Core.run, h2]

theorem run_one (s : State) : core.run 1 s = step s := by
  have : ∀ o : Outcome, (match o with | .next s' => Host.Outcome.next s' | .fault r => .fault r | .refused r => .refused r) = o := by
    intro o; cases o <;> rfl
  have h2 : core.step s = step s := rfl
  simp only [Host.Core.run, h2]
  cases step s <;> rfl

theorem fetchChunk_record {s : State} {IN : Bytes} {len : U32} {tag : Tag} (h0 : s.eng.pos ≠ 0) (hi : s.input = IN)
    (hr : recordHead IN s.eng.pos = .ok (len, tag)) :
    fetchChunk s = chunkRecord tag len (if tag = tagIend then .merge else .chunks) s := by
  have h12 : Config.chunkOverhead = 12 := rfl
  have hl : s.eng.pos + 12 ≤ IN.length ∧ len = u32At IN s.eng.pos ∧ tag = tagAt IN (s.eng.pos + 4) := by
    simp only [recordHead] at hr
    split at hr
    · cases hr
    split at hr
    · cases hr
    · cases hr; exact ⟨by omega, rfl, rfl⟩
  have hd : decode .chunk (slice IN s.eng.pos 8) = .ok (chunkOfHead len tag, []) := by
    have hlen : (slice IN s.eng.pos 8).length = 8 := by simp [slice]; omega
    simp only [decode]
    rw [if_neg (by omega), (slice8 IN _).1, (slice8 IN _).2, ← hl.2.1, ← hl.2.2]
    rw [List.drop_eq_nil_of_le (by omega)]
  simp only [fetchChunk, if_neg h0, hi, hr, hd]
  exact exec_chunkOfHead len tag s

theorem fetchChunk_error {s : State} {IN : Bytes} {er : Err} (h0 : s.eng.pos ≠ 0) (hi : s.input = IN)
    (hr : recordHead IN s.eng.pos = .error er) : fetchChunk s = .next (raise er s) := by
  simp only [fetchChunk, if_neg h0, hi, hr]

theorem fetchRecon_step {s : State} (hrow : s.eng.row < s.eng.height.toNat)
    (hout : s.eng.out.length = s.eng.row * strideOf s.eng.width) :
    fetchRecon s = match reconStep s.eng.f (strideOf s.eng.width) s.eng.row s.eng.out with
      | .error e => .next (raise e s)
      | .ok (f, out') => .next (s.withEng { s.eng with kinds := s.eng.kinds ++ [f], out := out', row := s.eng.row + 1, col := 0 }) := by
  simp only [fetchRecon, reconStep]
  rw [if_neg (by omega)]
  split
  · rfl
  · rename_i hlen
    have hd : s.eng.f.drop (recordOffset (strideOf s.eng.width) s.eng.row) =
        byteAt s.eng.f (recordOffset (strideOf s.eng.width) s.eng.row) :: s.eng.f.drop (recordOffset (strideOf s.eng.width) s.eng.row + 1) := by
      rw [List.drop_eq_getElem_cons (by omega)]
      simp [byteAt, List.getD, List.getElem?_eq_getElem (show recordOffset (strideOf s.eng.width) s.eng.row < s.eng.f.length by omega)]
    rw [hd]
    simp only [decode, decodeByte]
    cases hk : kindOfCode (byteAt s.eng.f (recordOffset (strideOf s.eng.width) s.eng.row)) with
    | none => rfl
    | some f =>
      simp only [Option.map_some]
      rw [exec_recon, reconRecord]
      split
      · rfl
      · rw [if_neg (by simpa [rawOffset] using hout)]

theorem fetchRecon_end {s : State} (h : s.eng.height.toNat ≤ s.eng.row) : fetchRecon s = finish (reconEnd s.eng) s := if_pos h

theorem fetchFilter_step {s : State} {raw : Bytes} {f : FilterKind} (hi : s.input = raw) (hrow : s.eng.row < s.eng.height.toNat)
    (hk : s.eng.kinds[s.eng.row]? = some f) (hl : s.eng.height.toNat * strideOf s.eng.width ≤ raw.length) :
    fetchFilter s = .next (s.withEng { s.eng with
        f := s.eng.f ++ filterScanline raw (strideOf s.eng.width) s.eng.row f
        row := s.eng.row + 1, col := 0, phase := afterFilter s.eng.cmd }) := by
  have hle : (s.eng.row + 1) * strideOf s.eng.width ≤ s.eng.height.toNat * strideOf s.eng.width := Nat.mul_le_mul_right _ (by omega)
  simp only [fetchFilter, hk]
  rw [if_neg (by omega)]
  simp only [decode, decodeByte, kindOfCode_code, Option.map_some]
  rw [exec_filter, filterRecord, hi]
  simp only []
  rw [if_neg (by simp only [rawOffset]; omega)]

theorem fetchFilter_end {s : State} (h : s.eng.height.toNat ≤ s.eng.row) : fetchFilter s = finish (filterResult s.eng.f) s := if_pos h

theorem fetchChoose_end_select {s : State} (h : s.eng.height.toNat ≤ s.eng.row) (hc : s.eng.cmd ≠ some .encode) :
    fetchChoose s = finish (selectResult s.eng.kinds) s := by
  simp only [fetchChoose]; rw [if_neg (by omega), if_neg hc]

theorem fetchChoose_end_encode {s : State} (h : s.eng.height.toNat ≤ s.eng.row) (hc : s.eng.cmd = some .encode) :
    fetchChoose s = .next (s.withEng { s.eng with phase := .deflate }) := by
  simp only [fetchChoose]; rw [if_neg (by omega), if_pos hc]

theorem fetchChoose_select {s : State} {raw : Bytes} (hi : s.input = raw) (h : s.eng.row < s.eng.height.toNat)
    (hl : s.eng.height.toNat * strideOf s.eng.width ≤ raw.length) (hc : s.eng.cmd ≠ some .encode) :
    fetchChoose s = .next (s.withEng { s.eng with
        cand := candidates raw (strideOf s.eng.width) s.eng.row
        scores := scoresOf (candidates raw (strideOf s.eng.width) s.eng.row)
        best := selectRow raw (strideOf s.eng.width) s.eng.row
        kinds := s.eng.kinds ++ [selectRow raw (strideOf s.eng.width) s.eng.row]
        row := s.eng.row + 1
        phase := .choose }) := by
  have hle : (s.eng.row + 1) * strideOf s.eng.width ≤ s.eng.height.toNat * strideOf s.eng.width := Nat.mul_le_mul_right _ (by omega)
  simp only [fetchChoose, chooseRow, hi]
  rw [if_pos h, if_neg (by simp only [rawOffset]; omega), if_neg hc, if_neg hc]

theorem fetchChoose_encode {s : State} {raw : Bytes} (hi : s.input = raw) (h : s.eng.row < s.eng.height.toNat)
    (hl : s.eng.height.toNat * strideOf s.eng.width ≤ raw.length) (hc : s.eng.cmd = some .encode) :
    fetchChoose s = .next (s.withEng { s.eng with
        cand := candidates raw (strideOf s.eng.width) s.eng.row
        scores := scoresOf (candidates raw (strideOf s.eng.width) s.eng.row)
        best := selectRow raw (strideOf s.eng.width) s.eng.row
        kinds := s.eng.kinds ++ [selectRow raw (strideOf s.eng.width) s.eng.row]
        row := s.eng.row
        phase := .filt }) := by
  have hle : (s.eng.row + 1) * strideOf s.eng.width ≤ s.eng.height.toNat * strideOf s.eng.width := Nat.mul_le_mul_right _ (by omega)
  simp only [fetchChoose, chooseRow, hi]
  rw [if_pos h, if_neg (by simp only [rawOffset]; omega), if_pos hc, if_pos hc]

theorem mergeList_parse {s : State} (hc : s.eng.cmd ≠ some .decode) : mergeList s = finish (parseResult (merge s.eng.list)) s := if_neg hc

theorem mergeList_error {s : State} {er : Err} (hc : s.eng.cmd = some .decode) (h : checkChunks (merge s.eng.list) = .error er) :
    mergeList s = .next (raise er s) := by
  simp only [mergeList, if_pos hc, h]

theorem mergeList_ok {s : State} {H : Header} {Z : Bytes} (hc : s.eng.cmd = some .decode) (h : checkChunks (merge s.eng.list) = .ok (H, Z)) :
    mergeList s = .next (s.withEng { s.eng with list := merge s.eng.list, width := H.width, height := H.height, z := Z, phase := .inflate }) := by
  simp only [mergeList, if_pos hc, h]

theorem stepReconByte_next {s : State} {f : FilterKind} (hc : s.eng.col < strideOf s.eng.width)
    (hF : filteredOffset (strideOf s.eng.width) s.eng.row s.eng.col < s.eng.f.length)
    (hout : s.eng.out.length = rawOffset (strideOf s.eng.width) s.eng.row s.eng.col) :
    stepReconByte f s = .next (s.withEng { s.eng with
      out := s.eng.out ++ [decOp f (reconWindow s.eng.f s.eng.out (strideOf s.eng.width) s.eng.row s.eng.col)]
      col := s.eng.col + 1, w := Window.zero }) := by
  simp only [stepReconByte]
  rw [if_neg (by omega), if_neg (by omega), exec_dec]
  rfl

theorem stepReconByte_close {s : State} {f : FilterKind} (hc : strideOf s.eng.width ≤ s.eng.col) :
    stepReconByte f s = .next (s.withEng { s.eng with op := none, row := s.eng.row + 1, col := 0 }) := if_pos hc

theorem stepFilterByte_next {s : State} {f : FilterKind} {raw : Bytes} (hi : s.input = raw) (hc : s.eng.col < strideOf s.eng.width)
    (hl : rawOffset (strideOf s.eng.width) s.eng.row s.eng.col < raw.length) :
    stepFilterByte f s = .next (s.withEng { s.eng with
      rowBuf := s.eng.rowBuf ++ [encOp f (filterWindow raw (strideOf s.eng.width) s.eng.row s.eng.col)]
      col := s.eng.col + 1, w := Window.zero }) := by
  simp only [stepFilterByte, hi]
  rw [if_neg (by omega), if_neg (by omega), exec_enc]
  rfl

theorem stepFilterByte_close {s : State} {f : FilterKind} {raw : Bytes} (hi : s.input = raw) (hc : strideOf s.eng.width ≤ s.eng.col) :
    stepFilterByte f s = .next (s.withEng { s.eng with
        f := s.eng.f ++ (f.code :: s.eng.rowBuf), rowBuf := [], op := none
        row := s.eng.row + 1, col := 0, phase := afterFilter s.eng.cmd }) := by
  simp only [stepFilterByte, hi]
  exact if_pos hc

theorem stepByte_recon {s : State} (f : FilterKind) (hp : s.eng.phase = .recon) : stepByte f s = stepReconByte f s := by
  simp only [stepByte, hp]

theorem stepByte_filt {s : State} (f : FilterKind) (hp : s.eng.phase = .filt) : stepByte f s = stepFilterByte f s := by
  simp only [stepByte, hp]

end Sys2Proof.Machine
end

