-- ==== Sys2Proof/Laws/Loops.lean ====
section
/-! SUPPORT. The loops of the sequencer are the loops of the spec: the record loop, the row loops and the byte loops. -/

namespace Sys2Proof.Machine

/-- The machine arrives at an outcome. -/
def Arrives (s : State) (o : Outcome) : Prop := ∃ n : Nat, core.run n s = o

theorem arrives_step {s s' : State} {o : Outcome} (h : step s = .next s') (h' : Arrives s' o) : Arrives s o := by
  obtain ⟨n, hn⟩ := h'
  have h2 : core.step s = .next s' := h
  exact ⟨n + 1, by simp only [Host.Core.run, h2]; exact hn⟩

theorem arrives_last {s : State} {o : Outcome} (h : step s = o) : Arrives s o := by
  have h2 : core.step s = o := h
  exact ⟨1, by simp only [Host.Core.run, h2]; cases o <;> rfl⟩

/-- The record loop of the sequencer is `parseLoop`. -/
theorem arrives_chunks {b : State} {IN : Bytes} {o : Outcome} (hb : b.status = .busy) (hi : b.input = IN) :
    ∀ (fuel : Nat) (e : Engine), e.op = none → e.phase = .chunks → e.pos ≠ 0 → IN.length ≤ e.pos + fuel →
    (∀ err, parseLoop IN fuel e.pos e.list = .error err → o = .next (raise err b)) →
    (∀ list pos acc, parseLoop IN fuel e.pos e.list = .ok list →
      Arrives (b.withEng { e with list := list, pos := pos, crcAcc := acc, phase := .merge }) o) →
    Arrives (b.withEng e) o := by
  intro fuel
  induction fuel with
  | zero =>
    intro e ho hp h0 hl herr hok
    rw [herr _ rfl]
    apply arrives_last
    have : recordHead IN e.pos = .error (.missingIend e.pos) := by
      simp only [recordHead]; rw [if_pos (by omega)]
    rw [step_with hb ho]
    simp only [stepPhase, withEng_eng, hp]
    rw [fetchChunk_error (s := b.withEng e) h0 hi this]
    rfl
  | succ fuel ih =>
    intro e ho hp h0 hl herr hok
    have hs : step (b.withEng e) = fetchChunk (b.withEng e) := by
      rw [step_with hb ho]; simp only [stepPhase, withEng_eng, hp]
    cases hr : recordHead IN e.pos with
    | error er =>
      rw [herr er (by simp only [parseLoop, hr])]
      apply arrives_last
      rw [hs, fetchChunk_error (s := b.withEng e) h0 hi hr]
      rfl
    | ok p =>
      obtain ⟨len, tag⟩ := p
      have hf := fetchChunk_record (s := b.withEng e) h0 hi hr
      cases hfr : frame IN e.pos len tag with
      | error er =>
        rw [herr er (by simp only [parseLoop, hr, hfr])]
        apply arrives_last
        rw [hs, hf]
        simp only [chunkRecord, withEng_eng, show (b.withEng e).input = IN from hi, hfr]
        rfl
      | ok ch =>
        have hstep : step (b.withEng e) = .next (b.withEng { e with
            list := e.list ++ [ch], pos := nextPos e.pos len, crcAcc := 0, phase := if tag = tagIend then .merge else .chunks }) := by
          rw [hs, hf]
          simp only [chunkRecord, withEng_eng, show (b.withEng e).input = IN from hi, hfr]
          rfl
        apply arrives_step hstep
        by_cases ht : tag = tagIend
        · rw [if_pos ht]
          exact hok _ _ _ (by simp only [parseLoop, hr, hfr, if_pos ht])
        · rw [if_neg ht]
          have h12 : Config.chunkOverhead = 12 := rfl
          refine ih { e with list := e.list ++ [ch], pos := nextPos e.pos len, crcAcc := 0, phase := .chunks } ho rfl ?_ ?_ ?_ ?_
          · change nextPos e.pos len ≠ 0; simp only [nextPos]; omega
          · change IN.length ≤ nextPos e.pos len + fuel; simp only [nextPos]; omega
          · intro er her; exact herr er (by simp only [parseLoop, hr, hfr, if_neg ht]; exact her)
          · intro list pos acc' hli; exact hok list pos acc' (by simp only [parseLoop, hr, hfr, if_neg ht]; exact hli)

/-- The row loop of the sequencer is `reconRows`. -/
theorem arrives_recon {b : State} {o : Outcome} (hb : b.status = .busy) :
    ∀ (n : Nat) (e : Engine), e.op = none → e.phase = .recon → e.row + n = e.height.toNat →
    e.out.length = e.row * strideOf e.width →
    (∀ err, reconRows e.f (strideOf e.width) n e.row e.out e.kinds = .error err → o = .next (raise err b)) →
    (∀ out kinds row col, reconRows e.f (strideOf e.width) n e.row e.out e.kinds = .ok (out, kinds) →
      o = finish (reconEnd { e with out := out, kinds := kinds, row := row, col := col }) (b.withEng { e with out := out, kinds := kinds, row := row, col := col })) →
    Arrives (b.withEng e) o := by
  intro n
  induction n with
  | zero =>
    intro e ho hp hrow hout herr hok
    rw [hok e.out e.kinds e.row e.col rfl]
    apply arrives_last
    rw [step_with hb ho]
    simp only [stepPhase, withEng_eng, hp]
    rw [fetchRecon_end (s := b.withEng e) (by simp only [withEng_eng]; omega)]
    cases e; cases hp; rfl
  | succ n ih =>
    intro e ho hp hrow hout herr hok
    have hs : step (b.withEng e) = _ := (step_busy (s := b.withEng e) hb ho).trans
      ((by simp only [stepPhase, withEng_eng, hp] : stepPhase (b.withEng e) = fetchRecon (b.withEng e)).trans
        (fetchRecon_step (s := b.withEng e) (by simp only [withEng_eng]; omega) hout))
    simp only [withEng_eng] at hs
    cases hr : reconStep e.f (strideOf e.width) e.row e.out with
    | error er =>
      rw [herr er (by simp only [reconRows, hr])]
      apply arrives_last
      rw [hs, hr]; rfl
    | ok p =>
      obtain ⟨f, out'⟩ := p
      rw [hr] at hs
      apply arrives_step hs
      have hlen : out'.length = (e.row + 1) * strideOf e.width := by
        simp only [reconStep] at hr
        split at hr
        · cases hr
        split at hr
        · cases hr
        split at hr
        · cases hr
        cases hr
        rw [reconBytes_length, hout, Nat.add_mul]; omega
      refine ih { e with kinds := e.kinds ++ [f], out := out', row := e.row + 1, col := 0 } ho hp (by simp only []; omega) hlen ?_ ?_
      · intro er her; exact herr er (by simp only [reconRows, hr]; exact her)
      · intro out kinds row col h; exact hok out kinds row col (by simp only [reconRows, hr]; exact h)

theorem arrives_select {b : State} {raw : Bytes} (hb : b.status = .busy) (hi : b.input = raw) :
    ∀ (n : Nat) (e : Engine), e.op = none → e.phase = .choose → e.cmd ≠ some .encode → e.row + n = e.height.toNat →
    e.height.toNat * strideOf e.width ≤ raw.length →
    Arrives (b.withEng e) (finish (selectResult (e.kinds ++ selectRows raw (strideOf e.width) n e.row)) b) := by
  intro n
  induction n with
  | zero =>
    intro e ho hp hc hrow hl
    apply arrives_last
    rw [step_with hb ho]
    simp only [stepPhase, withEng_eng, hp]
    rw [fetchChoose_end_select (s := b.withEng e) (by simp only [withEng_eng]; omega) hc]
    simp only [selectRows, List.append_nil]
    rfl
  | succ n ih =>
    intro e ho hp hc hrow hl
    have hle : (e.row + 1) * strideOf e.width ≤ e.height.toNat * strideOf e.width := Nat.mul_le_mul_right _ (by omega)
    have hs : step (b.withEng e) = .next (b.withEng { e with
        cand := candidates raw (strideOf e.width) e.row
        scores := scoresOf (candidates raw (strideOf e.width) e.row)
        best := selectRow raw (strideOf e.width) e.row
        kinds := e.kinds ++ [selectRow raw (strideOf e.width) e.row]
        row := e.row + 1
        phase := .choose }) := by
      rw [step_with hb ho]
      simp only [stepPhase, withEng_eng, hp]
      rw [fetchChoose_select (s := b.withEng e) hi (by simp only [withEng_eng]; omega) hl hc]
      rfl
    apply arrives_step hs
    have := ih { e with
        cand := candidates raw (strideOf e.width) e.row
        scores := scoresOf (candidates raw (strideOf e.width) e.row)
        best := selectRow raw (strideOf e.width) e.row
        kinds := e.kinds ++ [selectRow raw (strideOf e.width) e.row]
        row := e.row + 1
        phase := .choose } ho rfl hc (by simp only []; omega) hl
    simpa [selectRows] using this

theorem arrives_filter {b : State} {raw : Bytes} (hb : b.status = .busy) (hi : b.input = raw) :
    ∀ (ks : List FilterKind) (e : Engine), e.op = none → e.phase = .filt → e.cmd ≠ some .encode → e.row + ks.length = e.height.toNat →
    e.height.toNat * strideOf e.width ≤ raw.length → e.kinds.drop e.row = ks →
    Arrives (b.withEng e) (finish (filterResult (e.f ++ filterRows raw (strideOf e.width) e.row ks)) b) := by
  intro ks
  induction ks with
  | nil =>
    intro e ho hp hc hrow hl hk
    apply arrives_last
    rw [step_with hb ho]
    simp only [stepPhase, withEng_eng, hp]
    rw [fetchFilter_end (s := b.withEng e) (by simp at hrow; simp only [withEng_eng]; omega)]
    simp only [filterRows, List.append_nil]
    rfl
  | cons f ks ih =>
    intro e ho hp hc hrow hl hk
    have hk0 : e.kinds[e.row]? = some f := by
      have := congrArg List.head? hk
      simpa using this
    have hs : step (b.withEng e) = .next (b.withEng { e with
        f := e.f ++ filterScanline raw (strideOf e.width) e.row f
        row := e.row + 1, col := 0, phase := .filt }) := by
      rw [step_with hb ho]
      simp only [stepPhase, withEng_eng, hp]
      rw [fetchFilter_step (s := b.withEng e) hi (by simp at hrow ⊢; omega) hk0 hl]
      rw [show afterFilter (b.withEng e).eng.cmd = .filt from if_neg hc]
      rfl
    apply arrives_step hs
    have := ih { e with
        f := e.f ++ filterScanline raw (strideOf e.width) e.row f
        row := e.row + 1, col := 0, phase := .filt } ho rfl hc (by simp at hrow ⊢; omega) hl (by
          have := congrArg List.tail hk
          simpa using this)
    simpa [filterRows] using this

theorem arrives_encode {b : State} {raw : Bytes} (hb : b.status = .busy) (hi : b.input = raw) :
    ∀ (n : Nat) (e : Engine), e.op = none → e.phase = .choose → e.cmd = some .encode → e.row + n = e.height.toNat →
    e.height.toNat * strideOf e.width ≤ raw.length → e.kinds.length = e.row →
    Arrives (b.withEng e) (finish (encodeResult e.width e.height b.argMaxIdat (e.kinds ++ selectRows raw (strideOf e.width) n e.row)
      (deflate b.collab (e.f ++ filterRows raw (strideOf e.width) e.row (selectRows raw (strideOf e.width) n e.row)))
      (e.f ++ filterRows raw (strideOf e.width) e.row (selectRows raw (strideOf e.width) n e.row)).length) b) := by
  intro n
  induction n with
  | zero =>
    intro e ho hp hc hrow hl hk
    have h1 : step (b.withEng e) = .next (b.withEng { e with phase := .deflate }) := by
      rw [step_with hb ho]
      simp only [stepPhase, withEng_eng, hp]
      rw [fetchChoose_end_encode (s := b.withEng e) (by simp only [withEng_eng]; omega) hc]; rfl
    apply arrives_step h1
    have h2 : step (b.withEng { e with phase := .deflate }) = .next (b.withEng { e with z := deflate b.collab e.f, phase := .pack }) := by
      exact step_with hb (by exact ho)
    apply arrives_step h2
    apply arrives_last
    refine (step_with hb (by exact ho)).trans ?_
    simp only [selectRows, filterRows, List.append_nil]
    rfl
  | succ n ih =>
    intro e ho hp hc hrow hl hk
    have hle : (e.row + 1) * strideOf e.width ≤ e.height.toNat * strideOf e.width := Nat.mul_le_mul_right _ (by omega)
    have hs : step (b.withEng e) = .next (b.withEng { e with
        cand := candidates raw (strideOf e.width) e.row
        scores := scoresOf (candidates raw (strideOf e.width) e.row)
        best := selectRow raw (strideOf e.width) e.row
        kinds := e.kinds ++ [selectRow raw (strideOf e.width) e.row]
        row := e.row
        phase := .filt }) := by
      rw [step_with hb ho]
      simp only [stepPhase, withEng_eng, hp]
      rw [fetchChoose_encode (s := b.withEng e) hi (by simp only [withEng_eng]; omega) hl hc]
      rfl
    apply arrives_step hs
    have hs2 : step (b.withEng { e with
        cand := candidates raw (strideOf e.width) e.row
        scores := scoresOf (candidates raw (strideOf e.width) e.row)
        best := selectRow raw (strideOf e.width) e.row
        kinds := e.kinds ++ [selectRow raw (strideOf e.width) e.row]
        row := e.row
        phase := .filt }) = .next (b.withEng { e with
        cand := candidates raw (strideOf e.width) e.row
        scores := scoresOf (candidates raw (strideOf e.width) e.row)
        best := selectRow raw (strideOf e.width) e.row
        kinds := e.kinds ++ [selectRow raw (strideOf e.width) e.row]
        f := e.f ++ filterScanline raw (strideOf e.width) e.row (selectRow raw (strideOf e.width) e.row)
        row := e.row + 1
        col := 0
        phase := .choose }) := by
      refine (step_with hb (by exact ho)).trans ?_
      change fetchFilter _ = _
      refine (fetchFilter_step (f := selectRow raw (strideOf e.width) e.row) (raw := raw) (by exact hi) (by simp only [withEng_eng]; omega) (by simp [hk]) (by exact hl)).trans ?_
      simp only [withEng_eng]
      rw [show afterFilter e.cmd = .choose from if_pos hc]
      rfl
    apply arrives_step hs2
    have := ih { e with
        cand := candidates raw (strideOf e.width) e.row
        scores := scoresOf (candidates raw (strideOf e.width) e.row)
        best := selectRow raw (strideOf e.width) e.row
        kinds := e.kinds ++ [selectRow raw (strideOf e.width) e.row]
        f := e.f ++ filterScanline raw (strideOf e.width) e.row (selectRow raw (strideOf e.width) e.row)
        row := e.row + 1
        col := 0
        phase := .choose } ho rfl hc (by simp only []; omega) hl (by simp [hk])
    simpa [selectRows, filterRows] using this

theorem run_reconBytes {b : State} {f : FilterKind} (hb : b.status = .busy) : ∀ (n : Nat) (e : Engine), e.op = some f → e.phase = .recon → e.w = Window.zero →
    e.col + n = strideOf e.width → e.out.length = rawOffset (strideOf e.width) e.row e.col →
    recordOffset (strideOf e.width) e.row + 1 + strideOf e.width ≤ e.f.length →
    core.run (n + 1) (b.withEng e) = .next (b.withEng { e with
      out := reconBytes e.f (strideOf e.width) e.row f n e.col e.out, op := none, row := e.row + 1, col := 0 }) := by
  intro n
  induction n with
  | zero =>
    intro e ho hp hw hc hout hF
    refine (run_one _).trans ((step_byte (s := b.withEng e) hb ho).trans ?_)
    rw [stepByte_recon (s := b.withEng e) f hp]
    rw [stepReconByte_close (by simp only [withEng_eng]; omega)]
    rfl
  | succ n ih =>
    intro e ho hp hw hc hout hF
    have hs : step (b.withEng e) = .next (b.withEng { e with out := e.out ++ [decOp f (reconWindow e.f e.out (strideOf e.width) e.row e.col)], col := e.col + 1, w := Window.zero }) := by
      rw [step_byte (s := b.withEng e) hb ho]
      rw [stepByte_recon (s := b.withEng e) f hp]
      rw [stepReconByte_next (s := b.withEng e) (by simp only [withEng_eng]; omega) (by simp only [withEng_eng, filteredOffset]; omega) hout]
      rfl
    rw [run_step _ hs]
    have := ih { e with out := e.out ++ [decOp f (reconWindow e.f e.out (strideOf e.width) e.row e.col)], col := e.col + 1, w := Window.zero } ho hp rfl (by simp only []; omega) (by simp [hout, rawOffset, Nat.add_assoc]) hF
    refine this.trans ?_
    rw [reconBytes]
    cases e; cases hw; rfl

theorem run_filterBytes {b : State} {f : FilterKind} {raw : Bytes} (hb : b.status = .busy) (hi : b.input = raw) : ∀ (n : Nat) (e : Engine), e.op = some f → e.phase = .filt → e.w = Window.zero →
    e.col + n = strideOf e.width → e.rowBuf = (List.range e.col).map (fun i => encOp f (filterWindow raw (strideOf e.width) e.row i)) →
    rawOffset (strideOf e.width) (e.row + 1) 0 ≤ raw.length →
    core.run (n + 1) (b.withEng e) = .next (b.withEng { e with
      f := e.f ++ filterScanline raw (strideOf e.width) e.row f, rowBuf := [], op := none, row := e.row + 1, col := 0, phase := afterFilter e.cmd }) := by
  intro n
  induction n with
  | zero =>
    intro e ho hp hw hc hbuf hl
    refine (run_one _).trans ((step_byte (s := b.withEng e) hb ho).trans ?_)
    rw [stepByte_filt (s := b.withEng e) f hp]
    refine (stepFilterByte_close (s := b.withEng e) (raw := raw) hi (by simp only [withEng_eng]; omega)).trans ?_
    simp only [withEng_eng, hbuf, filterScanline, filterRow]
    rw [show strideOf e.width = e.col by omega]
    rfl
  | succ n ih =>
    intro e ho hp hw hc hbuf hl
    have hs : step (b.withEng e) = .next (b.withEng { e with rowBuf := e.rowBuf ++ [encOp f (filterWindow raw (strideOf e.width) e.row e.col)], col := e.col + 1, w := Window.zero }) := by
      rw [step_byte (s := b.withEng e) hb ho]
      rw [stepByte_filt (s := b.withEng e) f hp]
      rw [stepFilterByte_next (s := b.withEng e) hi (by simp only [withEng_eng]; omega) (by simp only [withEng_eng, rawOffset, Nat.add_mul] at *; omega)]
      rfl
    rw [run_step _ hs]
    have := ih { e with rowBuf := e.rowBuf ++ [encOp f (filterWindow raw (strideOf e.width) e.row e.col)], col := e.col + 1, w := Window.zero } ho hp rfl (by simp only []; omega) (by simp [hbuf, List.range_succ]) hl
    refine this.trans ?_
    cases e; cases hw; rfl

end Sys2Proof.Machine
end

