-- ==== Sys2Proof/Laws/Package.lean ====
section
/-! SUPPORT. Splitting and packaging: the number of IDAT chunks, their payloads, the length of a datastream (R234, R235). -/

namespace Sys2Proof.Machine

/-- R234: the number of IDAT chunks as a ceiling. -/
theorem idatCount_spec {L M n : Nat} (hM : 1 ≤ M) :
    n = idatCount L M ↔ 1 ≤ n ∧ L ≤ n * M ∧ (L = 0 → n = 1) ∧ (0 < L → (n - 1) * M < L) := by
  have hd := Nat.div_add_mod (L + M - 1) M
  have hm := Nat.mod_lt (L + M - 1) (by omega : M > 0)
  have key : 1 ≤ idatCount L M ∧ L ≤ idatCount L M * M ∧ (L = 0 → idatCount L M = 1) ∧
      (0 < L → (idatCount L M - 1) * M < L) := by
    rcases Nat.eq_zero_or_pos L with h0 | h0
    · subst h0
      have : (M - 1) / M = 0 := Nat.div_eq_of_lt (by omega)
      simp [idatCount, this]
    · have hq : 1 ≤ (L + M - 1) / M := by rw [Nat.le_div_iff_mul_le (by omega)]; omega
      have he : idatCount L M = (L + M - 1) / M := by simp only [idatCount]; omega
      rw [he]
      generalize (L + M - 1) / M = q at *
      rw [Nat.mul_comm] at hd
      refine ⟨hq, by omega, by omega, fun _ => ?_⟩
      rw [Nat.sub_mul]; omega
  constructor
  · rintro rfl; exact key
  · rintro ⟨h1, h2, h3, h4⟩
    rcases Nat.eq_zero_or_pos L with h0 | h0
    · rw [h3 h0, key.2.2.1 h0]
    · have k4 := key.2.2.2 h0
      have h4 := h4 h0
      have a : n - 1 < idatCount L M := by
        by_contra hc
        have := Nat.mul_le_mul_right M (Nat.not_lt.1 hc)
        omega
      have b : idatCount L M - 1 < n := by
        by_contra hc
        have := Nat.mul_le_mul_right M (Nat.not_lt.1 hc)
        omega
      omega

theorem splitIdat_length (Z : Bytes) (M : Nat) : (splitIdat Z M).length = idatCount Z.length M := by simp [splitIdat]

/-- The first `n` pieces of `M` bytes. -/
theorem slices_take (Z : Bytes) (M : Nat) : ∀ n : Nat,
    (List.range n).flatMap (fun k => slice Z (k * M) M) = Z.take (n * M) := by
  intro n
  induction n with
  | zero => simp
  | succ n ih =>
    rw [List.range_succ, List.flatMap_append, ih, List.flatMap_cons, List.flatMap_nil, List.append_nil, slice, Nat.add_mul, Nat.one_mul, List.take_add]

/-- R234: the payloads concatenate to `Z`. -/
theorem splitIdat_payloads (Z : Bytes) {M : Nat} (hM : 1 ≤ M) : (splitIdat Z M).flatMap (fun c => c.payload) = Z := by
  have h := (idatCount_spec (L := Z.length) (n := idatCount Z.length M) hM).1 rfl
  rw [splitIdat, List.flatMap_map]
  exact (slices_take Z M _).trans (List.take_of_length_le h.2.1)

theorem serialize_length (cs : List Chunk) : (serialize cs).length = 8 + (cs.map (fun c => 12 + c.payload.length)).sum := by
  have : ∀ l : List Chunk, (l.flatMap chunkBytes).length = (l.map (fun c => 12 + c.payload.length)).sum := by
    intro l
    induction l with
    | nil => rfl
    | cons a l ih => rw [List.flatMap_cons, List.length_append, chunkBytes_length, ih]; rfl
  rw [serialize, List.length_append, this]; rfl

theorem payload_sum (cs : List Chunk) : (cs.map (fun c => 12 + c.payload.length)).sum = 12 * cs.length + (cs.flatMap (fun c => c.payload)).length := by
  induction cs with
  | nil => rfl
  | cons a l ih => rw [List.map_cons, List.sum_cons, ih, List.flatMap_cons, List.length_append, List.length_cons]; omega

end Sys2Proof.Machine
end

