-- ==== Sys2Proof/Laws/Invariant.lean ====
section
/-! SUPPORT. The invariant through a whole command and through each kind of record; the chunk list of an encoded image. -/

namespace Sys2Proof.Machine

/-- R250: what each command computes. -/
theorem exec_command (c : Command) (s : State) : exec (commandInstr c) s = runCommand c (match c with
  | .decode => fun IN _ => decodeStream s.collab IN
  | .encode => fun raw _ => .ok (encodeImage s.collab raw s.argWidth s.argHeight s.argMaxIdat)
  | .parse => fun IN _ => parseStream IN
  | .recon => fun F _ => reconImage F s.argWidth s.argHeight
  | .filter => fun raw ks => .ok (filterResult (filterStream raw ks (strideOf s.argWidth)))
  | .select => fun raw _ => .ok (selectResult (selectKinds raw s.argWidth s.argHeight))) s := by
  cases c <;> rfl

/-- R250, R60: all that a command which answers can have done: it raised what its operands call for, or it committed a
result that fits, which leaves `KIND` alone exactly in FILTER. -/
theorem exec_command_cases {c : Command} {s t : State} (h : exec (commandInstr c) s = .next t) :
    ∃ IN ks, operands c s = .next (IN, ks) ∧ ((∃ e, t = raise e s) ∨
      ∃ r, t = spill r.writes (commit r s) ∧ fits s.caps r = true ∧
        apart s.regMap.storage r.writes s.inLen (r.kindRead s) = true ∧ (r.kinds = none ↔ c = .filter)) := by
  rw [exec_command] at h
  obtain ⟨IN, ks, ho, ⟨e, _, rfl⟩ | ⟨r, hr, hf, ha, rfl⟩⟩ := runCommand_cases h
  · exact ⟨IN, ks, ho, .inl ⟨e, rfl⟩⟩
  refine ⟨IN, ks, ho, .inr ⟨r, rfl, hf, ha, ?_⟩⟩
  cases c with
  | decode =>
    simp only [decodeStream] at hr
    repeat' split at hr
    all_goals (cases hr; try exact ⟨fun h => (by cases h), fun h => (by cases h)⟩)
  | parse =>
    simp only [parseStream] at hr
    split at hr <;> cases hr
    exact ⟨fun h => (by cases h), fun h => (by cases h)⟩
  | recon =>
    simp only [reconImage] at hr
    split at hr <;> cases hr
    exact ⟨fun h => (by cases h), fun h => (by cases h)⟩
  | filter => cases hr; exact ⟨fun _ => rfl, fun _ => rfl⟩
  | encode => cases hr; exact ⟨fun h => (by cases h), fun h => (by cases h)⟩
  | select => cases hr; exact ⟨fun h => (by cases h), fun h => (by cases h)⟩

/-- R250: a command keeps the invariant where its result lists good chunks and an accepted header. -/
theorem runCommand_inv {c : Command} {compute : Bytes → List FilterKind → Except Err Result} {s t : State} (h : s.Inv)
   (hr : runCommand c compute s = .next t)
   (hc : ∀ IN ks r, operands c s = .next (IN, ks) → compute IN ks = .ok r → (∀ c ∈ r.chunks, ChunkOk c) ∧ ∀ d, r.dims = some d → d.1 ≠ 0 ∧ d.2 ≠ 0) : t.Inv := by
  obtain ⟨IN, ks, ho, ⟨e, he, rfl⟩ | ⟨r, hr', hf, ha, rfl⟩⟩ := runCommand_cases hr
  · exact inv_raise h e
  · exact inv_spill (inv_commit h (hc _ _ _ ho hr').1 (hc _ _ _ ho hr').2) _

/-- R120: the chunks `parse` lists. -/
theorem parse_chunksOk {IN : Bytes} {cs : List Chunk} (h : parse IN = .ok cs) : ∀ c ∈ cs, ChunkOk c := by
  obtain ⟨hs, list, hl, rfl⟩ := parse_ok h
  obtain ⟨more, last, h1, h2, h3, h4⟩ := parseLoop_ok _ _ _ _ _ hl
  apply merge_ok
  rw [h1]; intro c hc
  rcases List.mem_append.1 hc with hc | hc
  · exact (h3 c hc).2
  · rw [List.mem_singleton.1 hc]; exact h4

/-- R120: the chunk `mk_chunk` builds. -/
theorem mkChunk_ok (t p) : ChunkOk (mkChunk t p) := ⟨rfl, rfl⟩

/-- R120, R235: the chunks of an encoded image. -/
theorem packageChunks_ok (w h m Z) : ∀ c ∈ packageChunks w h m Z, ChunkOk c := by
  intro c hc
  simp only [packageChunks, splitIdat, List.mem_append, List.mem_singleton, List.mem_map] at hc
  rcases hc with (rfl | ⟨k, _, rfl⟩) | rfl <;> exact mkChunk_ok _ _

/-- R250: the six commands keep the invariant. -/
theorem exec_command_inv {c : Command} {s t : State} (h : s.Inv) (he : exec (commandInstr c) s = .next t) : t.Inv := by
  cases c with
  | decode =>
    refine runCommand_inv h (compute := fun IN _ => decodeStream s.collab IN) (c := .decode) he ?_
    intro IN ks r _ hr
    simp only [decodeStream] at hr
    split at hr
    · cases hr
    · rename_i cs hcs
      split at hr
      · cases hr
      · rename_i H Z hck
        split at hr
        · cases hr
        · split at hr
          · cases hr
          · cases hr
            refine ⟨parse_chunksOk hcs, ?_⟩
            intro d hd; cases hd; exact checkChunks_dims hck
  | encode =>
    refine runCommand_inv h (compute := fun raw _ => .ok (encodeImage s.collab raw s.argWidth s.argHeight s.argMaxIdat)) (c := .encode) he ?_
    intro IN ks r ho hr
    cases hr
    refine ⟨packageChunks_ok _ _ _ _, ?_⟩
    intro d hd; cases hd
    exact precondition_dims ((operands_next_iff _ _ _ _).1 ho).2.1 (by decide) (by decide)
  | parse =>
    refine runCommand_inv h (compute := fun IN _ => parseStream IN) (c := .parse) he ?_
    intro IN ks r _ hr
    simp only [parseStream] at hr
    split at hr
    · cases hr
    · rename_i cs hcs; cases hr; exact ⟨parse_chunksOk hcs, fun d hd => by cases hd⟩
  | recon =>
    refine runCommand_inv h (compute := fun F _ => reconImage F s.argWidth s.argHeight) (c := .recon) he ?_
    intro IN ks r _ hr
    simp only [reconImage] at hr
    split at hr
    · cases hr
    · cases hr; exact ⟨fun c hc => (by cases hc), fun d hd => (by cases hd)⟩
  | filter =>
    refine runCommand_inv h (compute := fun raw ks => .ok (filterResult (filterStream raw ks (strideOf s.argWidth)))) (c := .filter) he ?_
    intro IN ks r _ hr; cases hr; exact ⟨fun c hc => (by cases hc), fun d hd => (by cases hd)⟩
  | select =>
    refine runCommand_inv h (compute := fun raw _ => .ok (selectResult (selectKinds raw s.argWidth s.argHeight))) (c := .select) he ?_
    intro IN ks r _ hr; cases hr; exact ⟨fun c hc => (by cases hc), fun d hd => (by cases hd)⟩

/-- The invariant says nothing of a pending `CMD`. -/
theorem inv_withCmd {s : State} (h : s.Inv) (c) : ({ s with cmd := c } : State).Inv := by
  exact { h with }

/-- R123: a chunk record keeps the invariant. -/
theorem chunkRecord_inv {s t : State} {tag len nx} (h : s.Inv) (hb : s.status = .busy) (ho : s.eng.op = none) (hp : s.eng.phase = .chunks) (hnx : nx = .chunks ∨ nx = .merge) (he : chunkRecord tag len nx s = .next t) : t.Inv := by
  simp only [chunkRecord] at he
  split at he
  · cases he; exact inv_raise h _
  · rename_i ch hf
    cases he
    obtain ⟨f1, f2, f3⟩ := h.rowsFresh (by rw [hp]; rfl)
    refine inv_withEng h hb ?_ ?_ h.rowInside (fun hh => absurd ho hh) h.colInside h.colClosed (fun _ => ⟨f1, f2, f3⟩) ?_ ?_
    · intro c hc
      rcases List.mem_append.1 hc with hc | hc
      · exact h.listOk c hc
      · rw [List.mem_singleton.1 hc]; exact frame_ok_chunkOk hf
    · have := (frame_ok hf).1
      have h12 : Config.chunkOverhead = 12 := rfl
      rw [input_length] at this; simp only [nextPos]; omega
    · intro hd; rcases hnx with rfl | rfl <;> cases hd
    · intro hd; rcases hnx with rfl | rfl <;> cases hd

/-- R201: a scanline record keeps the invariant, reconstruct direction. -/
theorem reconRecord_inv {s t : State} {f} (h : s.Inv) (hb : s.status = .busy) (ho : s.eng.op = none) (hp : s.eng.phase = .recon) (hrow : s.eng.row < s.eng.height.toNat) (he : reconRecord f s = .next t) : t.Inv := by
  simp only [reconRecord] at he
  split at he
  · cases he; exact inv_raise h _
  split at he
  · cases he
  · rename_i hout
    cases he
    refine inv_withEng h hb h.listOk h.posInside hrow (fun hh => absurd ho hh) (Nat.zero_le _) (fun _ => rfl) ?_ h.dimsPositive ?_
    · intro hh; rw [show ({ s.eng with kinds := s.eng.kinds ++ [f], out := reconBytes s.eng.f (strideOf s.eng.width) s.eng.row f (strideOf s.eng.width) 0 s.eng.out, row := s.eng.row + 1, col := 0 } : Engine).phase = .recon from hp] at hh; cases hh
    · intro _
      have := Decidable.not_not.1 hout
      simp only [reconBytes_length, this, rawOffset, Nat.add_mul]; omega

/-- R221: a scanline record keeps the invariant, filter direction. -/
theorem filterRecord_inv {s t : State} {f} (h : s.Inv) (hb : s.status = .busy) (ho : s.eng.op = none) (hp : s.eng.phase = .filt) (hrow : s.eng.row < s.eng.height.toNat) (he : filterRecord f s = .next t) : t.Inv := by
  simp only [filterRecord] at he
  split at he
  · cases he
  · cases he
    have hph : afterFilter s.eng.cmd = .choose ∨ afterFilter s.eng.cmd = .filt := by simp only [afterFilter]; split <;> simp
    have hd := h.dimsPositive (by rw [hp]; rfl)
    refine inv_withEng h hb h.listOk h.posInside hrow (fun hh => absurd ho hh) (Nat.zero_le _) (fun _ => rfl) ?_ (fun _ => hd) ?_
    · intro hh; rcases hph with hh' | hh' <;> (simp only [hh'] at hh; cases hh)
    · intro hh; rcases hph with hh' | hh' <;> (simp only [hh'] at hh; cases hh)

/-- R234: the chunks of the split are IDAT chunks. -/
theorem splitIdat_tags (Z M) : ∀ c ∈ splitIdat Z M, c.tag = tagIdat ∧ ChunkOk c := by
  intro c hc
  obtain ⟨k, hk, rfl⟩ := List.mem_map.1 hc
  exact ⟨rfl, rfl, rfl⟩

/-- R131, R235: merging the list of an encoded image leaves IHDR, one IDAT with all of `Z`, IEND. -/
theorem merge_package (w h m : U32) (Z : Bytes) (hm : 1 ≤ m.toNat) : merge (packageChunks w h m Z) = [mkChunk tagIhdr (encodeHeader (acceptedHeader w h)), mkChunk tagIdat Z, mkChunk tagIend []] := by
  rw [packageChunks, List.append_assoc, List.singleton_append, merge_cons_other (show (mkChunk tagIhdr (encodeHeader (acceptedHeader w h))).tag ≠ tagIdat from (by decide : tagIhdr ≠ tagIdat))]
  rw [merge_run (splitIdat Z m.toNat) [mkChunk tagIend []] ?_ (splitIdat_tags Z _) ?_, splitIdat_payloads Z hm]
  · rfl
  · intro h0
    have := splitIdat_length Z m.toNat
    rw [h0] at this
    have h2 := ((idatCount_spec (L := Z.length) (n := idatCount Z.length m.toNat) hm).1 rfl).1
    simp at this; omega
  · intro c hc; cases hc; exact (by decide : tagIend ≠ tagIdat)

end Sys2Proof.Machine
end

