-- ==== Sys2Proof/Laws/PerInstr.lean ====
section
/-! SUPPORT. Statements made for each instruction: the length of its encoding (R91, R92, R97, R109). -/

namespace Sys2Proof.Laws.EncodeLength

/-- The bytes of an encoding: 8 for a datastream item, 1 for a type byte, kind code or command code. -/
def width : Sys2Proof.Context → Nat
  | .signature => 8
  | .chunk => 8
  | .recon => 1
  | .filter => 1
  | .encByte => 1
  | .decByte => 1
  | .command => 1

/-- The encoding has the length of its format. -/
def Statement (i : Sys2Proof.Instr) : Prop := (Sys2Proof.encode i).length = width (Sys2Proof.contextOf i)

theorem sig : Statement .sig := rfl

theorem cIhdr (len : U32) : Statement (.cIhdr len) := rfl

theorem cIdat (len : U32) : Statement (.cIdat len) := rfl

theorem cIend (len : U32) : Statement (.cIend len) := rfl

theorem cOther (len : U32) (tag : Tag) : Statement (.cOther len tag) := rfl

theorem rNone : Statement .rNone := rfl

theorem rSub : Statement .rSub := rfl

theorem rUp : Statement .rUp := rfl

theorem rAvg : Statement .rAvg := rfl

theorem rPaeth : Statement .rPaeth := rfl

theorem fNone : Statement .fNone := rfl

theorem fSub : Statement .fSub := rfl

theorem fUp : Statement .fUp := rfl

theorem fAvg : Statement .fAvg := rfl

theorem fPaeth : Statement .fPaeth := rfl

theorem encNone : Statement .encNone := rfl

theorem encSub : Statement .encSub := rfl

theorem encUp : Statement .encUp := rfl

theorem encAvg : Statement .encAvg := rfl

theorem encPaeth : Statement .encPaeth := rfl

theorem decNone : Statement .decNone := rfl

theorem decSub : Statement .decSub := rfl

theorem decUp : Statement .decUp := rfl

theorem decAvg : Statement .decAvg := rfl

theorem decPaeth : Statement .decPaeth := rfl

theorem cmdDecode : Statement .cmdDecode := rfl

theorem cmdEncode : Statement .cmdEncode := rfl

theorem cmdParse : Statement .cmdParse := rfl

theorem cmdRecon : Statement .cmdRecon := rfl

theorem cmdFilter : Statement .cmdFilter := rfl

theorem cmdSelect : Statement .cmdSelect := rfl

end Sys2Proof.Laws.EncodeLength
end

