-- ==== Sys2Proof/Tests/Slice0.lean ====
section
/-! SUPPORT. The model's own tests.  Expected values are the vectors V, S and programs P of spec/95_test_vectors.md and
the encodings of spec/30_encoding.md.  A `witness_` theorem shows that the hypotheses of the obligation it names are met
together. -/

namespace Sys2Proof.Tests

open Sys2Proof
open Sys2Proof.Machine

set_option Elab.async false

/-- The state an outcome answers. -/
def nextOf : Outcome → Option State
  | .next t => some t
  | .fault _ => none
  | .refused _ => none

theorem next_of {o : Outcome} {t : State} (h : nextOf o = some t) : o = .next t := by
  cases o with
  | next u => cases h; rfl
  | fault r => cases h
  | refused r => cases h

theorem next_exists {o : Outcome} (h : (nextOf o).isSome = true) : ∃ t, o = .next t := by
  obtain ⟨t, ht⟩ := Option.isSome_iff_exists.1 h
  exact ⟨t, next_of ht⟩

/-- The reset state with arguments and operands written and the identity collaborator bound (R264). -/
def args (w h m : U32) (IN kinds : Bytes) : State :=
  { State.reset with
    argWidth := w, argHeight := h, argMaxIdat := m, inp := Memory.ofBytes 0 IN, inLen := IN.length
    kind := Memory.ofBytes 0 kinds, kindLen := kinds.length, collab := .identity }

/-- A command code written. -/
def written (code : Byte) (s : State) : State := { s with cmd := some code }

/-- The state a command answers, or the state itself. -/
def after (code : Byte) (s : State) : State := (nextOf (step (written code s))).getD s

/-- The BUSY state a command starts in, or the state itself. -/
def running (c : Command) (s : State) : State := (nextOf (startCommand c s)).getD s
def bytesG : Bytes := [0x89, 0x50, 0x4E, 0x47, 0x0D, 0x0A, 0x1A, 0x0A, 0x00, 0x00, 0x00, 0x0D, 0x49, 0x48, 0x44, 0x52, 0x00, 0x00, 0x00, 0x01, 0x00, 0x00, 0x00, 0x01, 0x08, 0x06, 0x00, 0x00, 0x00, 0x1F, 0x15, 0xC4, 0x89, 0x00, 0x00, 0x00, 0x05, 0x49, 0x44, 0x41, 0x54, 0x00, 0x11, 0x22, 0x33, 0x44, 0x1A, 0x3A, 0x1B, 0x04, 0x00, 0x00, 0x00, 0x00, 0x49, 0x45, 0x4E, 0x44, 0xAE, 0x42, 0x60, 0x82]
def img24 : Bytes := [0x00, 0x00, 0x00, 0x00, 0x00, 0x00, 0x00, 0x00, 0x10, 0x20, 0x30, 0x40, 0x12, 0x22, 0x32, 0x42, 0x11, 0x21, 0x31, 0x41, 0x13, 0x23, 0x33, 0x43, 0x15, 0x25, 0x35, 0x45, 0x17, 0x27, 0x37, 0x47]
def v20 : Bytes := [0x01, 0x10, 0x20, 0x30, 0x40, 0xF0, 0xE0, 0xD0, 0xC0, 0x04, 0x05, 0x05, 0x05, 0x05, 0x01, 0xFF, 0x00, 0x80]
def v20Out : Bytes := [0x10, 0x20, 0x30, 0x40, 0x00, 0x00, 0x00, 0x00, 0x15, 0x25, 0x35, 0x45, 0x01, 0xFF, 0x00, 0x80]
/-- P2: the 101 bytes of a 2x2 image. -/
def bytesP2 : Bytes :=
  [0x89, 0x50, 0x4E, 0x47, 0x0D, 0x0A, 0x1A, 0x0A, 0x00, 0x00, 0x00, 0x0D, 0x49, 0x48, 0x44, 0x52, 0x00, 0x00, 0x00, 0x02, 0x00, 0x00, 0x00, 0x02, 0x08, 0x06, 0x00, 0x00, 0x00, 0x72, 0xB6, 0x0D, 0x24] ++
  [0x00, 0x00, 0x00, 0x07, 0x49, 0x44, 0x41, 0x54, 0x01, 0x10, 0x20, 0x30, 0x40, 0xF0, 0xE0, 0x19, 0x31, 0x8B, 0xAB, 0x00, 0x00, 0x00, 0x00, 0x49, 0x44, 0x41, 0x54, 0x35, 0xAF, 0x06, 0x1E] ++
  [0x00, 0x00, 0x00, 0x0B, 0x49, 0x44, 0x41, 0x54, 0xD0, 0xC0, 0x04, 0x05, 0x05, 0x05, 0x05, 0x01, 0xFF, 0x00, 0x80, 0x2F, 0x4C, 0x66, 0xFC, 0x00, 0x00, 0x00, 0x00, 0x49, 0x45, 0x4E, 0x44, 0xAE, 0x42, 0x60, 0x82, 0xDE, 0xAD]
/-! WellFormed: a `C.OTHER` term that carries a named tag is refused (R129). -/

theorem test_wf_other_ihdr : (Instr.cOther 13 ⟨0x49, 0x48, 0x44, 0x52⟩).wf = false := by decide
theorem test_wf_other_idat : (Instr.cOther 5 ⟨0x49, 0x44, 0x41, 0x54⟩).wf = false := by decide
theorem test_wf_other_iend : (Instr.cOther 0 ⟨0x49, 0x45, 0x4E, 0x44⟩).wf = false := by decide
theorem test_wf_other_text : (Instr.cOther 0 ⟨0x74, 0x45, 0x58, 0x74⟩).wf = true := by decide

/-! Decoding of written-out words (R91, R92, R97, R98, R109). -/
theorem test_decode_sig : decode .signature [0x89, 0x50, 0x4E, 0x47, 0x0D, 0x0A, 0x1A, 0x0A] = .ok (.sig, []) := rfl
theorem test_decode_cIhdr : decode .chunk [0x00, 0x00, 0x00, 0x0D, 0x49, 0x48, 0x44, 0x52] = .ok (.cIhdr 13, []) := rfl
theorem test_decode_cIdat : decode .chunk [0x01, 0x02, 0x03, 0x04, 0x49, 0x44, 0x41, 0x54] = .ok (.cIdat 0x01020304, []) := rfl
theorem test_decode_cIend : decode .chunk [0x00, 0x00, 0x00, 0x00, 0x49, 0x45, 0x4E, 0x44] = .ok (.cIend 0, []) := rfl
theorem test_decode_cOther : decode .chunk [0xFF, 0xFF, 0xFF, 0xFE, 0x74, 0x45, 0x58, 0x74] = .ok (.cOther 0xFFFFFFFE ⟨0x74, 0x45, 0x58, 0x74⟩, []) := rfl
theorem test_decode_rNone : decode .recon [0x00] = .ok (.rNone, []) := rfl
theorem test_decode_rSub : decode .recon [0x01] = .ok (.rSub, []) := rfl
theorem test_decode_rUp : decode .recon [0x02] = .ok (.rUp, []) := rfl
theorem test_decode_rAvg : decode .recon [0x03] = .ok (.rAvg, []) := rfl
theorem test_decode_rPaeth : decode .recon [0x04] = .ok (.rPaeth, []) := rfl
theorem test_decode_fNone : decode .filter [0x00] = .ok (.fNone, []) := rfl
theorem test_decode_fSub : decode .filter [0x01] = .ok (.fSub, []) := rfl
theorem test_decode_fUp : decode .filter [0x02] = .ok (.fUp, []) := rfl
theorem test_decode_fAvg : decode .filter [0x03] = .ok (.fAvg, []) := rfl
theorem test_decode_fPaeth : decode .filter [0x04] = .ok (.fPaeth, []) := rfl
theorem test_decode_encNone : decode .encByte [0x00] = .ok (.encNone, []) := rfl
theorem test_decode_encSub : decode .encByte [0x01] = .ok (.encSub, []) := rfl
theorem test_decode_encUp : decode .encByte [0x02] = .ok (.encUp, []) := rfl
theorem test_decode_encAvg : decode .encByte [0x03] = .ok (.encAvg, []) := rfl
theorem test_decode_encPaeth : decode .encByte [0x04] = .ok (.encPaeth, []) := rfl
theorem test_decode_decNone : decode .decByte [0x00] = .ok (.decNone, []) := rfl
theorem test_decode_decSub : decode .decByte [0x01] = .ok (.decSub, []) := rfl
theorem test_decode_decUp : decode .decByte [0x02] = .ok (.decUp, []) := rfl
theorem test_decode_decAvg : decode .decByte [0x03] = .ok (.decAvg, []) := rfl
theorem test_decode_decPaeth : decode .decByte [0x04] = .ok (.decPaeth, []) := rfl
theorem test_decode_cmdDecode : decode .command [0x01] = .ok (.cmdDecode, []) := rfl
theorem test_decode_cmdEncode : decode .command [0x02] = .ok (.cmdEncode, []) := rfl
theorem test_decode_cmdParse : decode .command [0x03] = .ok (.cmdParse, []) := rfl
theorem test_decode_cmdRecon : decode .command [0x04] = .ok (.cmdRecon, []) := rfl
theorem test_decode_cmdFilter : decode .command [0x05] = .ok (.cmdFilter, []) := rfl
theorem test_decode_cmdSelect : decode .command [0x06] = .ok (.cmdSelect, []) := rfl
theorem test_decode_illegal : decode .recon [0x05] = .error (.badFilterType 5) ∧
    decode .command [0x00] = .error (.reservedCommand 0) ∧ decode .chunk [0, 0, 0, 0, 0x49] = .error .shortHead :=
  ⟨rfl, rfl, rfl⟩

/-! The opcode table's view of a word, and its placing before a step. -/

theorem test_table_sig : decodeTableWord 64 0x89504E470D0A1A0A = some .sig := by decide +kernel
theorem test_table_ihdr : decodeTableWord 64 0x0000000D49484452 = some (.cIhdr 13) := by decide +kernel
theorem test_table_command : decodeTableWord 8 6 = some .cmdSelect ∧ decodeTableWord 8 0 = some .rNone := by decide +kernel
/-- The crc of an empty chunk is not zero, so the word's item runs C.IDAT and takes ChecksumError (R290, V43). -/
theorem test_fetch_idat : (nextOf (step (State.reset.withFetchWord 64 0x49444154))).map (fun t => (t.err.cls, t.err.actual)) =
    some (2, 0x35AF061E) := by decide +kernel
theorem test_fetch_command : (nextOf (step (State.reset.withFetchWord 8 5))).map (fun t => (t.status, t.outLen)) =
    some (.done, 5) := by decide +kernel

/-! CRC-32 (V43). -/
theorem test_crc_empty : crc32 [] = 0x00000000 := by decide +kernel
theorem test_crc_a : crc32 [0x61] = 0xE8B7BE43 := by decide +kernel
theorem test_crc_digits : crc32 [0x31, 0x32, 0x33, 0x34, 0x35, 0x36, 0x37, 0x38, 0x39] = 0xCBF43926 := by decide +kernel
theorem test_crc_iend : crc32 [0x49, 0x45, 0x4E, 0x44] = 0xAE426082 := by decide +kernel
/-! Byte operations: V13 (the unwrapped sum), V15, V18 (ENC and DEC columns). -/
theorem test_enc_V13 : ([.none, .sub, .up, .average, .paeth] : List FilterKind).map (fun f => encOp f ⟨0x00, 0xFF, 0xFF, 0x00⟩) = [0x00, 0x01, 0x01, 0x01, 0x01] := by decide +kernel
theorem test_dec_V13 : ([.none, .sub, .up, .average, .paeth] : List FilterKind).map (fun f => decOp f ⟨0x00, 0xFF, 0xFF, 0x00⟩) = [0x00, 0xFF, 0xFF, 0xFF, 0xFF] := by decide +kernel
theorem test_enc_V15 : ([.none, .sub, .up, .average, .paeth] : List FilterKind).map (fun f => encOp f ⟨0x80, 0xFF, 0x01, 0x7F⟩) = [0x80, 0x81, 0x7F, 0x00, 0x01] := by decide +kernel
theorem test_dec_V15 : ([.none, .sub, .up, .average, .paeth] : List FilterKind).map (fun f => decOp f ⟨0x80, 0xFF, 0x01, 0x7F⟩) = [0x80, 0x7F, 0x81, 0x00, 0xFF] := by decide +kernel
theorem test_enc_V18 : ([.none, .sub, .up, .average, .paeth] : List FilterKind).map (fun f => encOp f ⟨0x7F, 0x80, 0x81, 0x82⟩) = [0x7F, 0xFF, 0xFE, 0xFF, 0xFF] := by decide +kernel
theorem test_dec_V18 : ([.none, .sub, .up, .average, .paeth] : List FilterKind).map (fun f => decOp f ⟨0x7F, 0x80, 0x81, 0x82⟩) = [0x7F, 0xFF, 0x00, 0xFF, 0xFF] := by decide +kernel
/-- V28: a tie of `pa` and `pc` goes to `a`, of `pb` and `pc` to `b`; `c`; `p` above 255 and below 0; and the case that
tells an exact `p` from a wrapped one. -/
theorem test_paeth : paeth 6 12 10 = 6 ∧ paeth 12 6 10 = 6 ∧ paeth 2 6 4 = 4 ∧ paeth 255 255 0 = 255 ∧ paeth 0 0 255 = 0 ∧
    paeth 200 100 20 = 200 := by decide +kernel

/-- Each ENC and DEC row appends its byte and advances the column: V14. -/
def atWindow : State := { State.reset with
  status := .busy
  eng := { Engine.rest with op := some .sub, w := ⟨0x05, 0x06, 0x0C, 0x0A⟩, col := 2 } }
theorem test_exec_enc : [Instr.encNone, .encSub, .encUp, .encAvg, .encPaeth].map (fun i =>
    (nextOf (exec i atWindow)).map (fun t => (t.eng.rowBuf, t.eng.col))) =
    [some ([0x05], 3), some ([0xFF], 3), some ([0xF9], 3), some ([0xFC], 3), some ([0xFF], 3)] := by decide +kernel
theorem test_exec_dec : [Instr.decNone, .decSub, .decUp, .decAvg, .decPaeth].map (fun i =>
    (nextOf (exec i atWindow)).map (fun t => (t.eng.out, t.eng.col))) =
    [some ([0x05], 3), some ([0x0B], 3), some ([0x11], 3), some ([0x0E], 3), some ([0x0B], 3)] := by decide +kernel

/-! Scanline records, reconstruct direction (V29): the second row where the example has one. -/

/-- A running RECON whose rows before the due record are `before`. -/
def atRecord (width : U32) (row : Nat) (F before : Bytes) : State := { State.reset with
  status := .busy
  eng := { Engine.rest with
    cmd := some .recon, phase := .recon, width := width, height := 2, f := F, out := before, row := row
    kinds := List.replicate row .none } }

/-- `out` after a record. -/
def outAfter (i : Instr) (s : State) : Option Bytes := (nextOf (exec i s)).map (fun t => t.eng.out)

theorem test_rNone : outAfter .rNone (atRecord 1 0 [0x00, 1, 2, 3, 4] []) = some [1, 2, 3, 4] := by decide +kernel
theorem test_rSub : outAfter .rSub (atRecord 2 0 [0x01, 0x10, 0x20, 0x30, 0x40, 0x01, 0x02, 0x03, 0xFF] []) =
    some [0x10, 0x20, 0x30, 0x40, 0x11, 0x22, 0x33, 0x3F] := by decide +kernel
theorem test_rUp : outAfter .rUp (atRecord 1 1 [0, 0xF0, 1, 2, 3, 0x02, 0x20, 0xFF, 0x00, 0x01] [0xF0, 1, 2, 3]) =
    some [0xF0, 1, 2, 3, 0x10, 0x00, 0x02, 0x04] := by decide +kernel
theorem test_rAvg : outAfter .rAvg (atRecord 2 0 [0x03, 0x10, 0x20, 0x30, 0x40, 0x01, 0x02, 0x03, 0x04] []) =
    some [0x10, 0x20, 0x30, 0x40, 0x09, 0x12, 0x1B, 0x24] := by decide +kernel
theorem test_rPaeth : outAfter .rPaeth
    (atRecord 2 1 [0, 0x0A, 0, 0, 0, 0x0C, 0, 0, 0, 0x04, 0x01, 0, 0, 0, 0xFF, 0, 0, 0] [0x0A, 0, 0, 0, 0x0C, 0, 0, 0]) =
    some [0x0A, 0, 0, 0, 0x0C, 0, 0, 0, 0x0B, 0, 0, 0, 0x0B, 0, 0, 0] := by decide +kernel

/-! Scanline records, filter direction: row 1 of V7's image, one record for each kind. -/

/-- The raw bytes of V6: `01` to `18`. -/
def v6 : Bytes := (List.range 24).map (fun k => BitVec.ofNat 8 (k + 1))

/-- A running FILTER of V6's image at row 1. -/
def atRow1 : State := { args 2 3 0 v6 [] with
  status := .busy
  eng := { Engine.rest with cmd := some .filter, phase := .filt, width := 2, height := 3, row := 1 } }

/-- The stream after a record. -/
def streamAfter (i : Instr) : Option Bytes := (nextOf (exec i atRow1)).map (fun t => t.eng.f)
theorem test_fNone : streamAfter .fNone = some [0x00, 0x09, 0x0A, 0x0B, 0x0C, 0x0D, 0x0E, 0x0F, 0x10] := by decide +kernel
theorem test_fSub : streamAfter .fSub = some [0x01, 0x09, 0x0A, 0x0B, 0x0C, 0x04, 0x04, 0x04, 0x04] := by decide +kernel
theorem test_fUp : streamAfter .fUp = some [0x02, 0x08, 0x08, 0x08, 0x08, 0x08, 0x08, 0x08, 0x08] := by decide +kernel
theorem test_fAvg : streamAfter .fAvg = some [0x03, 0x09, 0x09, 0x0A, 0x0A, 0x06, 0x06, 0x06, 0x06] := by decide +kernel
theorem test_fPaeth : streamAfter .fPaeth = some [0x04, 0x08, 0x08, 0x08, 0x08, 0x04, 0x04, 0x04, 0x04] := by decide +kernel
/-! Scores (V32) and the choice (V31: Up ties Paeth at 0). -/

theorem test_score : score [0xFF, 0x80, 0x7F, 0x01] = 257 ∧ score [0x80, 0x80, 0x80, 0x80] = 512 := by decide +kernel
theorem test_scores : scoresOf (candidates img24 8 2) = ⟨336, 172, 8, 92, 8⟩ ∧ selectRow img24 8 2 = .up := by decide +kernel

/-! Header (V50, V57). -/

theorem test_header : decodeHeader [0, 0, 1, 0, 0x80, 0, 0, 1, 0x10, 2, 1, 5, 1] = ⟨256, 2147483649, 16, 2, 1, 5, 1⟩ := by
  decide +kernel
theorem test_validate : (match validate ⟨1, 1, 16, 2, 0, 0, 0⟩ with | .error e => some (errRegs e) | .ok _ => none) =
    some ⟨3, 0, 3, 0, 0, 6, 2, 0⟩ := by decide +kernel

/-! Datastream items, one step of the framer each (P1). -/

/-- A running DECODE of `G` at `pos`. -/
def atItem (pos : Nat) : State := { args 0 0 0 bytesG [] with
  status := .busy, eng := { Engine.rest with cmd := some .decode, phase := .chunks, pos := pos } }

/-- The cursor and phase after a step. -/
def itemAfter (pos : Nat) : Option (Nat × Phase) := (nextOf (step (atItem pos))).map (fun t => (t.eng.pos, t.eng.phase))

theorem test_sig : itemAfter 0 = some (8, .chunks) := by decide +kernel
theorem test_cIhdr : itemAfter 8 = some (33, .chunks) := by decide +kernel
theorem test_cIdat : itemAfter 33 = some (50, .chunks) := by decide +kernel
theorem test_cIend : itemAfter 50 = some (62, .merge) := by decide +kernel
/-- V41's `tEXt` record. -/
theorem test_cOther : (nextOf (exec (.cOther 0 ⟨0x74, 0x45, 0x58, 0x74⟩) { State.reset with
    inp := Memory.ofBytes 0 [0, 0, 0, 0, 0x74, 0x45, 0x58, 0x74, 0x96, 0x42, 0xC5, 0x85], inLen := 12 })).map
      (fun t => (t.eng.pos, t.eng.list)) = some (12, [⟨0, ⟨0x74, 0x45, 0x58, 0x74⟩, [], 0x9642C585⟩]) := by decide +kernel

/-! The bus (R11), registers from address 256 and `IN` from 4096; what the host reads where (R36, R324). -/

/-- An engine with a map of five regions. -/
def mapped (s : State) : State :=
  { s with regMap := ⟨[⟨256, 24, .regs, 0⟩, ⟨4096, 8, .inBytes, 4⟩, ⟨4104, 8, .outBytes, 0⟩, ⟨5000, 1, .kindEntries, 0⟩,
      ⟨8192, 3, .chunkEntries, 0⟩], .own⟩ }

/-- An engine whose `IN` lies at cell 0 of a storage, `OUT` at cell `out`, `KIND` at 100 and `CHUNKS` at 105. -/
def sharing (out : Nat) (s : State) : State :=
  { s with regMap := ⟨[], ⟨some 0, some out, some 100, some 105, none, none⟩⟩ }

/-- An outcome as data that can be compared. -/
def plain {A : Type} : Host.Outcome A Fault Refusal → Except (Sum Fault Refusal) A
  | .next a => .ok a
  | .fault r => .error (.inl r)
  | .refused r => .error (.inr r)

theorem test_bus_reads : ([256 + 10, 4096, 255, 256 + 24].map (fun a => plain (hostReadAt a (mapped (args 7 2 0 v20 []))))) =
    [.ok (.number 7), .ok (.number 0x40), .error (.inr .unmapped), .error (.inr .unmapped)] := by decide +kernel
/-- R39, R70: the IEND of P1 read through the map. -/
theorem test_bus_chunk : plain (hostReadAt 8194 (mapped (after 3 (args 0 0 0 bytesG [])))) =
    .ok (.chunk ⟨0, tagIend, [], 0xAE426082⟩) := by decide +kernel
/-- R70: RECON of one pixel with `OUT` behind the five bytes of `IN`, which then holds it too, and the row's kind 3 at
offset 100; a write of the one is seen in the other, and one at a Chunk's entry loses it. -/
theorem test_shared_storage :
    (nextOf (exec .cmdRecon (sharing 5 (args 1 1 0 [3, 1, 2, 3, 4] [])))).map
      (fun t => (t.inp.map (fun c => c.2), (nextOf (hostWriteIn 6 0xEE t)).map (fun u => u.out.map (fun c => c.2)))) =
      some ([3, 1, 2, 3, 4, 1, 2, 3, 4, 3], some [1, 0xEE, 3, 4]) ∧
    (nextOf (hostWriteIn 107 0 (sharing 200 (after 3 (args 0 0 0 bytesG []))))).map (fun t => t.chunksLost) = some [2] := by
  decide +kernel
/-- R329: `OUT` one cell lower lies in the operand. -/
theorem test_aliased : plain (exec .cmdRecon (sharing 4 (args 1 1 0 [3, 1, 2, 3, 4] []))) = .error (.inr .aliased) := by
  decide +kernel
theorem test_bus_write : (nextOf (hostWriteAt 256 6 (mapped State.reset))).map (fun t => t.cmd) = some (some 6) := by
  decide +kernel
/-- V22's ERROR: `ERR_POS` and `ERR_ACTUAL` are read, an argument and a length are not. -/
theorem test_reads_in_error : let t := after 4 (args 1 2 0 [0, 1, 2, 3, 4, 5, 1, 2, 3, 4] [])
    [Reg.errPos, .errActual, .argWidth, .outLen].map (fun r => plain (hostRead r t)) =
      [.ok 1, .ok 5, .error (.inr .inError), .error (.inl .noValue)] := by decide +kernel
/-- DONE after FILTER: `OUT_LEN` and an argument are read, the error's place and the entries of `KIND` are not. -/
theorem test_reads_after_filter : let t := after 5 (args 1 1 0 [1, 2, 3, 4] [4])
    [Reg.outLen, .argWidth, .errPos].map (fun r => plain (hostRead r t)) = [.ok 5, .ok 1, .error (.inl .noValue)] ∧
      plain (hostReadKind 0 t) = .error (.inl .noValue) := by decide +kernel

/-- C8: the types a RECON left in `KIND` are no operand of FILTER; rewritten by the host, they are. -/
theorem test_filter_after_recon : let t := { after 4 (args 1 1 0 [3, 1, 2, 3, 4] []) with
      inp := Memory.ofBytes 0 [1, 2, 3, 4], inLen := 4 }
    plain (exec .cmdFilter t) = .error (.inl .unwritten) ∧
      ((nextOf (hostWriteKind 0 3 t)).bind (fun u => nextOf (exec .cmdFilter u))).map (fun u => u.out) =
        some (Memory.ofBytes 0 [3, 1, 2, 3, 4]) := by decide +kernel

/-! Commands: P2, P3, V40, V20, V6, V30, and the errors V22, V63(a), V52. -/

theorem test_decode : let t := after 1 (args 0 0 0 bytesP2 [])
    t.status = .done ∧ t.out = Memory.ofBytes 0 v20Out ∧ t.kind = [(0, 1), (1, 4)] ∧ t.nChunks = 3 ∧
      t.res = ⟨2, 2, 8, 6, 0, 0, 0⟩ ∧ t.resValid = true := by decide +kernel
theorem test_parse : let t := after 3 (args 0 0 0 bytesP2 [])
    t.status = .done ∧ t.chunks.map (fun c => (c.length, c.crc)) = [(13, 0x72B60D24), (18, 0xBEE5D839), (0, 0xAE426082)] ∧
      t.outLen = 0 := by decide +kernel
theorem test_encode : let t := after 2 (args 2 4 16 img24 [])
    t.status = .done ∧ t.outLen = 117 ∧ t.kind = [(0, 0), (1, 1), (2, 2), (3, 4)] ∧
      t.chunks.map (fun c => (c.length, c.crc)) =
        [(13, 0xA4EFEE39), (16, 0x32D87A86), (16, 0x04160FB3), (4, 0x9F96F84C), (0, 0xAE426082)] := by decide +kernel
theorem test_recon : let t := after 4 (args 2 2 0 v20 [])
    t.status = .done ∧ t.out = Memory.ofBytes 0 v20Out ∧ t.kind = [(0, 1), (1, 4)] ∧ t.nChunks = 0 := by decide +kernel
theorem test_filter : let t := after 5 (args 2 3 0 v6 [4, 3, 1])
    t.status = .done ∧ t.out = Memory.ofBytes 0 [0x04, 0x01, 0x02, 0x03, 0x04, 0x04, 0x04, 0x04, 0x04, 0x03, 0x09, 0x09, 0x0A, 0x0A, 0x06, 0x06, 0x06, 0x06, 0x01, 0x11, 0x12, 0x13, 0x14, 0x04, 0x04, 0x04, 0x04] := by decide +kernel
theorem test_select : let t := after 6 (args 2 4 0 img24 [])
    t.status = .done ∧ t.kind = [(0, 0), (1, 1), (2, 2), (3, 4)] ∧ t.outLen = 0 := by decide +kernel
theorem test_bad_filter_type : let t := after 4 (args 1 2 0 [0, 1, 2, 3, 4, 5, 1, 2, 3, 4] [])
    t.status = .error ∧ t.err = ⟨1, 4, 0, 0, 0, 0, 5, 1⟩ ∧ t.outLen = 0 := by decide +kernel
theorem test_checksum : let t := after 1 (args 0 0 0 (bytesG.set 41 0x01) [])
    t.status = .error ∧ t.err = ⟨2, 0, 0, 0x49444154, 5, 0x1A3A1B04, 0x275A32B4, 0⟩ := by decide +kernel
theorem test_truncated : (after 3 (args 0 0 0 (bytesG.take 61) [])).err = ⟨1, 2, 0, 0, 0, 0, 0, 50⟩ ∧
    (after 3 (args 0 0 0 (bytesG.take 50) [])).err = ⟨1, 3, 0, 0, 0, 0, 0, 50⟩ := by decide +kernel
/-! Witnesses: for each obligation with hypotheses, a state and operands that meet all of them, for each clause. -/

theorem witness_DecodeInvertsEncode : (Instr.cOther 0xFFFFFFFF ⟨0x74, 0x45, 0x58, 0x74⟩).wf = true ∧ (Instr.cIhdr 0).wf = true ∧
    Instr.cmdSelect.wf = true := by decide

theorem witness_EncodeInvertsDecode :
    decode .chunk [0, 0, 0, 1, 0x74, 0x45, 0x58, 0x74, 0xAA] = .ok (.cOther 1 ⟨0x74, 0x45, 0x58, 0x74⟩, [0xAA]) ∧
    decode .encByte [4] = .ok (.encPaeth, []) := ⟨rfl, rfl⟩

theorem witness_IllegalCodesAreRejected : 5 ≤ (5 : Byte).toNat ∧ 5 ≤ (255 : Byte).toNat ∧ (0 : Byte).toNat = 0 ∧
    7 ≤ (7 : Byte).toNat ∧ 7 ≤ (255 : Byte).toNat := by decide

theorem witness_StepRunsTheWrittenCommand : (written 1 State.reset).status ≠ .busy ∧ (written 1 State.reset).cmd = some 1 ∧
    decode .command [1] = .ok (.cmdDecode, []) ∧ decode .command [6] = .ok (.cmdSelect, []) := ⟨by decide, rfl, rfl, rfl⟩

/-- Both clauses: offset 0, and the last record, whose 12 bytes end where `IN` ends. -/
theorem witness_StepRunsTheDueDatastreamItem :
    ((atItem 0).status = .busy ∧ (atItem 0).eng.op = none ∧ (atItem 0).eng.phase = .chunks ∧ (atItem 0).eng.pos = 0) ∧
    ((atItem 50).status = .busy ∧ (atItem 50).eng.op = none ∧ (atItem 50).eng.phase = .chunks ∧ (atItem 50).eng.pos ≠ 0 ∧
      (atItem 50).input = bytesG ∧ (atItem 50).eng.pos + 12 = bytesG.length ∧
      decode .chunk (bytesG.drop (atItem 50).eng.pos) = .ok (.cIend 0, [0xAE, 0x42, 0x60, 0x82])) :=
  ⟨by decide, by decide, by decide, by decide, by decide, by decide +kernel, by decide, rfl⟩

/-- A BUSY state at a scanline record of the reconstruct direction, its type byte the last byte there is; and one of
the filter direction. -/
theorem witness_StepRunsTheDueScanlineRecord :
    (let s := atRecord 1 1 [0, 1, 2, 3, 4, 4] [1, 2, 3, 4]
     s.status = .busy ∧ s.eng.op = none ∧ s.eng.row < s.eng.height.toNat ∧ s.eng.phase = .recon ∧
      s.eng.row * (1 + 4 * s.eng.width.toNat) + 1 = s.eng.f.length ∧
      decode .recon (s.eng.f.drop (s.eng.row * (1 + 4 * s.eng.width.toNat))) = .ok (.rPaeth, [])) ∧
    (let s := running .filter (args 2 3 0 v6 [4, 3, 1])
     s.status = .busy ∧ s.eng.op = none ∧ s.eng.row < s.eng.height.toNat ∧ s.eng.phase = .filt ∧
      s.eng.kinds[s.eng.row]? = some .paeth ∧ decode .filter [FilterKind.paeth.code] = .ok (.fPaeth, [])) :=
  ⟨⟨by decide, by decide, by decide, by decide, by decide, rfl⟩,
    by decide +kernel, by decide +kernel, by decide +kernel, by decide +kernel, by decide +kernel, rfl⟩

/-- An opened record at its last column, in either direction. -/
def atColumn (phase : Phase) : State := { args 1 1 0 [1, 2, 3, 4] [0] with
  status := .busy
  eng := { Engine.rest with
    phase := phase, op := some .sub, width := 1, height := 1, col := 3, f := [1, 1, 2, 3, 4], out := [1, 2, 3] } }

theorem witness_StepRunsTheDueByteOperation :
    (atColumn .recon).status = .busy ∧ (atColumn .recon).eng.op = some .sub ∧
    (atColumn .recon).eng.col + 1 = 4 * (atColumn .recon).eng.width.toNat ∧
    (atColumn .recon).eng.row * (1 + 4 * (atColumn .recon).eng.width.toNat) + 1 + (atColumn .recon).eng.col <
      (atColumn .recon).eng.f.length ∧
    (atColumn .recon).eng.out.length =
      (atColumn .recon).eng.row * (4 * (atColumn .recon).eng.width.toNat) + (atColumn .recon).eng.col ∧
    (atColumn .filt).input = [1, 2, 3, 4] ∧
    (atColumn .filt).eng.row * (4 * (atColumn .filt).eng.width.toNat) + (atColumn .filt).eng.col < 4 := by decide

theorem witness_StepWithoutACommandWaits : State.reset.status ≠ .busy ∧ State.reset.cmd = none ∧
    (written 0 State.reset).cmd = some 0 ∧ (written 7 State.reset).cmd = some 7 ∧ 7 ≤ (7 : Byte).toNat := by decide

/-- Every state made by the host from reset meets the invariant. -/
theorem inv_args (w h m : U32) (IN kinds : Bytes) : (args w h m IN kinds).Inv where
  inWf := ofBytes_wf IN
  kindWf := ofBytes_wf kinds
  outExtent := ⟨rfl, fun o => rfl⟩
  chunkCount := rfl
  chunksOk := fun c hc => by cases hc
  lostInside := fun _ hi => by cases hi
  lostSorted := .nil
  listOk := fun c hc => by cases hc
  noError := fun _ => rfl
  errorClass := fun hh => by cases hh
  subOnlyFormat := fun hh => absurd rfl hh
  resultsOnlyDone := fun _ => ⟨rfl, rfl, rfl⟩
  kindsOnlyDone := fun _ => rfl
  diagHeld := fun _ hi => by cases hi
  diagSorted := .nil
  headerAccepted := fun hh => by cases hh
  headerAbsent := fun _ => rfl
  restOutside := fun _ => rfl
  posInside := Nat.zero_le _
  rowInside := Nat.zero_le _
  rowOpen := fun hh => absurd rfl hh
  colInside := Nat.zero_le _
  colClosed := fun _ => rfl
  rowsFresh := fun _ => ⟨rfl, rfl, rfl⟩
  dimsPositive := fun hh => by cases hh
  outHeld := fun hh => by cases hh

/-- A BUSY state that meets the invariant: RECON of V20 about to start. -/
theorem inv_running : (running .recon (args 2 2 0 v20 [])).Inv where
  inWf := by decide +kernel
  kindWf := by decide +kernel
  outExtent := ⟨by decide +kernel, fun o => rfl⟩
  chunkCount := by decide +kernel
  chunksOk := fun c hc => by
    rw [show (running .recon (args 2 2 0 v20 [])).chunks = [] by decide +kernel] at hc; cases hc
  lostInside := fun _ hi => by cases hi
  lostSorted := .nil
  listOk := fun c hc => by
    rw [show (running .recon (args 2 2 0 v20 [])).eng.list = [] by decide +kernel] at hc; cases hc
  noError := by decide +kernel
  errorClass := by decide +kernel
  subOnlyFormat := by decide +kernel
  resultsOnlyDone := by decide +kernel
  kindsOnlyDone := by decide +kernel
  diagHeld := by decide +kernel
  diagSorted := by decide +kernel
  headerAccepted := by decide +kernel
  headerAbsent := by decide +kernel
  restOutside := by decide +kernel
  posInside := by decide +kernel
  rowInside := by decide +kernel
  rowOpen := by decide +kernel
  colInside := by decide +kernel
  colClosed := by decide +kernel
  rowsFresh := by decide +kernel
  dimsPositive := by decide +kernel
  outHeld := by decide +kernel

/-- A step of a running command, and a whole command. -/
theorem witness_StepKeepsTheInvariant :
    (∃ t, (running .recon (args 2 2 0 v20 [])).Inv ∧ step (running .recon (args 2 2 0 v20 [])) = .next t) ∧
    (∃ s t, s.Inv ∧ s.status ≠ .busy ∧ s.cmd = none ∧ step s = .next t) :=
  ⟨(next_exists (o := step (running .recon (args 2 2 0 v20 []))) (by decide +kernel)).imp fun _ h => ⟨inv_running, h⟩,
    ⟨args 0 0 0 [] [], args 0 0 0 [] [], inv_args _ _ _ _ _, by decide, rfl, rfl⟩⟩

theorem witness_CommandStartMeetsTheInvariant :
    ∃ b, (args 2 2 0 v20 []).Inv ∧ startCommand .recon (args 2 2 0 v20 []) = .next b :=
  (next_exists (o := startCommand .recon (args 2 2 0 v20 [])) (by decide +kernel)).imp fun _ h => ⟨inv_args _ _ _ _ _, h⟩

/-- A state that owns the block; one that does not and meets the invariant; the boundary values of each clause: the widest
argument and the first beyond it, the least and greatest codes of either kind, the last offset below a capacity and the
first at it. -/
theorem witness_HostWritesSetTheirTargetAndKeepTheInvariant :
    (owned (written 1 State.reset) = true ∧ owned (running .recon (args 2 2 0 v20 [])) = true) ∧
    ((args 0 0 0 [] []).Inv ∧ owned (args 0 0 0 [] []) = false) ∧
    (let s := { args 0 0 0 [] [] with caps := ⟨some 6, none, some 1, none⟩ }
     owned s = false ∧ 2 ^ 32 - 1 < 2 ^ 32 ∧ Reg.argMaxIdat ∈ [Reg.argWidth, .argHeight, .argMaxIdat] ∧ 6 ≤ 6 ∧ 7 ≤ 7 ∧
      255 < 2 ^ 8 ∧ Reg.outLen ∉ [Reg.cmd, .argWidth, .argHeight, .argMaxIdat, .inLen, .kindLen] ∧
      (∀ cap, s.caps.capIn = some cap → 5 < cap) ∧ (∀ cap, s.caps.capKind = some cap → 0 < cap) ∧
      s.caps.capIn = some 6 ∧ s.caps.capKind = some 1) ∧
    (nextOf (hostWrite .argWidth (2 ^ 32 - 1) (args 0 0 0 [] []))).isSome = true ∧
    (nextOf (hostWriteIn 5 1 (args 0 0 0 [] []))).isSome = true ∧
    (nextOf (hostWriteKind 0 4 (args 0 0 0 [] []))).isSome = true :=
  ⟨by decide +kernel, ⟨inv_args _ _ _ _ _, by decide⟩,
    ⟨by decide, by decide, by decide, by decide, by decide, by decide, by decide, fun _ h => by cases h; decide,
      fun _ h => by cases h; decide, rfl, rfl⟩, by decide +kernel, by decide +kernel, by decide +kernel⟩

/-- Two states that own the block; one in IDLE; P2's DONE, with a header, and the last place and the first beyond it of
`OUT`, `KIND` and `CHUNKS`; DONE after FILTER, with no kinds of its own; V22's ERROR. -/
theorem witness_HostReadsFollowTheAccessRights :
    owned (running .recon (args 2 2 0 v20 [])) = true ∧ owned (written 1 State.reset) = true ∧
    (let s := args 1 1 0 [1, 2, 3, 4] [4]
     owned s = false ∧ s.status ≠ .done ∧ s.status ≠ .error ∧ 3 < s.inLen ∧ s.inp.read 3 = some 4 ∧ s.inLen ≤ 4 ∧
      owned (after 5 s) = false ∧ (after 5 s).status = .done ∧ (after 5 s).kindValid = false) ∧
    (let t := after 1 (args 0 0 0 bytesP2 [])
     owned t = false ∧ t.resValid = true ∧ t.kindValid = true ∧ t.status = .done ∧
      t.outLen ≤ 16 ∧ 15 < t.outLen ∧ t.out.read 15 = some 0x80 ∧ t.kindLen ≤ 2 ∧ 1 < t.kindLen ∧ t.kind.read 1 = some 4 ∧
      t.nChunks ≤ 3 ∧ 2 < t.nChunks ∧ t.chunks[2]? = some ⟨0, tagIend, [], 0xAE426082⟩) ∧
    (let t := after 4 (args 1 2 0 [0, 1, 2, 3, 4, 5, 1, 2, 3, 4] [])
     owned t = false ∧ t.status = .error) ∧
    (let s := mapped State.reset
     busPlace s.regMap.regions 255 = none ∧ busPlace s.regMap.regions 279 = some (.regs, regIndex .resInterlace) ∧
      busPlace s.regMap.regions 4103 = some (.inBytes, 11) ∧ busPlace s.regMap.regions 4104 = some (.outBytes, 0) ∧
      busPlace s.regMap.regions 5000 = some (.kindEntries, 0) ∧ busPlace s.regMap.regions 8194 = some (.chunkEntries, 2)) := by
  decide +kernel

theorem witness_BufferReadsAfterAWrite : Memory.wf [(0, 1), (7, 2)] = true ∧
    (∃ m n : Memory, m.wf = true ∧ n.wf = true ∧ (∀ o, m.read o = n.read o) ∧ m ≠ []) ∧
    (3 < (args 1 1 0 [1, 2, 3, 4] []).inLen ∧ (args 1 1 0 [1, 2, 3, 4] []).inp.read 3 = some 4) ∧
    (let s := sharing 5 (args 1 1 0 [3, 1, 2, 3, 4] [])
     apart s.regMap.storage ⟨[1, 2, 3, 4], [3], 2, 0, 0⟩ s.inLen 0 = true ∧ insideCap s.caps.capIn 8 = true ∧
      sharedOffset s.regMap.storage.outCell s.regMap.storage.inCell 3 = some 8 ∧
      sharedOffset s.regMap.storage.chunkCell s.regMap.storage.inCell 1 = some 106) :=
  ⟨by decide, ⟨[(0, 1)], Memory.write [] 0 1, by decide, by decide, fun _ => rfl, by decide⟩, ⟨by decide, rfl⟩, by decide⟩

/-- V28: each branch, with the ties at the edge of the first and of the second. -/
theorem witness_PaethPicksTheNearestNeighbour :
    let pa := fun (_a b c : Byte) => ((b.toNat : Int) - c.toNat).natAbs
    let pb := fun (a _b c : Byte) => ((a.toNat : Int) - c.toNat).natAbs
    let pc := fun (a b c : Byte) => ((a.toNat : Int) + b.toNat - 2 * c.toNat).natAbs
    (pa 6 12 10 ≤ pb 6 12 10 ∧ pa 6 12 10 = pc 6 12 10) ∧
    (¬(pa 12 6 10 ≤ pb 12 6 10 ∧ pa 12 6 10 ≤ pc 12 6 10) ∧ pb 12 6 10 = pc 12 6 10) ∧
    (¬(pa 2 6 4 ≤ pb 2 6 4 ∧ pa 2 6 4 ≤ pc 2 6 4) ∧ ¬pb 2 6 4 ≤ pc 2 6 4) := by decide

/-- V8 at the boundary bytes: columns 3 and 4, rows 0 and 1. -/
theorem witness_SamplingAtAndInsideTheEdges :
    windowAt 4 v6 8 0 3 = ⟨4, 0, 0, 0⟩ ∧ windowAt 5 v6 8 0 4 = ⟨5, 1, 0, 0⟩ ∧ windowAt 12 v6 8 1 3 = ⟨12, 0, 4, 0⟩ ∧
    windowAt 13 v6 8 1 4 = ⟨13, 9, 5, 1⟩ := by decide +kernel

theorem witness_SamplingReadsOnlyEarlierBytes : 7 < 8 ∧ v6 ≠ v6.set 15 0 ∧
    ∀ o, o < 1 * 8 + 7 → v6.getD o 0 = (v6.set 15 0).getD o 0 := by decide +kernel

/-- The row ends where the stream ends. -/
theorem witness_ReconRecordResult : let s := atRecord 1 1 [0, 1, 2, 3, 4, 4, 1, 1, 1, 1] [1, 2, 3, 4]
    s.eng.row * (1 + 4 * s.eng.width.toNat) + 1 + 4 * s.eng.width.toNat = s.eng.f.length ∧
    s.eng.out.length = s.eng.row * (4 * s.eng.width.toNat) := by decide

/-- One byte short. -/
theorem witness_ReconRecordShortStreamRaises : let s := atRecord 1 1 [0, 1, 2, 3, 4, 4, 1, 1, 1] [1, 2, 3, 4]
    s.eng.f.length + 1 = s.eng.row * (1 + 4 * s.eng.width.toNat) + 1 + 4 * s.eng.width.toNat := by decide

/-- V26, V24, V22, V25, V27. -/
theorem witness_ReconstructSucceedsExactly :
    reconstruct [0, 1, 2, 3, 4, 2, 1, 2, 3, 4, 9, 9, 9] 2 4 = .ok ([1, 2, 3, 4, 2, 4, 6, 8], [.none, .up]) ∧
    reconstruct [0, 1, 2, 3, 4] 2 4 = .error (.filteredStreamShort 1) ∧
    reconstruct [0, 1, 2, 3, 4, 5, 1, 2, 3, 4] 2 4 = .error (.badFilterType 1 5) ∧
    reconstruct [0, 1, 2, 3, 4, 7, 1, 2] 2 4 = .error (.badFilterType 1 7) ∧
    reconstruct [0xFF] 1 4 = .error (.badFilterType 0 255) ∧
    reconstruct [] 1 4 = .error (.filteredStreamShort 0) := ⟨rfl, rfl, rfl, rfl, rfl, rfl⟩


/-- One row, read from a stream of just its record; the other stream is four bytes longer, none of them written. -/
theorem witness_ReconstructIgnoresSurplusBytes : 2 * (1 + 4) = ([0, 1, 2, 3, 4, 2, 1, 2, 3, 4] : Bytes).length ∧
    (let s := args 1 1 0 [3, 1, 2, 3, 4] []
     fitsCap s.caps.capIn 9 = true ∧ s.argHeight.toNat * (1 + 4 * s.argWidth.toNat) = s.inLen ∧ s.inLen < 9 ∧
      exec .cmdRecon s = .next (after 4 s) ∧ ∀ w, apart s.regMap.storage w 9 0 = true) :=
  ⟨by decide, by decide, by decide, by decide, next_of (by decide +kernel), fun _ => rfl⟩

theorem witness_ReconstructInvertsFilter : v6.length = ([.paeth, .average, .sub] : List FilterKind).length * 8 := by decide

theorem witness_FilterRecordResult : atRow1.input = v6 ∧
    (atRow1.eng.row + 1) * (4 * atRow1.eng.width.toNat) ≤ v6.length := by decide +kernel

theorem witness_FilteredStreamLayout : ([.sub, .up] : List FilterKind)[1]? = some .up := by decide

/-- V30 row 1: Paeth ties the chosen Sub, Sub comes after None. -/
theorem witness_BestIsTheFirstMinimum : FilterKind.none.code.toNat < (selectRow img24 8 1).code.toNat ∧
    3 < (4 : U32).toNat ∧ selectKinds img24 2 4 = [.none, .sub, .up, .paeth] := by decide +kernel

theorem witness_SelectionIsLocalToTwoRows : img24 ≠ img24.set 31 0 ∧
    ∀ o, (1 - 1) * 8 ≤ o → o < (1 + 1) * 8 → img24.getD o 0 = (img24.set 31 0).getD o 0 :=
  ⟨by decide, fun o _ h => by
    have h31 : 31 ≠ o := by omega
    simp [List.getD, h31]⟩

/-- Exactly the signature; and one byte less. -/
theorem witness_SignatureItemResult :
    (args 0 0 0 (bytesG.take 8) []).input = (bytesG.take 8) ∧
    (8 ≤ (bytesG.take 8).length ∧
      (bytesG.take 8).take 8 = [0x89, 0x50, 0x4E, 0x47, 0x0D, 0x0A, 0x1A, 0x0A]) ∧
    (args 0 0 0 (bytesG.take 7) []).input = (bytesG.take 7) ∧ ¬8 ≤ (bytesG.take 7).length := by decide +kernel

/-- The three named records of P1, the last ending where `IN` ends, and V41's `tEXt`. -/
theorem witness_ChunkRecordResult :
    ((atItem 8).input = bytesG ∧ (atItem 8).eng.pos + 12 + (13 : U32).toNat ≤ bytesG.length ∧
      u32At bytesG (8 + 8 + 13) = crc32 ([0x49, 0x48, 0x44, 0x52] ++ (bytesG.drop 16).take 13)) ∧
    ((atItem 33).eng.pos + 12 + (5 : U32).toNat ≤ bytesG.length ∧
      u32At bytesG (33 + 8 + 5) = crc32 ([0x49, 0x44, 0x41, 0x54] ++ (bytesG.drop 41).take 5)) ∧
    ((atItem 50).eng.pos + 12 + (0 : U32).toNat = bytesG.length ∧
      u32At bytesG (50 + 8 + 0) = crc32 ([0x49, 0x45, 0x4E, 0x44] ++ (bytesG.drop 58).take 0)) ∧
    (0x9642C585 : U32) = crc32 [0x74, 0x45, 0x58, 0x74] := by decide +kernel

/-- The end of `IN`; one byte less than the record needs; the record whole with a crc that is not its own (V63). -/
theorem witness_ChunkRecordErrors :
    (let s := { atItem 50 with inLen := 50 }
     s.input = (bytesG.take 50) ∧ s.eng.pos = (bytesG.take 50).length) ∧
    (let s := { atItem 50 with inLen := 61 }
     s.input = (bytesG.take 61) ∧ s.eng.pos < (bytesG.take 61).length ∧
      (bytesG.take 61).length + 1 = s.eng.pos + 12 + (0 : U32).toNat) ∧
    ((atItem 33).eng.pos + 12 + (5 : U32).toNat ≤ (bytesG.set 41 1).length ∧
      crc32 ([0x49, 0x44, 0x41, 0x54] ++ ((bytesG.set 41 1).drop 41).take 5) ≠ u32At (bytesG.set 41 1) 46) := by decide +kernel

/-- V63(a): bit 0 of the first payload byte of P1's IDAT. -/
theorem witness_FlippedPayloadBitRaisesChecksum :
    let s := { atItem 33 with inp := Memory.ofBytes 0 (bytesG.set 41 0x01) }
    let payload : Bytes := [0x00, 0x11, 0x22, 0x33, 0x44]
    payload.length = (5 : U32).toNat ∧ s.eng.pos + 8 = (bytesG.take 41).length ∧ payload[0]? = some 0 ∧
    (0x1A3A1B04 : U32) = crc32 ([0x49, 0x44, 0x41, 0x54] ++ payload) ∧
    s.input = (bytesG.take 41 ++ payload.set 0 (0x00 ^^^ BitVec.ofNat 8 (2 ^ 0)) ++ be32 0x1A3A1B04 ++ bytesG.drop 50) := by
  decide +kernel

theorem witness_ParseInvertsSerialize : let parts : List (Tag × Bytes) := [(tagIdat, [1, 2]), (tagIdat, []), (tagIhdr, [])]
    (∀ p ∈ parts, p.1 ≠ tagIend ∧ p.2.length < 2 ^ 32) ∧ ([0x55] : Bytes).length < 2 ^ 32 := by decide +kernel

theorem parse_G : parse bytesG = .ok
    [mkChunk tagIhdr [0, 0, 0, 1, 0, 0, 0, 1, 8, 6, 0, 0, 0], mkChunk tagIdat [0x00, 0x11, 0x22, 0x33, 0x44], mkChunk tagIend []] := by
  decide +kernel

/-- The datastream of P1 with nothing behind it, and in an `IN` two bytes longer, neither of them written. -/
theorem witness_ParseIgnoresBytesAfterIend : let s := args 0 0 0 bytesG []
    (∃ cs, parse bytesG = .ok cs) ∧ bytesG.length = s.inLen ∧ (∀ o, o < bytesG.length → s.inp.read o = bytesG[o]?) ∧
    fitsCap s.caps.capIn (bytesG.length + 2) = true ∧ exec .cmdParse s = .next (after 3 s) ∧
    exec .cmdDecode s = .next (after 1 s) ∧ ∀ w, apart s.regMap.storage w (bytesG.length + 2) 0 = true :=
  ⟨⟨_, parse_G⟩, rfl, fun o _ => read_ofBytes_zero bytesG o, rfl, next_of (by decide +kernel), next_of (by decide +kernel),
    fun _ => rfl⟩

/-- R128, U11: bytes behind IEND that the host never wrote stop no command. -/
theorem test_unwritten_bytes_behind_iend :
    let s := { args 0 0 0 bytesG [] with inLen := bytesG.length + 2 }
    (nextOf (exec .cmdParse s)).map (fun t => (t.status, t.nChunks)) = some (.done, 3) ∧
    (nextOf (exec .cmdDecode s)).map (fun t => (t.status, t.out.map (fun c => c.2))) =
      some (.done, [0x11, 0x22, 0x33, 0x44]) := by decide +kernel

theorem witness_ParsedChunksMeetTheInvariant : ∃ cs, parse bytesG = .ok cs := ⟨_, parse_G⟩

/-- Two IDAT chunks, then IEND: a run with a chunk behind it; a list that starts with another chunk; two neighbours in
the merged list. -/
theorem witness_MergeFoldsIdatRuns :
    let run := [mkChunk tagIdat [1, 2], mkChunk tagIdat [3]]
    let behind := [mkChunk tagIend []]
    (∀ c ∈ run ++ behind, c.length = c.payload.length ∧ c.crc = chunkCrc c.tag c.payload) ∧
    run ≠ [] ∧ (∀ d ∈ run, d.tag = tagIdat) ∧ (∀ c, behind.head? = some c → c.tag ≠ tagIdat) ∧
    behind = mkChunk tagIend [] :: [] ∧ (mkChunk tagIend []).tag ≠ tagIdat ∧
    merge (run ++ behind) = [] ++ mkChunk tagIdat [1, 2, 3] :: mkChunk tagIend [] :: [] :=
  ⟨by decide +kernel, by decide, by decide, fun c h => by cases h; decide, rfl, by decide, by decide +kernel⟩

theorem witness_HeaderCodecsInvertEachOther : ([0, 0, 0, 3, 0, 0, 0, 3, 8, 6, 0, 0, 0] : Bytes).length = 13 := by decide

/-- The first field violated (with others), and the last alone. -/
theorem witness_ValidateReportsTheFirstViolation :
    (let H : Header := ⟨0, 0, 16, 2, 1, 1, 1⟩
     ([H.compression == 0, H.filter == 0] : List Bool)[0]? = some false) ∧
    (let H : Header := ⟨1, 0, 8, 6, 0, 0, 0⟩
     let good : List Bool := [H.compression == 0, H.filter == 0, H.colorType == 6, H.bitDepth == 8, H.interlace == 0,
       H.width != 0, H.height != 0]
     good[6]? = some false ∧ ∀ j, j < 6 → good[j]? = some true) ∧
    validate ⟨1, 1, 8, 6, 0, 0, 0⟩ = .ok () := by decide +kernel

/-- V70: an empty payload; a bound that divides the length; one that does not. -/
theorem witness_SplitIdatCutsGreedily : 1 ≤ 16 ∧ (splitIdat [] 5).map (fun c => c.length) = [0] ∧
    (splitIdat (List.replicate 32 0) 16).map (fun c => c.length) = [16, 16] ∧
    (splitIdat (List.replicate 36 0) 35).map (fun c => c.length) = [35, 1] := by decide +kernel

theorem witness_PackagedStreamLength : 1 ≤ (1 : U32).toNat ∧ 1 ≤ (0xFFFFFFFF : U32).toNat := by decide

/-- A state each command ends DONE in, and the two that can end in ERROR ending there. -/
theorem witness_WhichCommandRaisesWhat :
    (∃ t, exec .cmdEncode (args 1 1 3 [1, 2, 3, 4] []) = .next t) ∧ (∃ t, exec .cmdFilter (args 1 1 0 [1, 2, 3, 4] [4]) = .next t) ∧
    (∃ t, exec .cmdSelect (args 1 1 0 [1, 2, 3, 4] []) = .next t) ∧
    (∃ t, exec .cmdParse (args 0 0 0 [] []) = .next t ∧ t.status ≠ .done) ∧
    (∃ t, exec .cmdRecon (args 1 1 0 [] []) = .next t ∧ t.status ≠ .done) :=
  ⟨next_exists (by decide +kernel), next_exists (by decide +kernel), next_exists (by decide +kernel),
    ⟨_, next_of (by decide +kernel : nextOf (exec .cmdParse (args 0 0 0 [] [])) = some (after 3 (args 0 0 0 [] []))), by decide +kernel⟩,
    ⟨_, next_of (by decide +kernel : nextOf (exec .cmdRecon (args 1 1 0 [] [])) = some (after 4 (args 1 1 0 [] []))), by decide +kernel⟩⟩

/-- The parse error, the wrong list (no IDAT), the short header (V67), the header refused (V52's), the failing `inflate`
(V68), the short stream (V69), and the image (P1). -/
theorem witness_DecodeCommandWhole :
    (let s := args 0 0 0 bytesG []
     s.status ≠ .busy ∧ fitsCap s.caps.capIn s.inLen = true ∧ s.input = bytesG ∧
      parse bytesG = .ok [mkChunk tagIhdr [0, 0, 0, 1, 0, 0, 0, 1, 8, 6, 0, 0, 0], mkChunk tagIdat [0x00, 0x11, 0x22, 0x33, 0x44],
        mkChunk tagIend []] ∧
      validate (decodeHeader [0, 0, 0, 1, 0, 0, 0, 1, 8, 6, 0, 0, 0]) = .ok () ∧
      inflate s.collab [0x00, 0x11, 0x22, 0x33, 0x44] = some [0x00, 0x11, 0x22, 0x33, 0x44] ∧
      reconstruct [0x00, 0x11, 0x22, 0x33, 0x44] 1 4 = .ok ([0x11, 0x22, 0x33, 0x44], [.none]) ∧
      fitsCap s.caps.capOut 4 = true ∧ fitsCap s.caps.capKind 1 = true ∧ fitsCap s.caps.capChunks 3 = true ∧
      apart s.regMap.storage ⟨[0x11, 0x22, 0x33, 0x44], [0], 3, 5, 5⟩ s.inLen 0 = true) ∧
    parse [] = .error .badSignature ∧
    parse (serialize [mkChunk tagIend []]) = .ok [mkChunk tagIend []] ∧
    parse (serialize [mkChunk tagIhdr [], mkChunk tagIdat [], mkChunk tagIend []]) =
      .ok [mkChunk tagIhdr [], mkChunk tagIdat [], mkChunk tagIend []] ∧
    validate ⟨1, 1, 8, 2, 0, 0, 0⟩ = .error (.unsupportedHeader 3 6 2) ∧
    inflate (.listed [([0x00, 0x11], none)] []) [0x00, 0x11] = none ∧
    reconstruct [0x00, 0x01, 0x02, 0x03, 0x04] 2 4 = .error (.filteredStreamShort 1) := by decide +kernel

theorem witness_EncodeCommandResult : let s := args 2 4 16 img24 []
    s.status ≠ .busy ∧ fitsCap s.caps.capIn s.inLen = true ∧ s.input = img24 ∧ 1 ≤ s.argWidth.toNat ∧
    1 ≤ s.argHeight.toNat ∧ s.inLen = s.argHeight.toNat * (4 * s.argWidth.toNat) ∧ 1 ≤ s.argMaxIdat.toNat ∧
    (∀ n, fitsCap s.caps.capOut n = true ∧ fitsCap s.caps.capKind n = true ∧ fitsCap s.caps.capChunks n = true) ∧
    ∀ w, apart s.regMap.storage w s.inLen 0 = true :=
  ⟨by decide, by decide, by decide +kernel, by decide, by decide, by decide, by decide, fun _ => ⟨rfl, rfl, rfl⟩, fun _ => rfl⟩

theorem witness_ParseCommandWhole : let s := args 0 0 0 bytesG []
    s.status ≠ .busy ∧ fitsCap s.caps.capIn s.inLen = true ∧ s.input = bytesG ∧ (∃ cs, parse bytesG = .ok cs) ∧
    (∀ n, fitsCap s.caps.capOut 0 = true ∧ fitsCap s.caps.capKind 0 = true ∧ fitsCap s.caps.capChunks n = true) ∧
    parse (bytesG.take 61) = .error (.truncated 50) ∧ (args 0 0 0 (bytesG.take 61) []).input = (bytesG.take 61) ∧
    ∀ w, apart s.regMap.storage w s.inLen 0 = true :=
  ⟨by decide, by decide, by decide +kernel, ⟨_, parse_G⟩, fun _ => ⟨rfl, rfl, rfl⟩, by decide +kernel, by decide +kernel,
    fun _ => rfl⟩

theorem witness_ReconCommandWhole : let s := args 1 1 0 [3, 1, 2, 3, 4] []
    s.status ≠ .busy ∧ fitsCap s.caps.capIn s.inLen = true ∧ s.input = [3, 1, 2, 3, 4] ∧ 1 ≤ s.argWidth.toNat ∧
    1 ≤ s.argHeight.toNat ∧ reconstruct [3, 1, 2, 3, 4] 1 4 = .ok ([1, 2, 3, 4], [.average]) ∧
    reconstruct [] 1 4 = .error (.filteredStreamShort 0) ∧ (args 1 1 0 [] []).input = [] ∧
    fitsCap s.caps.capOut 4 = true ∧ fitsCap s.caps.capKind 1 = true ∧ fitsCap s.caps.capChunks 0 = true ∧
    (∀ w, apart s.regMap.storage w s.inLen 0 = true) ∧
    apart (sharing 5 s).regMap.storage ⟨[1, 2, 3, 4], [3], 0, 0, 0⟩ (sharing 5 s).inLen 0 = true :=
  ⟨by decide, by decide, by decide, by decide, by decide, rfl, rfl, by decide, rfl, rfl, rfl, fun _ => rfl, by decide⟩

theorem witness_FilterCommandResult : let s := args 2 3 0 v6 [4, 3, 1]
    s.status ≠ .busy ∧ fitsCap s.caps.capIn s.inLen = true ∧ s.input = v6 ∧ 1 ≤ s.argWidth.toNat ∧
    1 ≤ s.argHeight.toNat ∧ s.inLen = s.argHeight.toNat * (4 * s.argWidth.toNat) ∧ s.kindLen = s.argHeight.toNat ∧
    ([.paeth, .average, .sub] : List FilterKind).length = s.kindLen ∧ fitsCap s.caps.capKind s.kindLen = true ∧
    (∀ i ∈ s.kindDiag, s.kindLen ≤ i) ∧
    (∀ i f, ([.paeth, .average, .sub] : List FilterKind)[i]? = some f → s.kind.read i = some f.code) ∧
    fitsCap s.caps.capOut 27 = true ∧ fitsCap s.caps.capChunks 0 = true ∧
    ∀ w, apart s.regMap.storage w s.inLen s.kindLen = true := by
  refine ⟨by decide, by decide, by decide +kernel, by decide, by decide, by decide, by decide, by decide, by decide, by decide, ?_, rfl, rfl, fun _ => rfl⟩
  intro i f h
  match i, h with
  | 0, h => cases h; rfl
  | 1, h => cases h; rfl
  | 2, h => cases h; rfl
  | n + 3, h => simp at h

/-- P2 decoded, then FILTER of its pixels with one of the two kinds rewritten, the other still the type DECODE read. -/
def decodedThenOneKind : State :=
  { after 1 (args 0 0 0 bytesP2 []) with
    argWidth := 2, argHeight := 2, inp := Memory.ofBytes 0 v20Out, inLen := 16, kindDiag := [1] }

theorem witness_FilterCommandResult_stale :
    (nextOf (exec .cmdDecode (args 0 0 0 bytesP2 []))).isSome = true ∧
    (nextOf (exec .cmdRecon (args 2 2 0 v20 []))).isSome = true ∧
    (nextOf (hostWriteKind 0 1 (after 1 (args 0 0 0 bytesP2 [])))).map (fun t => t.kindDiag) = some [1] ∧
    (let s := decodedThenOneKind
     s.status ≠ .busy ∧ fitsCap s.caps.capIn s.inLen = true ∧ s.input = v20Out ∧ 1 ≤ s.argWidth.toNat ∧
      1 ≤ s.argHeight.toNat ∧ s.inLen = s.argHeight.toNat * (4 * s.argWidth.toNat) ∧ s.kindLen = s.argHeight.toNat ∧
      fitsCap s.caps.capKind s.kindLen = true ∧ ∃ i ∈ s.kindDiag, i < s.kindLen) := by decide +kernel

theorem witness_SelectCommandResult : let s := args 1 1 0 [1, 2, 3, 4] []
    s.status ≠ .busy ∧ fitsCap s.caps.capIn s.inLen = true ∧ s.input = [1, 2, 3, 4] ∧ 1 ≤ s.argWidth.toNat ∧
    1 ≤ s.argHeight.toNat ∧ s.inLen = s.argHeight.toNat * (4 * s.argWidth.toNat) ∧ fitsCap s.caps.capOut 0 = true ∧
    fitsCap s.caps.capKind 1 = true ∧ fitsCap s.caps.capChunks 0 = true ∧
    apart s.regMap.storage ⟨[], [0], 0, 0, 0⟩ s.inLen 0 = true := by decide

theorem witness_CommandsStartedWronglyAreRefused :
    (atItem 0).status = .busy ∧ State.reset.status ≠ .busy ∧
    (let s := { args 1 1 0 [1, 2, 3, 4] [] with caps := ⟨some 3, none, none, none⟩ }
     s.caps.capIn = some 3 ∧ 3 < s.inLen) ∧
    (args 0 1 1 [] [0]).argWidth = 0 ∧ (args 1 0 1 [] []).argHeight = 0 ∧
    (args 1 1 1 [1, 2, 3, 4, 5] [0]).inLen ≠ (args 1 1 1 [1, 2, 3, 4, 5] [0]).argHeight.toNat * (4 * 1) ∧
    (args 1 1 0 [1, 2, 3, 4] [0]).argMaxIdat = 0 ∧ (args 1 1 1 [1, 2, 3, 4] []).kindLen ≠ 1 ∧
    (let s := args 1 1 0 [1, 2, 3, 4] [5]
     s.input = [1, 2, 3, 4] ∧ (∀ i, i < s.kindLen → (s.kind.read i).isSome = true) ∧
      (∀ i ∈ s.kindDiag, s.kindLen ≤ i) ∧ 0 < s.kindLen ∧
      s.kind.read 0 = some 5 ∧ 4 < (5 : Byte).toNat) ∧
    (let s := { args 1 1 1 [1, 2, 3, 4] [4, 4] with caps := ⟨none, none, some 1, none⟩ }
     s.caps.capKind = some 1 ∧ 1 < s.kindLen) ∧
    (let s := { args 1 1 0 [1, 2, 3, 4] [4] with caps := ⟨none, some 4, some 1, some 0⟩ }
     fitsCap s.caps.capKind s.kindLen = true ∧
      (nextOf (exec .cmdFilter { s with caps := ⟨s.caps.capIn, none, none, none⟩ })).map
        (fun t => (t.status, fitsCap s.caps.capOut t.outLen)) = some (.done, false)) ∧
    (let s := { args 1 1 3 [1, 2, 3, 4] [] with caps := ⟨none, none, some 0, some 1⟩ }
     (nextOf (exec .cmdEncode { s with caps := ⟨s.caps.capIn, none, none, none⟩ })).map
        (fun t => (t.status, fitsCap s.caps.capChunks t.nChunks, fitsCap s.caps.capKind t.kindLen)) =
      some (.done, false, false)) ∧
    (nextOf (exec .cmdFilter (args 1 1 0 [1, 2, 3, 4] [4]))).map (fun t => t.status) = some .done ∧
    (let s := sharing 4 (args 1 1 0 [3, 1, 2, 3, 4] [])
     (nextOf (exec .cmdRecon { s with regMap := ⟨s.regMap.regions, .own⟩ })).map (fun t => (t.status,
       overlap (s.regMap.storage.outCell, t.outLen) (s.regMap.storage.inCell, s.inLen))) = some (.done, true)) := by
  decide +kernel

/-- A fresh engine and one that has ended a command: the same arguments, different pasts. -/
theorem witness_CommandsDependOnTheirArgumentsAlone :
    let s := args 1 1 0 [1, 2, 3, 4] [4]
    let t := { after 5 s with argWidth := 1 }
    s.status ≠ .busy ∧ t.status ≠ .busy ∧ s ≠ t ∧ s.argWidth = t.argWidth ∧ s.argHeight = t.argHeight ∧
    s.argMaxIdat = t.argMaxIdat ∧ s.input = t.input ∧
    s.kindLen = t.kindLen ∧ s.kind = t.kind ∧ s.caps = t.caps ∧ s.collab = t.collab ∧ s.regMap = t.regMap ∧
    (nextOf (exec .cmdFilter s)).isSome = true ∧ (nextOf (exec .cmdFilter t)).isSome = true := by decide +kernel

/-- P5: the identity collaborator meets the law of R264 on every argument. -/
theorem witness_DecodeInvertsEncodeCommand :
    let s := args 1 1 3 [0x11, 0x22, 0x33, 0x44] []
    let t := after 2 s
    let u := { args 0 0 0 (t.out.map (fun c => c.2)) [] with inLen := t.outLen }
    s.input = [0x11, 0x22, 0x33, 0x44] ∧ (∀ b : Bytes, inflate s.collab (deflate s.collab b) = some b) ∧
    exec .cmdEncode s = .next t ∧ u.status ≠ .busy ∧ u.caps = ⟨none, none, none, none⟩ ∧ u.regMap.storage = .own ∧ u.collab = s.collab ∧
    u.inLen = t.outLen ∧ (∀ o, o < u.inLen → u.inp.read o = t.out.read o) :=
  ⟨by decide, fun _ => rfl, next_of (by decide +kernel), by decide, by decide, by decide, by decide, rfl, by decide +kernel⟩

/-- Every command starts somewhere. -/
theorem witness_SequencerRefinesTheCommands : ∀ p ∈ [(Command.decode, args 0 0 0 bytesG []), (.encode, args 1 1 3 [1, 2, 3, 4] []),
    (.parse, args 0 0 0 bytesG []), (.recon, args 2 2 0 v20 []), (.filter, args 1 1 0 [1, 2, 3, 4] [4]),
    (.select, args 1 1 0 [1, 2, 3, 4] [])], (nextOf (startCommand p.1 p.2)).isSome = true := by decide +kernel

theorem witness_RecordsAreTheirByteOperations :
    (let s := running .recon (args 2 2 0 v20 [])
     s.status = .busy ∧ s.eng.op = none ∧ s.eng.w = Window.zero ∧ s.eng.phase = .recon ∧
      s.eng.out.length = s.eng.row * (4 * s.eng.width.toNat) ∧
      s.eng.row * (1 + 4 * s.eng.width.toNat) + 1 + 4 * s.eng.width.toNat ≤ s.eng.f.length) ∧
    (let s := running .filter (args 2 3 0 v6 [4, 3, 1])
     s.status = .busy ∧ s.eng.op = none ∧ s.eng.w = Window.zero ∧ s.eng.phase = .filt ∧ s.eng.rowBuf = [] ∧
      s.input = v6 ∧ (s.eng.row + 1) * (4 * s.eng.width.toNat) ≤ v6.length) := by decide +kernel
end Sys2Proof.Tests
end

section
/-! The neighbours sampled at the edges of the buffer and inside them, and the statement about the sampling function. -/

namespace Sys2Proof.Machine

variable {B : Bytes} {stride r i : Nat}

/-- R22: columns 0 to 3 have no left neighbour. -/
theorem sampleA_of_column_lt (hi : i < Config.bpp) : sampleA B stride r i = 0 :=
  if_neg (by omega)

theorem sampleA_of_le_column (hi : Config.bpp ≤ i) :
    sampleA B stride r i = byteAt B (rawOffset stride r i - Config.bpp) :=
  if_pos hi

/-- R22: row 0 has no neighbour above. -/
theorem sampleB_of_row_eq_zero (hr : r = 0) : sampleB B stride r i = 0 :=
  if_neg (by omega)

theorem sampleB_of_pos_row (hr : 1 ≤ r) : sampleB B stride r i = byteAt B (rawOffset stride (r - 1) i) :=
  if_pos hr

/-- R22: columns 0 to 3 have no neighbour above and to the left. -/
theorem sampleC_of_column_lt (hi : i < Config.bpp) : sampleC B stride r i = 0 :=
  if_neg (by omega)

/-- R22: row 0 has no neighbour above and to the left. -/
theorem sampleC_of_row_eq_zero (hr : r = 0) : sampleC B stride r i = 0 :=
  if_neg (by omega)

theorem sampleC_of_pos_row_of_le_column (hr : 1 ≤ r) (hi : Config.bpp ≤ i) :
    sampleC B stride r i = byteAt B (rawOffset stride (r - 1) i - Config.bpp) :=
  if_pos ⟨hr, hi⟩

end Sys2Proof.Machine

namespace Sys2Proof.Proofs
open Sys2Proof.Machine

/-- Settles O22: the window holds the three sampled bytes, so each clause is the rule for one neighbour, missing or
there. -/
theorem samplingAtAndInsideTheEdges : Obligations.SamplingAtAndInsideTheEdges := by
  intro x B stride r i
  refine ⟨rfl, ?leftEdge, ?topEdge, ?left, ?above, ?aboveLeft⟩
  case leftEdge => exact fun hi => ⟨sampleA_of_column_lt hi, sampleC_of_column_lt hi⟩
  case topEdge => exact fun hr => ⟨sampleB_of_row_eq_zero hr, sampleC_of_row_eq_zero hr⟩
  case left => exact sampleA_of_le_column
  case above => exact sampleB_of_pos_row
  case aboveLeft => exact sampleC_of_pos_row_of_le_column

end Sys2Proof.Proofs
end

section
/-! No two IDAT chunks side by side in a merged list, a run of Chunks folded field by field, and the statement about
the merge. -/

namespace Sys2Proof.Machine

/-- R131: neighbours the merge leaves as they are. -/
def NotBothIdat (c d : Chunk) : Prop := ¬(c.tag = tagIdat ∧ d.tag = tagIdat)

/-- Only the head's tag decides whether a chain of such neighbours stays one. -/
theorem isChain_notBothIdat_of_tag_eq {c d : Chunk} {ds : List Chunk} (htag : c.tag = d.tag)
    (h : (d :: ds).IsChain NotBothIdat) : (c :: ds).IsChain NotBothIdat := by
  cases ds with
  | nil => exact .singleton c
  | cons e es =>
    obtain ⟨hde, hes⟩ := List.isChain_cons_cons.1 h
    exact .cons_cons (fun ⟨hc, he⟩ => hde ⟨htag ▸ hc, he⟩) hes

theorem isChain_mergeCons (c : Chunk) {ds : List Chunk} (h : ds.IsChain NotBothIdat) :
    (mergeCons c ds).IsChain NotBothIdat := by
  cases ds with
  | nil => exact .singleton c
  | cons d ds =>
    by_cases hboth : c.tag = tagIdat ∧ d.tag = tagIdat
    · rw [mergeCons, if_pos hboth]
      exact isChain_notBothIdat_of_tag_eq hboth.2.symm h
    · rw [mergeCons, if_neg hboth]
      exact .cons_cons hboth h

/-- R131: every run is folded whole, so no two IDAT chunks are left as neighbours. -/
theorem isChain_merge (cs : List Chunk) : (merge cs).IsChain NotBothIdat := by
  induction cs with
  | nil => exact .nil
  | cons c cs ih => exact isChain_mergeCons c ih

theorem length_flatMap_payload {run : List Chunk} (h : ∀ d ∈ run, ChunkOk d) :
    (run.flatMap (fun d => d.payload)).length = (run.map (fun d => d.length)).sum := by
  have hlengths : run.map (fun d => d.length) = run.map (fun d => d.payload.length) :=
    List.map_congr_left fun d hd => (h d hd).1
  rw [hlengths, List.length_flatMap]

/-- R131, R132: the chunk made of a run's payloads, field by field. -/
theorem mkChunk_flatMap_payload {run : List Chunk} (h : ∀ d ∈ run, ChunkOk d) :
    mkChunk tagIdat (run.flatMap (fun d => d.payload)) =
      ⟨(run.map (fun d => d.length)).sum, tagIdat, run.flatMap (fun d => d.payload),
        crc32 ([0x49, 0x44, 0x41, 0x54] ++ run.flatMap (fun d => d.payload))⟩ := by
  rw [← length_flatMap_payload h]
  rfl

end Sys2Proof.Machine

namespace Sys2Proof.Proofs
open Sys2Proof.Machine

/-- Settles O42: the run at the head is folded by `merge_run`, another chunk at the head stays, and a merged list is a
chain of neighbours that are not both IDAT. -/
theorem mergeFoldsIdatRuns : Obligations.MergeFoldsIdatRuns := by
  intro cs hok
  refine ⟨?run, ?other, ?empty, ?neighbours, merge_ok cs hok⟩
  case run =>
    rintro run behind rfl hne htags hbehind
    have hrun : ∀ d ∈ run, ChunkOk d := fun d hd => hok d (List.mem_append_left behind hd)
    rw [merge_run run behind hne (fun d hd => ⟨htags d hd, hrun d hd⟩) hbehind, mkChunk_flatMap_payload hrun]
  case other =>
    rintro c behind rfl hc
    exact merge_cons_other hc behind
  case empty =>
    rintro rfl
    rfl
  case neighbours =>
    intro front behind c d hmerge
    have hchain := isChain_merge cs
    rw [hmerge] at hchain
    exact (List.isChain_append_cons_cons.1 hchain).2.1

end Sys2Proof.Proofs
end

section
/-! `validate` as a search of the seven header checks for the first that is not met, and the statement about the
violation it reports (R153, R155). -/

namespace Sys2Proof.Machine

/-- R153, R155: one check of a header: the field it is about, whether the field is as required, and the values that
UnsupportedHeaderError reports where it is not. -/
structure FieldCheck where
  field : BitVec 3
  met : Bool
  expected : U32
  actual : U32

def FieldCheck.error (c : FieldCheck) : Err := .unsupportedHeader c.field c.expected c.actual

/-- R153, R155: the checks of `validate` in their order; `validate_eq_firstViolation` ties them to it. -/
def headerChecks (H : Header) : List FieldCheck :=
  [⟨fieldCompression, H.compression == 0, 0, H.compression.setWidth 32⟩,
    ⟨fieldFilter, H.filter == 0, 0, H.filter.setWidth 32⟩,
    ⟨fieldColorType, H.colorType == 6, 6, H.colorType.setWidth 32⟩,
    ⟨fieldBitDepth, H.bitDepth == 8, 8, H.bitDepth.setWidth 32⟩,
    ⟨fieldInterlace, H.interlace == 0, 0, H.interlace.setWidth 32⟩,
    ⟨fieldWidth, H.width != 0, 1, H.width⟩,
    ⟨fieldHeight, H.height != 0, 1, H.height⟩]

/-- The error of the first check that is not met, if there is one. -/
def firstViolation (cs : List FieldCheck) : Except Err Unit :=
  (cs.find? (fun c => !c.met)).elim (.ok ()) (fun c => .error c.error)

@[simp] theorem firstViolation_nil : firstViolation [] = .ok () := rfl

@[simp] theorem firstViolation_cons (c : FieldCheck) (cs : List FieldCheck) :
    firstViolation (c :: cs) = if c.met then firstViolation cs else .error c.error := by
  cases hmet : c.met <;> simp [firstViolation, hmet]

theorem firstViolation_eq_ok_iff {cs : List FieldCheck} : firstViolation cs = .ok () ↔ ∀ c ∈ cs, c.met = true := by
  have hnone : firstViolation cs = .ok () ↔ cs.find? (fun c => !c.met) = none := by
    cases h : cs.find? (fun c => !c.met) <;> simp [firstViolation, h]
  simp [hnone]

/-- Only the checks before the one that fails matter, not those behind it. -/
theorem firstViolation_eq_error {cs : List FieldCheck} {k : Nat} (hk : k < cs.length) (hfail : cs[k].met = false)
    (hbefore : ∀ j (hj : j < k), cs[j].met = true) : firstViolation cs = .error cs[k].error := by
  have hfind : cs.find? (fun c => !c.met) = some cs[k] :=
    List.find?_eq_some_iff_getElem.2 ⟨by simp [hfail], k, hk, rfl, fun j hj => by simp [hbefore j hj]⟩
  rw [firstViolation, hfind, Option.elim_some]

/-- R153, R155: `validate` makes these checks, in this order, and stops at the first that is not met. -/
theorem validate_eq_firstViolation (H : Header) : validate H = firstViolation (headerChecks H) := by
  simp only [validate, headerChecks, firstViolation_cons, firstViolation_nil, beq_iff_eq, bne_iff_ne, ite_not,
    FieldCheck.error]
  by_cases hwidth : H.width = 0 <;> by_cases hheight : H.height = 0 <;> simp only [hwidth, hheight, ite_true, ite_false]

/-- R155: the code of a field is its place in the order of checks, counted from 1. -/
theorem field_headerChecks (H : Header) {k : Nat} (hk : k < (headerChecks H).length) :
    (headerChecks H)[k].field = BitVec.ofNat 3 (k + 1) := by
  have hfields : (headerChecks H).map (fun c => c.field) = (List.range 7).map (fun i => BitVec.ofNat 3 (i + 1)) := rfl
  have hentry := List.getElem_of_eq hfields (i := k) (by rwa [List.length_map])
  rwa [List.getElem_map, List.getElem_map, List.getElem_range] at hentry

theorem validate_eq_ok_iff (H : Header) :
    validate H = .ok () ↔ ∀ k (hk : k < (headerChecks H).length), (headerChecks H)[k].met = true := by
  rw [validate_eq_firstViolation, firstViolation_eq_ok_iff, List.forall_mem_iff_forall_getElem]

theorem validate_eq_error {H : Header} {k : Nat} (hk : k < (headerChecks H).length)
    (hfail : (headerChecks H)[k].met = false) (hbefore : ∀ j (hj : j < k), (headerChecks H)[j].met = true) :
    validate H = .error (.unsupportedHeader (BitVec.ofNat 3 (k + 1)) (headerChecks H)[k].expected
      (headerChecks H)[k].actual) := by
  rw [validate_eq_firstViolation, firstViolation_eq_error hk hfail hbefore, FieldCheck.error, field_headerChecks H hk]

end Sys2Proof.Machine

namespace Sys2Proof.Proofs
open Sys2Proof.Machine

/-- Settles O44: the statement's three lists are the columns of `headerChecks`, of which `validate` reports the first
that is not met. -/
theorem validateReportsTheFirstViolation : Obligations.ValidateReportsTheFirstViolation := by
  intro H good found wanted
  have hgood : good = (headerChecks H).map (fun c => c.met) := rfl
  have hfound : found = (headerChecks H).map (fun c => c.actual) := rfl
  have hwanted : wanted = (headerChecks H).map (fun c => c.expected) := rfl
  have hget (k : Nat) (hk : k < (headerChecks H).length) (b : Bool) :
      good[k]? = some b ↔ (headerChecks H)[k].met = b := by
    simp [hgood, List.getElem?_eq_getElem hk]
  refine ⟨?accepted, ?rejected⟩
  case accepted =>
    rw [validate_eq_ok_iff]
    exact forall₂_congr fun k hk => (hget k hk true).symm
  case rejected =>
    intro k hk hfail hbefore
    refine ⟨(headerChecks H)[k].expected, (headerChecks H)[k].actual, ?_, ?_, validate_eq_error hk ?_ ?_⟩
    · simp [hwanted, List.getElem?_eq_getElem (l := headerChecks H) hk]
    · simp [hfound, List.getElem?_eq_getElem (l := headerChecks H) hk]
    · exact (hget k hk false).1 hfail
    · exact fun j hj => (hget j (hj.trans hk) true).1 (hbefore j hj)

end Sys2Proof.Proofs
end

section
/-! The Paeth distances with `p` eliminated, the predictor branch by branch, the byte operations as exact integers
reduced modulo 256, and the two statements about them. -/

namespace Sys2Proof.Machine

/-- R172: the distances from `p = a + b - c` to the three neighbours, with `p` eliminated. -/
theorem paeth_distances (a b c : Int) :
    a + b - c - a = b - c ∧ a + b - c - b = a - c ∧ a + b - c - c = a + b - 2 * c := by
  omega

/-- R172: the predictor compares the distances with `p` eliminated. -/
theorem paeth_eq_ite (a b c : Byte) :
    paeth a b c =
      if ((b.toNat : Int) - c.toNat).natAbs ≤ ((a.toNat : Int) - c.toNat).natAbs ∧
          ((b.toNat : Int) - c.toNat).natAbs ≤ ((a.toNat : Int) + b.toNat - 2 * c.toNat).natAbs then a
      else if ((a.toNat : Int) - c.toNat).natAbs ≤ ((a.toNat : Int) + b.toNat - 2 * c.toNat).natAbs then b
      else c := by
  obtain ⟨hpa, hpb, hpc⟩ := paeth_distances a.toNat b.toNat c.toNat
  simp only [paeth, hpa, hpb, hpc]

/-- R172: `p` needs nine bits and a sign, `pa` and `pb` are bytes, `pc` needs nine bits. -/
theorem paeth_ranges (a b c : Byte) :
    -255 ≤ (a.toNat : Int) + b.toNat - c.toNat ∧ (a.toNat : Int) + b.toNat - c.toNat ≤ 510 ∧
    ((b.toNat : Int) - c.toNat).natAbs ≤ 255 ∧ ((a.toNat : Int) - c.toNat).natAbs ≤ 255 ∧
    ((a.toNat : Int) + b.toNat - 2 * c.toNat).natAbs ≤ 510 := by
  have ha := a.isLt
  have hb := b.isLt
  have hc := c.isLt
  omega

/-- R173: the exact difference from the prediction, reduced. -/
theorem encOp_toNat (f : FilterKind) (w : Window) :
    ((encOp f w).toNat : Int) = ((w.x.toNat : Int) - (pred f w.a w.b w.c).toNat) % 256 := by
  rw [encOp_eq, ← subMod_eq, subMod_toNat]

/-- R173: the exact sum with the prediction, reduced. -/
theorem decOp_toNat (f : FilterKind) (w : Window) :
    ((decOp f w).toNat : Int) = ((w.x.toNat : Int) + (pred f w.a w.b w.c).toNat) % 256 := by
  rw [decOp_eq, ← addMod_eq, addMod_toNat]

end Sys2Proof.Machine

namespace Sys2Proof.Proofs
open Sys2Proof.Machine

/-- Settles O19: once `p` is eliminated from the distances, the three branches of `paeth` are the three clauses. -/
theorem paethPicksTheNearestNeighbour : Obligations.PaethPicksTheNearestNeighbour := by
  intro a b c pa pb pc p
  have hbranch : paeth a b c = if pa ≤ pb ∧ pa ≤ pc then a else if pb ≤ pc then b else c := paeth_eq_ite a b c
  obtain ⟨hpa, hpb, hpc⟩ := paeth_distances a.toNat b.toNat c.toNat
  obtain ⟨hpLow, hpHigh, hpaMax, hpbMax, hpcMax⟩ := paeth_ranges a b c
  refine ⟨?distances, ?left, ?above, ?aboveLeft⟩
  case distances =>
    exact ⟨hpLow, hpHigh, congrArg Int.natAbs hpa, congrArg Int.natAbs hpb, congrArg Int.natAbs hpc,
      hpaMax, hpbMax, hpcMax⟩
  case left => exact fun ha => by rw [hbranch, if_pos ha]
  case above => exact fun ha hb => by rw [hbranch, if_neg ha, if_pos hb]
  case aboveLeft => exact fun ha hb => by rw [hbranch, if_neg ha, if_neg hb]

/-- Settles O18: both directions reduce an exact sum or difference; of the five predictors only the average takes
arithmetic, the others are read off the definition. -/
theorem operationsReduceThePrediction : Obligations.OperationsReduceThePrediction := by
  intro f w
  exact ⟨encOp_toNat f w, decOp_toNat f w, rfl, rfl, rfl, average_toNat w.a w.b, rfl⟩

end Sys2Proof.Proofs
end

section
/-! The payload sizes of the IDAT split, by the index of the chunk, and the statement about the split. -/

namespace Sys2Proof.Machine

/-- R234: the slice of a chunk that is not the last lies inside the payload; the count would be smaller otherwise. -/
theorem add_le_of_succ_lt_idatCount {L M k : Nat} (hM : 1 ≤ M) (hk : k + 1 < idatCount L M) : k * M + M ≤ L := by
  obtain ⟨-, -, hempty, hneeded⟩ := (idatCount_spec (L := L) hM).1 rfl
  have hL : 0 < L := Nat.pos_of_ne_zero fun h0 => by have := hempty h0; omega
  calc k * M + M = (k + 1) * M := (Nat.add_one_mul k M).symm
    _ ≤ (idatCount L M - 1) * M := Nat.mul_le_mul_right M (by omega)
    _ ≤ L := (hneeded hL).le

/-- R234: chunk `k` carries `M` bytes from offset `k * M`, or what is left there. -/
theorem splitIdat_payload_length {Z : Bytes} {M k : Nat} {c : Chunk} (hc : (splitIdat Z M)[k]? = some c) :
    c.payload.length = min M (Z.length - k * M) := by
  obtain ⟨j, hj, rfl⟩ : ∃ j, (List.range (idatCount Z.length M))[k]? = some j ∧
      mkChunk tagIdat (slice Z (j * M) M) = c := by
    rwa [splitIdat, List.getElem?_map, Option.map_eq_some_iff] at hc
  obtain ⟨-, rfl⟩ := List.getElem?_eq_some_iff.1 hj
  simp [mkChunk, slice]

end Sys2Proof.Machine

namespace Sys2Proof.Proofs
open Sys2Proof.Machine

/-- Settles O45: chunk `k` carries `min M (L - k * M)` bytes, and the bounds on the count say which of the two that
is. -/
theorem splitIdatCutsGreedily : Obligations.SplitIdatCutsGreedily := by
  intro Z M hM cs
  have hcount := (idatCount_spec hM).1 (splitIdat_length Z M)
  refine ⟨hcount, splitIdat_payloads Z hM, ?each, ?full, ?last⟩
  case each =>
    intro c hc
    obtain ⟨htag, hok⟩ := splitIdat_tags Z M c hc
    obtain ⟨k, hk⟩ := List.mem_iff_getElem?.1 hc
    exact ⟨htag, hok, (splitIdat_payload_length hk).trans_le (min_le_left _ _)⟩
  case full =>
    intro k c hk hc
    have hinside : k * M + M ≤ Z.length := add_le_of_succ_lt_idatCount hM (splitIdat_length Z M ▸ hk)
    rw [splitIdat_payload_length hc, min_eq_left (Nat.le_sub_of_add_le' hinside)]
  case last =>
    intro c hc
    obtain ⟨hpos, hcover, -, -⟩ := hcount
    have hrest : Z.length ≤ (cs.length - 1) * M + M := by
      rwa [← Nat.add_one_mul, Nat.sub_add_cancel hpos]
    rw [splitIdat_payload_length hc, min_eq_right (Nat.sub_le_iff_le_add'.2 hrest)]

end Sys2Proof.Proofs
end

section
/-! The selection as a scan over the kinds in the fixed order, one strict comparison per kind, and the statement about
it. -/

namespace Sys2Proof.Machine

/-- R98: the code tells the kinds apart. -/
theorem FilterKind.code_toNat_injective : Function.Injective fun f : FilterKind => f.code.toNat := by
  intro f g h
  have hcode : f.code = g.code := BitVec.eq_of_toNat_eq h
  exact Option.some.inj (by rw [← kindOfCode_code f, hcode, kindOfCode_code g])

/-- R229, R328: `b` is the first minimum among the kinds of code below `n`: none of them scores less, and those before
`b` score strictly more. -/
def FirstMinimumBelow (S : Scores) (n : Nat) (b : FilterKind) : Prop :=
  b.code.toNat < n ∧ ∀ f : FilterKind, f.code.toNat < n →
    scoreAt S b ≤ scoreAt S f ∧ (f.code.toNat < b.code.toNat → scoreAt S b < scoreAt S f)

/-- The first kind is the first minimum of itself. -/
theorem firstMinimumBelow_none (S : Scores) : FirstMinimumBelow S 1 .none := by
  refine ⟨by decide, fun f hf => ?_⟩
  obtain rfl : f = .none := FilterKind.code_toNat_injective (Nat.lt_one_iff.1 hf)
  exact ⟨le_rfl, fun h => absurd h (lt_irrefl _)⟩

/-- R229: comparing the next kind strictly with the first minimum so far gives the first minimum of one kind more. -/
theorem FirstMinimumBelow.succ {S : Scores} {b g : FilterKind} (h : FirstMinimumBelow S g.code.toNat b) :
    FirstMinimumBelow S (g.code.toNat + 1) (better S b g) := by
  obtain ⟨hbg, hmin⟩ := h
  have hcases (f : FilterKind) (hf : f.code.toNat < g.code.toNat + 1) : f.code.toNat < g.code.toNat ∨ f = g :=
    (Nat.lt_succ_iff_lt_or_eq.1 hf).imp_right fun he => FilterKind.code_toNat_injective he
  by_cases hlt : scoreAt S g < scoreAt S b
  case pos =>
    rw [better, if_pos hlt]
    refine ⟨Nat.lt_succ_self _, fun f hf => ?_⟩
    rcases hcases f hf with hfg | rfl
    · have hless : scoreAt S g < scoreAt S f := hlt.trans_le (hmin f hfg).1
      exact ⟨hless.le, fun _ => hless⟩
    · exact ⟨le_rfl, fun hself => absurd hself (lt_irrefl _)⟩
  case neg =>
    rw [better, if_neg hlt]
    refine ⟨Nat.lt_succ_of_lt hbg, fun f hf => ?_⟩
    rcases hcases f hf with hfg | rfl
    · exact hmin f hfg
    · exact ⟨not_lt.1 hlt, fun hafter => absurd hbg hafter.not_gt⟩

/-- R229, R328: the four comparisons leave the first minimum of the five kinds. -/
theorem bestOf_firstMinimumBelow (S : Scores) : FirstMinimumBelow S 5 (bestOf S) :=
  have hsub := (firstMinimumBelow_none S).succ (g := .sub)
  have hup := hsub.succ (g := .up)
  have haverage := hup.succ (g := .average)
  haverage.succ (g := .paeth)

end Sys2Proof.Machine

namespace Sys2Proof.Proofs
open Sys2Proof.Machine

/-- Settles O32: `bestOf` is the first minimum of the five scores, which are those of the filtered rows; `select` lists
its choice row by row. -/
theorem bestIsTheFirstMinimum : Obligations.BestIsTheFirstMinimum := by
  refine ⟨?firstMinimum, ?rows⟩
  case firstMinimum =>
    intro raw stride r f best
    obtain ⟨-, hmin⟩ := bestOf_firstMinimumBelow (scoresOf (candidates raw stride r))
    have hf := hmin f (Nat.lt_succ_of_le (code_le f))
    rwa [scoreAt_eq, scoreAt_eq] at hf
  case rows =>
    intro raw width height
    refine ⟨selectKinds_length raw width height, fun r hr => ?_⟩
    have hrow := selectRows_getElem raw (strideOf width) height.toNat 0 r hr
    rwa [Nat.zero_add] at hrow

end Sys2Proof.Proofs
end

section
/-! The encoder and the decoder, place by place: a chunk record's head and its eight bytes, a single byte that selects an
instruction, and the statements about them (R91 to R109). -/

namespace Sys2Proof.Machine

/-- R92: the head of a chunk record, read back. -/
theorem decode_chunk_head (len : U32) (tag : Tag) (rest : Bytes) :
    decode .chunk (be32 len ++ tagBytes tag ++ rest) = .ok (chunkOfHead len tag, rest) := by
  have hlen : u32At (be32 len ++ tagBytes tag ++ rest) 0 = len := by
    rw [List.append_assoc]
    exact u32At_front [] len (tagBytes tag ++ rest)
  have htag : tagAt (be32 len ++ tagBytes tag ++ rest) 4 = tag := tagAt_front (be32 len) tag rest
  have hlong : ¬(be32 len ++ tagBytes tag ++ rest).length < 8 := by
    simp only [List.length_append, be32_length, tagBytes_length]
    omega
  simp only [decode, if_neg hlong, hlen, htag]
  rfl

/-- R93, R129: a tag that is none of the three names is `C.OTHER`. -/
theorem chunkOfHead_of_not_named {tag : Tag} (h : tag.named = false) (len : U32) :
    chunkOfHead len tag = .cOther len tag := by
  obtain ⟨hihdr, hidat, hiend⟩ : tag ≠ tagIhdr ∧ tag ≠ tagIdat ∧ tag ≠ tagIend := by simpa [Tag.named] using h
  rw [chunkOfHead, if_neg hihdr, if_neg hidat, if_neg hiend]

/-- R92, R94: the record a head names is well formed, and its encoding is that head. -/
theorem encode_chunkOfHead (len : U32) (tag : Tag) :
    contextOf (chunkOfHead len tag) = .chunk ∧ (chunkOfHead len tag).wf = true ∧
      encode (chunkOfHead len tag) = be32 len ++ tagBytes tag := by
  rw [chunkOfHead]
  split
  case isTrue h => subst h; exact ⟨rfl, rfl, rfl⟩
  split
  case isTrue h => subst h; exact ⟨rfl, rfl, rfl⟩
  split
  case isTrue h => subst h; exact ⟨rfl, rfl, rfl⟩
  case isFalse hihdr hidat hiend => exact ⟨rfl, by simp [Instr.wf, Tag.named, hihdr, hidat, hiend], rfl⟩

/-- R14, R65: eight bytes or more are a 32-bit field, a tag and what is left. -/
theorem be32_u32At_append_tagBytes_tagAt {bs : Bytes} (h : 8 ≤ bs.length) :
    be32 (u32At bs 0) ++ tagBytes (tagAt bs 4) ++ bs.drop 8 = bs := by
  match bs, h with
  | b0 :: b1 :: b2 :: b3 :: b4 :: b5 :: b6 :: b7 :: rest, _ =>
    have hlen : be32 (u32At (b0 :: b1 :: b2 :: b3 :: b4 :: b5 :: b6 :: b7 :: rest) 0) = [b0, b1, b2, b3] :=
      be32_u32be b0 b1 b2 b3
    rw [hlen]
    rfl

/-- R97, R98, R109: what decodes from a single byte is what the byte selects. -/
theorem decodeByte_eq_ok {select : Byte → Option Instr} {reject : Byte → Reject} {bs rest : Bytes} {i : Instr}
    (h : decodeByte select reject bs = .ok (i, rest)) : ∃ b, bs = b :: rest ∧ select b = some i := by
  cases bs with
  | nil => cases h
  | cons b bs =>
    cases hb : select b with
    | none => simp [decodeByte, hb] at h
    | some j =>
      simp only [decodeByte, hb, Except.ok.injEq, Prod.mk.injEq] at h
      obtain ⟨rfl, rfl⟩ := h
      exact ⟨b, rfl, hb⟩

/-- A format of one byte whose bytes select instructions that they encode is inverted by the encoder. -/
theorem encode_of_decodeByte {select : Byte → Option Instr} {reject : Byte → Reject} {ctx : Context} {bs rest : Bytes}
    {i : Instr} (hselect : ∀ b i, select b = some i → contextOf i = ctx ∧ i.wf = true ∧ encode i = [b])
    (h : decodeByte select reject bs = .ok (i, rest)) : contextOf i = ctx ∧ i.wf = true ∧ encode i ++ rest = bs := by
  obtain ⟨b, rfl, hb⟩ := decodeByte_eq_ok h
  obtain ⟨hctx, hwf, henc⟩ := hselect b i hb
  exact ⟨hctx, hwf, by rw [henc]; rfl⟩

/-- R98: a format whose byte is a kind code, with the code of each kind for its encoding. -/
theorem encode_of_kindOfCode {ofKind : FilterKind → Instr} {ctx : Context}
    (hkind : ∀ f, contextOf (ofKind f) = ctx ∧ (ofKind f).wf = true ∧ encode (ofKind f) = [f.code]) (b : Byte) (i : Instr)
    (h : (kindOfCode b).map ofKind = some i) : contextOf i = ctx ∧ i.wf = true ∧ encode i = [b] := by
  obtain ⟨f, hf, rfl⟩ := Option.map_eq_some_iff.1 h
  rw [kindOfCode_some hf]
  exact hkind f

/-- R109: a code names the command it encodes. -/
theorem encode_of_commandOfCode (b : Byte) (i : Instr) (h : commandOfCode b = some i) :
    contextOf i = .command ∧ i.wf = true ∧ encode i = [b] := by
  simp only [commandOfCode] at h
  repeat' split at h
  all_goals cases h
  all_goals
    subst b
    exact ⟨rfl, rfl, rfl⟩

/-- R103: the codes 5 to 255 name no kind. -/
theorem kindOfCode_eq_none {v : Byte} (h : 5 ≤ v.toNat) : kindOfCode v = none := by
  cases hv : kindOfCode v with
  | none => rfl
  | some f =>
    have := (kindOfCode_isSome v).1 ⟨f, hv⟩
    omega

/-- R106: the codes 0 and 7 to 255 name no command. -/
theorem commandOfCode_eq_none {v : Byte} (h : v.toNat = 0 ∨ 7 ≤ v.toNat) : commandOfCode v = none := by
  cases hv : commandOfCode v with
  | none => rfl
  | some i =>
    have := (commandOfCode_isSome v).1 (by rw [hv]; rfl)
    omega

theorem decode_command_reserved {v : Byte} (h : v.toNat = 0 ∨ 7 ≤ v.toNat) (rest : Bytes) :
    decode .command (v :: rest) = .error (.reservedCommand v) := by
  simp only [decode, decodeByte, commandOfCode_eq_none h]

end Sys2Proof.Machine

namespace Sys2Proof.Proofs
open Sys2Proof.Machine

/-- Settles O1: a chunk record's head is read back field by field; every other encoding is a constant that the decoder
compares with. -/
theorem decodeInvertsEncode : Obligations.DecodeInvertsEncode := by
  intro i rest hwf
  cases i with
  | cIhdr len => exact decode_chunk_head len tagIhdr rest
  | cIdat len => exact decode_chunk_head len tagIdat rest
  | cIend len => exact decode_chunk_head len tagIend rest
  | cOther len tag =>
    have hother : tag.named = false := by simpa [Instr.wf] using hwf
    rw [← chunkOfHead_of_not_named hother len]
    have henc := (encode_chunkOfHead len tag).2.2
    rw [henc, (encode_chunkOfHead len tag).1]
    exact decode_chunk_head len tag rest
  | _ => rfl

/-- Settles O2: place by place, what decodes was selected by bytes that are its encoding. -/
theorem encodeInvertsDecode : Obligations.EncodeInvertsDecode := by
  intro ctx bs rest i h
  cases ctx with
  | signature =>
    simp only [decode] at h
    split at h
    case isTrue hsig =>
      cases h
      refine ⟨rfl, rfl, ?_⟩
      have hparts := List.take_append_drop 8 bs
      rwa [hsig] at hparts
    case isFalse => cases h
  | chunk =>
    simp only [decode] at h
    split at h
    case isTrue => cases h
    case isFalse hlong =>
      cases h
      obtain ⟨hctx, hwf, henc⟩ := encode_chunkOfHead (u32At bs 0) (tagAt bs 4)
      exact ⟨hctx, hwf, by rw [henc]; exact be32_u32At_append_tagBytes_tagAt (Nat.not_lt.1 hlong)⟩
  | recon => exact encode_of_decodeByte (encode_of_kindOfCode fun f => by cases f <;> exact ⟨rfl, rfl, rfl⟩) h
  | filter => exact encode_of_decodeByte (encode_of_kindOfCode fun f => by cases f <;> exact ⟨rfl, rfl, rfl⟩) h
  | encByte => exact encode_of_decodeByte (encode_of_kindOfCode fun f => by cases f <;> exact ⟨rfl, rfl, rfl⟩) h
  | decByte => exact encode_of_decodeByte (encode_of_kindOfCode fun f => by cases f <;> exact ⟨rfl, rfl, rfl⟩) h
  | command => exact encode_of_decodeByte encode_of_commandOfCode h

/-- Settles O3: each word is a constant, which the decoder evaluates. -/
theorem writtenOutWordsDecode : Obligations.WrittenOutWordsDecode :=
  ⟨rfl, rfl, rfl, rfl, rfl, rfl⟩

/-- Settles O4: no kind and no command has such a code. -/
theorem illegalCodesAreRejected : Obligations.IllegalCodesAreRejected := by
  intro v rest
  refine ⟨fun hv => ?_, fun hv => decode_command_reserved hv rest⟩
  simp only [decode, decodeByte, kindOfCode_eq_none hv, Option.map_none, and_self]

end Sys2Proof.Proofs
end

section
/-! The preconditions of each command written out, and what a command with its operands there answers (R250, R257). -/

namespace Sys2Proof.Machine

/-- R257: the preconditions, command by command. -/
theorem precondition_decode_iff (s : State) : precondition .decode s = true ↔ fitsCap s.caps.capIn s.inLen = true := by
  simp [precondition]

theorem precondition_parse_iff (s : State) : precondition .parse s = true ↔ fitsCap s.caps.capIn s.inLen = true := by
  simp [precondition]

theorem precondition_recon_iff (s : State) : precondition .recon s = true ↔
    fitsCap s.caps.capIn s.inLen = true ∧ 1 ≤ s.argWidth.toNat ∧ 1 ≤ s.argHeight.toNat := by
  simp [precondition, dimsOk]

theorem precondition_encode_iff (s : State) : precondition .encode s = true ↔
    fitsCap s.caps.capIn s.inLen = true ∧ (1 ≤ s.argWidth.toNat ∧ 1 ≤ s.argHeight.toNat) ∧
      s.inLen = s.argHeight.toNat * strideOf s.argWidth ∧ 1 ≤ s.argMaxIdat.toNat := by
  simp [precondition, dimsOk, rawOk, and_assoc]

theorem precondition_filter_iff (s : State) : precondition .filter s = true ↔
    fitsCap s.caps.capIn s.inLen = true ∧ (1 ≤ s.argWidth.toNat ∧ 1 ≤ s.argHeight.toNat) ∧
      s.inLen = s.argHeight.toNat * strideOf s.argWidth ∧ fitsCap s.caps.capKind s.kindLen = true ∧
        s.kindLen = s.argHeight.toNat := by
  simp [precondition, dimsOk, rawOk, and_assoc]

theorem precondition_select_iff (s : State) : precondition .select s = true ↔
    fitsCap s.caps.capIn s.inLen = true ∧ (1 ≤ s.argWidth.toNat ∧ 1 ≤ s.argHeight.toNat) ∧
      s.inLen = s.argHeight.toNat * strideOf s.argWidth := by
  simp [precondition, dimsOk, rawOk]

section
variable {c : Command} {compute : Bytes → List FilterKind → Except Err Result} {s : State} {IN : Bytes}
  {ks : List FilterKind}

theorem runCommand_error {e : Err} (ho : operands c s = .next (IN, ks)) (h : compute IN ks = .error e) :
    runCommand c compute s = .next (raise e s) := by
  simp only [runCommand_next ho, h]

theorem runCommand_ok {r : Result} (ho : operands c s = .next (IN, ks)) (h : compute IN ks = .ok r) :
    runCommand c compute s = finish r s := by
  simp only [runCommand_next ho, h]

/-- The two ends of a command, as the goals of a proof that the machine arrives at its outcome. -/
theorem arrives_runCommand {b : State} (ho : operands c s = .next (IN, ks))
    (h : ∀ o, (∀ e, compute IN ks = .error e → o = .next (raise e s)) → (∀ r, compute IN ks = .ok r → o = finish r s) →
      Arrives b o) : Arrives b (runCommand c compute s) :=
  h _ (fun _ he => runCommand_error ho he) (fun _ hr => runCommand_ok ho hr)

end

/-- R251: what DECODE computes, each stage having succeeded. -/
theorem decodeStream_eq_ok {c : Config.Collaborator} {IN : Bytes} {r : Result} (h : decodeStream c IN = .ok r) :
    ∃ cs H Z F out kinds, parse IN = .ok cs ∧ checkChunks cs = .ok (H, Z) ∧ inflate c Z = some F ∧
      reconstruct F H.height.toNat (strideOf H.width) = .ok (out, kinds) ∧
      r = decodeResult H.width H.height cs out kinds Z.length F.length := by
  simp only [decodeStream] at h
  split at h
  case h_1 => cases h
  case h_2 cs hparse =>
    split at h
    case h_1 => cases h
    case h_2 H Z hcheck =>
      split at h
      case h_1 => cases h
      case h_2 F hinflate =>
        split at h
        case h_1 => cases h
        case h_2 out kinds hrecon =>
          cases h
          exact ⟨cs, H, Z, F, out, kinds, hparse, hcheck, hinflate, hrecon, rfl⟩

/-- R254: what RECON computes. -/
theorem reconImage_eq_ok {F : Bytes} {width height : U32} {r : Result} (h : reconImage F width height = .ok r) :
    ∃ out kinds, reconstruct F height.toNat (strideOf width) = .ok (out, kinds) ∧ r = reconResult out kinds := by
  simp only [reconImage] at h
  split at h
  case h_1 => cases h
  case h_2 out kinds hrecon => cases h; exact ⟨out, kinds, hrecon, rfl⟩

/-- R253: what PARSE computes. -/
theorem parseStream_eq_ok {IN : Bytes} {r : Result} (h : parseStream IN = .ok r) :
    ∃ cs, parse IN = .ok cs ∧ r = parseResult cs := by
  simp only [parseStream] at h
  split at h
  case h_1 => cases h
  case h_2 cs hparse => cases h; exact ⟨cs, hparse, rfl⟩

theorem eq_nil_of_kindOperand {c : Command} {s : State} {ks : List FilterKind} (hc : c ≠ .filter)
    (h : kindOperand c s = .next ks) : ks = [] := by
  rw [kindOperand_other hc] at h
  cases h
  rfl

/-- R250: the operands of a command that does not read `KIND`. -/
theorem operands_of_precondition {c : Command} {s : State} (hidle : s.status ≠ .busy) (hc : c ≠ .filter)
    (hpre : precondition c s = true) : operands c s = .next (s.input, []) :=
  (operands_next_iff c s _ _).2 ⟨hidle, hpre, rfl, kindOperand_other hc s⟩

end Sys2Proof.Machine
end

section
/-! The sequencer's run of each command: the record loop behind the signature, the merge and the checks of DECODE, the
row loops; and the statements that both grains agree, for commands and for scanline records (R68, R250, R266). -/

namespace Sys2Proof.Machine

/-- R201: a record whose row is there whole, its rows before it reconstructed. -/
theorem reconRecord_of_fits {s : State} (f : FilterKind)
    (hF : recordOffset (strideOf s.eng.width) s.eng.row + 1 + strideOf s.eng.width ≤ s.eng.f.length)
    (hout : s.eng.out.length = rawOffset (strideOf s.eng.width) s.eng.row 0) :
    reconRecord f s = .next (s.withEng { s.eng with
      kinds := s.eng.kinds ++ [f]
      out := reconBytes s.eng.f (strideOf s.eng.width) s.eng.row f (strideOf s.eng.width) 0 s.eng.out
      row := s.eng.row + 1
      col := 0 }) := by
  rw [reconRecord, if_neg (Nat.not_lt.2 hF), if_neg (not_not.2 hout)]

/-- R221: a record whose raw row is there. -/
theorem filterRecord_of_fits {s : State} (f : FilterKind)
    (hraw : rawOffset (strideOf s.eng.width) (s.eng.row + 1) 0 ≤ s.input.length) :
    filterRecord f s = .next (s.withEng { s.eng with
      f := s.eng.f ++ filterScanline s.input (strideOf s.eng.width) s.eng.row f
      row := s.eng.row + 1
      col := 0
      phase := afterFilter s.eng.cmd }) :=
  if_neg (Nat.not_lt.2 hraw)

/-- R122: the two ends of SIG. -/
theorem execSig_of_signature {s : State} (h : signatureOk s.input = true) :
    execSig s = .next (s.withEng { s.eng with pos := 8, list := [], phase := .chunks }) :=
  if_pos h

theorem execSig_of_no_signature {s : State} (h : ¬signatureOk s.input = true) : execSig s = .next (raise .badSignature s) :=
  if_neg h

/-- R43: a result leaves nothing of the BUSY state behind, unless it keeps `KIND`, which only FILTER's start keeps. -/
theorem finish_busy {r : Result} {c : Command} (s : State) (h : r.kinds = none → c = .filter) :
    finish r { invalidate c s with status := .busy } = finish r s :=
  finish_invalidate r c s.eng s h

/-- R122, R130: from the start of a datastream the sequencer does what `parse` does, up to the merge. -/
theorem arrives_parse {b : State} {o : Outcome} (hb : b.status = .busy) {e : Engine} (hop : e.op = none)
    (hphase : e.phase = .chunks) (hpos : e.pos = 0)
    (herr : ∀ err, parse b.input = .error err → o = .next (raise err b))
    (hok : ∀ list pos acc, parse b.input = .ok (merge list) →
      Arrives (b.withEng { e with list := list, pos := pos, crcAcc := acc, phase := .merge }) o) :
    Arrives (b.withEng e) o := by
  have hsig : step (b.withEng e) = execSig (b.withEng e) := by
    rw [step_with hb hop]
    simp only [stepPhase, withEng_eng, hphase, fetchChunk, hpos, if_true]
    rfl
  by_cases hs : signatureOk b.input = true
  case neg =>
    rw [herr .badSignature (by simp only [parse, if_neg hs])]
    exact arrives_last (hsig.trans (execSig_of_no_signature (s := b.withEng e) hs))
  case pos =>
    refine arrives_step (hsig.trans (execSig_of_signature (s := b.withEng e) hs)) ?_
    refine arrives_chunks hb rfl b.input.length _ hop rfl (Nat.succ_ne_zero 7) (Nat.le_add_left _ 8) ?_ ?_
    · intro err hloop
      exact herr err (by simp only [parse, if_pos hs]; rw [show parseLoop b.input b.input.length 8 [] = .error err from hloop])
    · intro list pos acc hloop
      exact hok list pos acc
        (by simp only [parse, if_pos hs]; rw [show parseLoop b.input b.input.length 8 [] = .ok list from hloop])

/-- R131, R253: from the merge on, PARSE ends. -/
theorem arrives_parse_merge {b : State} (hb : b.status = .busy) {e : Engine} (hop : e.op = none) (hphase : e.phase = .merge)
    (hcmd : e.cmd ≠ some .decode) : Arrives (b.withEng e) (finish (parseResult (merge e.list)) b) := by
  refine arrives_last ((step_with hb hop).trans ?_)
  simp only [stepPhase, withEng_eng, hphase]
  exact mergeList_parse (s := b.withEng e) hcmd

/-- R131, R251: from the merge on, with the list that `parse` read, the sequencer does the rest of DECODE. -/
theorem arrives_decode_merge {b : State} {o : Outcome} (hb : b.status = .busy) {e : Engine} (hop : e.op = none)
    (hphase : e.phase = .merge) (hcmd : e.cmd = some .decode) (hrow : e.row = 0) (hout : e.out = []) (hkinds : e.kinds = [])
    (hparse : parse b.input = .ok (merge e.list))
    (herr : ∀ err, decodeStream b.collab b.input = .error err → o = .next (raise err b))
    (hok : ∀ r, decodeStream b.collab b.input = .ok r → o = finish r b) : Arrives (b.withEng e) o := by
  have hmerge : step (b.withEng e) = mergeList (b.withEng e) := by
    rw [step_with hb hop]
    simp only [stepPhase, withEng_eng, hphase]
  cases hcheck : checkChunks (merge e.list) with
  | error err =>
    rw [herr err (by simp only [decodeStream, hparse, hcheck])]
    exact arrives_last (hmerge.trans (mergeList_error (s := b.withEng e) hcmd hcheck))
  | ok p =>
    obtain ⟨H, Z⟩ := p
    refine arrives_step (hmerge.trans (mergeList_ok (s := b.withEng e) hcmd hcheck)) ?_
    cases hinflate : inflate b.collab Z with
    | none =>
      rw [herr .inflateFailed (by simp only [decodeStream, hparse, hcheck, hinflate])]
      refine arrives_last ((step_with hb (by exact hop)).trans ?_)
      simp only [stepPhase, withEng_eng, callInflate, withEng_collab, hinflate]
      rfl
    | some F =>
      refine arrives_step (s' := b.withEng { e with
        list := merge e.list, width := H.width, height := H.height, z := Z, f := F, phase := .recon })
        ((step_with hb (by exact hop)).trans ?_) ?_
      · simp only [stepPhase, withEng_eng, callInflate, withEng_collab, hinflate]
        rfl
      refine arrives_recon hb H.height.toNat _ hop rfl (by simp [hrow]) (by simp [hrow, hout]) ?_ ?_
      · intro err hrows
        simp only [hrow, hout, hkinds] at hrows
        exact herr err (by simp only [decodeStream, hparse, hcheck, hinflate, reconstruct, hrows])
      · intro out kinds row col hrows
        simp only [hrow, hout, hkinds] at hrows
        rw [hok _ (by simp only [decodeStream, hparse, hcheck, hinflate, reconstruct, hrows]; rfl), finish_withEng,
          reconEnd, if_pos hcmd]

end Sys2Proof.Machine

namespace Sys2Proof.Proofs
open Sys2Proof.Machine

/-- Settles O59: each command's loops in the sequencer are the loops of its function, and a result or an error leaves
nothing of the BUSY state behind. -/
theorem sequencerRefinesTheCommands : Obligations.SequencerRefinesTheCommands := by
  intro c s b hstart
  obtain ⟨IN, ks, ho, rfl⟩ := startCommand_next hstart
  obtain ⟨-, hpre, rfl, hks⟩ := (operands_next_iff c s IN ks).1 ho
  change Arrives _ _
  rw [exec_command]
  cases c with
  | decode =>
    have hnil : ks = [] := eq_nil_of_kindOperand (by decide) hks
    refine arrives_runCommand ho fun o herr hok => ?_
    refine arrives_parse rfl rfl rfl rfl (fun e he => herr e ?_) (fun list pos acc hparse => ?_)
    · simp only [decodeStream, show parse s.input = .error e from he]
    · refine arrives_decode_merge rfl rfl rfl rfl rfl rfl hnil hparse herr (fun r hr => ?_)
      obtain ⟨cs, H, Z, F, out, kinds, -, -, -, -, rfl⟩ := decodeStream_eq_ok hr
      exact (hok _ hr).trans (finish_busy s fun hnone => by cases hnone).symm
  | parse =>
    refine arrives_runCommand ho fun o herr hok => ?_
    refine arrives_parse rfl rfl rfl rfl (fun e he => herr e ?_) (fun list pos acc hparse => ?_)
    · simp only [parseStream, show parse s.input = .error e from he]
    · have hr : parseStream s.input = .ok (parseResult (merge list)) := by
        simp only [parseStream, show parse s.input = .ok (merge list) from hparse]
      rw [hok _ hr, ← finish_busy (c := .parse) s fun hnone => by cases hnone]
      exact arrives_parse_merge rfl rfl rfl (by simp [startEngine])
  | recon =>
    have hnil : ks = [] := eq_nil_of_kindOperand (by decide) hks
    refine arrives_runCommand ho fun o herr hok => ?_
    refine arrives_recon rfl s.argHeight.toNat _ rfl rfl (Nat.zero_add _) (Nat.zero_mul _).symm
      (fun e hrows => herr e ?_) (fun out kinds row col hrows => ?_)
    · subst hnil
      simp only [reconImage, show reconstruct s.input s.argHeight.toNat (strideOf s.argWidth) = .error e from hrows]
    · subst hnil
      have hr : reconImage s.input s.argWidth s.argHeight = .ok (reconResult out kinds) := by
        simp only [reconImage,
          show reconstruct s.input s.argHeight.toNat (strideOf s.argWidth) = .ok (out, kinds) from hrows]
      rw [hok _ hr, ← finish_busy (c := .recon) s fun hnone => by cases hnone]
      rfl
  | filter =>
    obtain ⟨-, -, hraw, -, hkindLen⟩ := (precondition_filter_iff s).1 hpre
    refine arrives_runCommand ho fun o _ hok => ?_
    rw [hok _ rfl, ← finish_busy (c := .filter) s fun _ => rfl]
    exact arrives_filter rfl rfl ks _ rfl rfl (by simp [startEngine])
      ((Nat.zero_add _).trans ((kindOperand_filter hks).trans hkindLen)) (by rw [input_length]; exact hraw.ge) rfl
  | select =>
    obtain ⟨-, -, hraw⟩ := (precondition_select_iff s).1 hpre
    have hnil : ks = [] := eq_nil_of_kindOperand (by decide) hks
    subst hnil
    refine arrives_runCommand ho fun o _ hok => ?_
    rw [hok _ rfl, ← finish_busy (c := .select) s fun hnone => by cases hnone]
    exact arrives_select rfl rfl s.argHeight.toNat _ rfl rfl (by simp [startEngine]) (Nat.zero_add _)
      (by rw [input_length]; exact hraw.ge)
  | encode =>
    obtain ⟨-, -, hraw, -⟩ := (precondition_encode_iff s).1 hpre
    have hnil : ks = [] := eq_nil_of_kindOperand (by decide) hks
    subst hnil
    refine arrives_runCommand ho fun o _ hok => ?_
    rw [hok _ rfl, ← finish_busy (c := .encode) s fun hnone => by cases hnone]
    exact arrives_encode rfl rfl s.argHeight.toNat _ rfl rfl rfl (Nat.zero_add _)
      (by rw [input_length]; exact hraw.ge) rfl

/-- Settles O60: one step for each column runs the byte loop of the record, and the step that closes it leaves what the
record leaves; the window and the row buffer are back at their values before it. -/
theorem recordsAreTheirByteOperations : Obligations.RecordsAreTheirByteOperations := by
  intro s f hbusy hop hw
  refine ⟨fun hphase hout hF => ?recon, fun hphase hbuf hraw => ?filt⟩
  case recon =>
    refine (run_reconBytes (b := s) hbusy (strideOf s.eng.width)
      { s.eng with kinds := s.eng.kinds ++ [f], op := some f, col := 0 } rfl hphase hw (Nat.zero_add _) hout hF).trans ?_
    rw [exec_recon, reconRecord_of_fits f hF hout]
    simp only [hop]
    rfl
  case filt =>
    have hinside : rawOffset (strideOf s.eng.width) (s.eng.row + 1) 0 ≤ s.input.length := by
      rw [input_length]
      exact hraw
    refine (run_filterBytes (b := s) hbusy rfl (strideOf s.eng.width)
      { s.eng with op := some f, rowBuf := [], col := 0 } rfl hphase hw (Nat.zero_add _) rfl hinside).trans ?_
    rw [exec_filter, filterRecord_of_fits f hinside]
    simp only [hop, hbuf]
    rfl

end Sys2Proof.Proofs
end

section
/-! What one step runs: the written command, the due datastream item, scanline record or byte operation (R29, R102, R320),
and the statements about it. -/

namespace Sys2Proof.Machine

theorem step_idle {s : State} (h : s.status ≠ .busy) : step s = commandStep s :=
  if_neg h

/-- R92: only the first eight bytes of a chunk record choose its instruction. -/
theorem decode_chunk_eq_ok {bs rest : Bytes} {i : Instr} (h : decode .chunk bs = .ok (i, rest)) :
    i = chunkOfHead (u32At bs 0) (tagAt bs 4) := by
  simp only [decode] at h
  split at h
  case isTrue => cases h
  case isFalse => cases h; rfl

/-- R97: the record that a type byte names, reconstruct direction. -/
theorem decode_recon_eq_ok {bs rest : Bytes} {i : Instr} (h : decode .recon bs = .ok (i, rest)) :
    ∃ f, i = reconInstr f := by
  obtain ⟨b, -, hb⟩ := decodeByte_eq_ok h
  obtain ⟨f, -, rfl⟩ := Option.map_eq_some_iff.1 hb
  exact ⟨f, rfl⟩

theorem decode_filter_code (f : FilterKind) : decode .filter [f.code] = .ok (filterInstr f, []) := by
  simp only [decode, decodeByte, kindOfCode_code, Option.map_some]

/-- R109: what decodes at the command register is one of the six commands. -/
theorem decode_command_eq_ok {bs rest : Bytes} {i : Instr} (h : decode .command bs = .ok (i, rest)) :
    ∃ c, i = commandInstr c := by
  obtain ⟨b, -, hb⟩ := decodeByte_eq_ok h
  simp only [commandOfCode] at hb
  split at hb
  case isTrue => cases hb; exact ⟨.decode, rfl⟩
  split at hb
  case isTrue => cases hb; exact ⟨.encode, rfl⟩
  split at hb
  case isTrue => cases hb; exact ⟨.parse, rfl⟩
  split at hb
  case isTrue => cases hb; exact ⟨.recon, rfl⟩
  split at hb
  case isTrue => cases hb; exact ⟨.filter, rfl⟩
  split at hb
  case isTrue => cases hb; exact ⟨.select, rfl⟩
  case isFalse => cases hb

/-- R102: the fetch of a chunk record, its head there. -/
theorem fetchChunk_of_decode {s : State} {rest : Bytes} {i : Instr} (hpos : s.eng.pos ≠ 0) (hfits : s.eng.pos + 12 ≤ s.inLen)
    (h : decode .chunk (s.input.drop s.eng.pos) = .ok (i, rest)) : fetchChunk s = exec i s := by
  have hhead := recordHead_of_fits (IN := s.input) (pos := s.eng.pos) (by rwa [input_length])
  have hi : i = chunkOfHead (u32At s.input s.eng.pos) (tagAt s.input (s.eng.pos + 4)) := by
    rw [decode_chunk_eq_ok h, u32At_drop, tagAt_drop, Nat.add_zero]
  rw [fetchChunk_record hpos rfl hhead, hi, exec_chunkOfHead]

/-- R102: the fetch of a scanline record, its type byte there and legal. -/
theorem fetchRecon_of_decode {s : State} {rest : Bytes} {i : Instr} (hrow : s.eng.row < s.eng.height.toNat)
    (hF : recordOffset (strideOf s.eng.width) s.eng.row < s.eng.f.length)
    (h : decode .recon (s.eng.f.drop (recordOffset (strideOf s.eng.width) s.eng.row)) = .ok (i, rest)) :
    fetchRecon s = exec i s := by
  simp only [fetchRecon, if_neg (Nat.not_le.2 hrow), if_neg (Nat.not_le.2 hF), h]

/-- R102: the fetch of a record to produce. -/
theorem fetchFilter_of_kind {s : State} {f : FilterKind} (hrow : s.eng.row < s.eng.height.toNat)
    (hkind : s.eng.kinds[s.eng.row]? = some f) : fetchFilter s = exec (filterInstr f) s := by
  simp only [fetchFilter, if_neg (Nat.not_le.2 hrow), hkind, decode_filter_code]

/-- R21, R201: inside a record the byte operation runs on the window loaded at the cursor. -/
theorem stepReconByte_of_inside {s : State} (f : FilterKind) (hcol : s.eng.col < strideOf s.eng.width)
    (hF : filteredOffset (strideOf s.eng.width) s.eng.row s.eng.col < s.eng.f.length)
    (hout : s.eng.out.length = rawOffset (strideOf s.eng.width) s.eng.row s.eng.col) :
    stepReconByte f s = exec (decInstr f) (s.withEng { s.eng with
      w := reconWindow s.eng.f s.eng.out (strideOf s.eng.width) s.eng.row s.eng.col }) := by
  rw [stepReconByte, if_neg (Nat.not_le.2 hcol), if_neg (not_or.2 ⟨Nat.not_le.2 hF, not_not.2 hout⟩)]

/-- R21, R221: and in the filter direction. -/
theorem stepFilterByte_of_inside {s : State} (f : FilterKind) (hcol : s.eng.col < strideOf s.eng.width)
    (hraw : rawOffset (strideOf s.eng.width) s.eng.row s.eng.col < s.input.length) :
    stepFilterByte f s = exec (encInstr f) (s.withEng { s.eng with
      w := filterWindow s.input (strideOf s.eng.width) s.eng.row s.eng.col }) := by
  rw [stepFilterByte, if_neg (Nat.not_le.2 hcol), if_neg (Nat.not_le.2 hraw)]

end Sys2Proof.Machine

namespace Sys2Proof.Proofs
open Sys2Proof.Machine

/-- Settles O5: the code decodes where the step takes it from `CMD`. -/
theorem stepRunsTheWrittenCommand : Obligations.StepRunsTheWrittenCommand := by
  intro s code i hidle hcmd hdecode
  rw [step_idle hidle]
  simp only [commandStep, hcmd, hdecode]

/-- Settles O6: at offset 0 the fetch is of SIG; elsewhere the head in `IN` is the one that the fetch decodes. -/
theorem stepRunsTheDueDatastreamItem : Obligations.StepRunsTheDueDatastreamItem := by
  intro s hbusy hop hphase
  have hstep : step s = fetchChunk s := by simp only [step_busy hbusy hop, stepPhase, hphase]
  refine ⟨fun hpos => ?_, fun rest i hpos hfits hdecode => ?_⟩
  · rw [hstep, fetchChunk, if_pos hpos]
  · rw [hstep, fetchChunk_of_decode hpos hfits hdecode]

/-- Settles O7: the type byte is decoded where R25 places it; in the filter direction the row's kind names its record. -/
theorem stepRunsTheDueScanlineRecord : Obligations.StepRunsTheDueScanlineRecord := by
  intro s i rest hbusy hop hrow
  refine ⟨fun hphase hF hdecode => ?recon, fun f hphase hkind hdecode => ?filt⟩
  case recon =>
    simp only [step_busy hbusy hop, stepPhase, hphase]
    exact fetchRecon_of_decode hrow hF hdecode
  case filt =>
    rw [decode_filter_code] at hdecode
    cases hdecode
    simp only [step_busy hbusy hop, stepPhase, hphase]
    exact fetchFilter_of_kind hrow hkind

/-- Settles O8: inside the row and inside its buffers neither the end of the record nor the fault is due. -/
theorem stepRunsTheDueByteOperation : Obligations.StepRunsTheDueByteOperation := by
  intro s f hbusy hop hcol
  refine ⟨fun hphase hF hout => ?recon, fun hphase hraw => ?filt⟩
  case recon =>
    rw [step_byte hbusy hop, stepByte_recon f hphase]
    exact stepReconByte_of_inside f hcol hF hout
  case filt =>
    rw [step_byte hbusy hop, stepByte_filt f hphase]
    exact stepFilterByte_of_inside f hcol (by rwa [input_length])

/-- Settles O9: nothing waits in `CMD`, or what waits there names no command. -/
theorem stepWithoutACommandWaits : Obligations.StepWithoutACommandWaits := by
  intro s hidle
  rw [step_idle hidle]
  refine ⟨fun hcmd => ?_, fun code hcmd hreserved => ?_⟩
  · simp only [commandStep, hcmd]
  · simp only [commandStep, hcmd, decode_command_reserved hreserved]

end Sys2Proof.Proofs
end

section
/-! The invariant through a command's start and through each kind of step, and the statements that it holds after reset,
where a command starts, and after every step (R26, R30, R31, R35, R120, R201). -/

namespace Sys2Proof.Machine

/-- R250 phase 2: the BUSY state before the internal items are set. -/
theorem inv_busy {s : State} (h : s.Inv) (c : Command) : ({ invalidate c s with status := .busy } : State).Inv :=
  { h with
    kindWf := by
      change Memory.wf (if c = .filter then s.kind else []) = true
      split
      · exact h.kindWf
      · rfl
    outExtent := ⟨rfl, fun _ => rfl⟩
    chunkCount := rfl
    lostInside := fun _ hi => nomatch hi
    lostSorted := .nil
    chunksOk := fun _ hc => nomatch hc
    noError := fun _ => rfl
    errorClass := fun hstatus => nomatch hstatus
    subOnlyFormat := fun hsub => absurd rfl hsub
    resultsOnlyDone := fun _ => ⟨rfl, rfl, rfl⟩
    kindsOnlyDone := fun _ => rfl
    diagHeld := fun i hi => by
      by_cases hc : c = .filter
      · simp only [invalidate, hc, if_true] at hi ⊢
        exact h.diagHeld i hi
      · simp [invalidate, hc] at hi
    diagSorted := by
      change (if c = .filter then s.kindDiag else []).Pairwise (· < ·)
      split
      · exact h.diagSorted
      · exact .nil
    headerAccepted := fun hvalid => nomatch hvalid
    headerAbsent := fun _ => rfl
    restOutside := fun hstatus => absurd rfl hstatus }

section
variable {s t : State} (h : s.Inv) (hbusy : s.status = .busy)
include h hbusy

/-- R122: SIG keeps the invariant. -/
theorem execSig_inv (hphase : s.eng.phase = .chunks) (he : execSig s = .next t) : t.Inv := by
  by_cases hs : signatureOk s.input = true
  case neg =>
    rw [execSig_of_no_signature hs] at he
    cases he
    exact inv_raise h _
  case pos =>
    rw [execSig_of_signature hs] at he
    cases he
    have hlen : 8 ≤ s.inLen := by
      have hs8 := (decide_eq_true_iff.1 hs).1
      rwa [input_length] at hs8
    exact inv_withEng h hbusy (fun _ hc => nomatch hc) hlen h.rowInside h.rowOpen h.colInside h.colClosed
      (fun _ => h.rowsFresh (by rw [hphase]; rfl)) (fun hd => nomatch hd) (fun hp => nomatch hp)

/-- R123: so does the fetch of a datastream item. -/
theorem fetchChunk_inv (hop : s.eng.op = none) (hphase : s.eng.phase = .chunks) (he : fetchChunk s = .next t) : t.Inv := by
  by_cases hpos : s.eng.pos = 0
  case pos =>
    rw [fetchChunk, if_pos hpos] at he
    exact execSig_inv h hbusy hphase he
  case neg =>
    cases hhead : recordHead s.input s.eng.pos with
    | error e =>
      rw [fetchChunk_error hpos rfl hhead] at he
      cases he
      exact inv_raise h e
    | ok p =>
      rw [fetchChunk_record hpos rfl hhead] at he
      refine chunkRecord_inv h hbusy hop hphase ?_ he
      split
      · exact .inr rfl
      · exact .inl rfl

/-- R251: the checks behind the merge give the dimensions. -/
theorem mergeList_inv (hphase : s.eng.phase = .merge) (he : mergeList s = .next t) : t.Inv := by
  have hlist := merge_ok s.eng.list h.listOk
  by_cases hcmd : s.eng.cmd = some .decode
  case neg =>
    rw [mergeList_parse hcmd] at he
    exact inv_finish h he hlist (fun d hd => nomatch hd)
  case pos =>
    cases hcheck : checkChunks (merge s.eng.list) with
    | error e =>
      rw [mergeList_error hcmd hcheck] at he
      cases he
      exact inv_raise h e
    | ok p =>
      obtain ⟨H, Z⟩ := p
      rw [mergeList_ok hcmd hcheck] at he
      cases he
      obtain ⟨hop, hrow, hout⟩ := h.rowsFresh (by rw [hphase]; rfl)
      have hcol := h.colClosed hop
      exact inv_withEng h hbusy hlist h.posInside (by simp [hrow]) (fun hopen => absurd hop hopen) (by simp [hcol])
        h.colClosed (fun _ => ⟨hop, hrow, hout⟩) (fun _ => checkChunks_dims hcheck) (fun hp => nomatch hp)

/-- R262: `F` is there, and no row of it is reconstructed yet. -/
theorem callInflate_inv (hphase : s.eng.phase = .inflate) (he : callInflate s = .next t) : t.Inv := by
  simp only [callInflate] at he
  split at he
  case h_1 =>
    cases he
    exact inv_raise h _
  case h_2 F =>
    cases he
    obtain ⟨hop, hrow, hout⟩ := h.rowsFresh (by rw [hphase]; rfl)
    have hcol := h.colClosed hop
    exact inv_withEng h hbusy h.listOk h.posInside h.rowInside h.rowOpen h.colInside h.colClosed (fun hp => nomatch hp)
      (fun _ => h.dimsPositive (by rw [hphase]; rfl)) (fun _ => by simp [hout, hrow, hcol, rawOffset])

/-- R201, R254: the fetch of a record, and the end behind the last row. -/
theorem fetchRecon_inv (hop : s.eng.op = none) (hphase : s.eng.phase = .recon) (he : fetchRecon s = .next t) : t.Inv := by
  have hdims := h.dimsPositive (by rw [hphase]; rfl)
  simp only [fetchRecon] at he
  split at he
  case isTrue =>
    by_cases hcmd : s.eng.cmd = some .decode
    · rw [reconEnd, if_pos hcmd] at he
      exact inv_finish h he h.listOk (fun d hd => by cases hd; exact hdims)
    · rw [reconEnd, if_neg hcmd] at he
      exact inv_finish h he (fun _ hc => nomatch hc) (fun d hd => nomatch hd)
  case isFalse hrow =>
    split at he
    case isTrue =>
      cases he
      exact inv_raise h _
    case isFalse =>
      split at he
      case h_1 =>
        cases he
        exact inv_raise h _
      case h_2 i rest hdecode =>
        obtain ⟨f, rfl⟩ := decode_recon_eq_ok hdecode
        rw [exec_recon] at he
        exact reconRecord_inv h hbusy hop hphase (Nat.not_le.1 hrow) he

/-- R229: the selection of a row, which the record of the row or the next selection follows. -/
theorem chooseRow_inv (hop : s.eng.op = none) (hphase : s.eng.phase = .choose) (hrow : s.eng.row < s.eng.height.toNat)
    (he : chooseRow s = .next t) : t.Inv := by
  have hdims := h.dimsPositive (by rw [hphase]; rfl)
  simp only [chooseRow] at he
  split at he
  case isTrue => cases he
  case isFalse =>
    cases he
    by_cases hcmd : s.eng.cmd = some .encode
    · simp only [hcmd, if_true]
      exact inv_withEng h hbusy h.listOk h.posInside h.rowInside h.rowOpen h.colInside h.colClosed (fun hp => nomatch hp)
        (fun _ => hdims) (fun hp => nomatch hp)
    · simp only [hcmd, if_false]
      exact inv_withEng h hbusy h.listOk h.posInside hrow (fun hopen => absurd hop hopen) h.colInside h.colClosed
        (fun hp => nomatch hp) (fun _ => hdims) (fun hp => nomatch hp)

theorem fetchChoose_inv (hop : s.eng.op = none) (hphase : s.eng.phase = .choose) (he : fetchChoose s = .next t) :
    t.Inv := by
  simp only [fetchChoose] at he
  split at he
  case isTrue hrow => exact chooseRow_inv h hbusy hop hphase hrow he
  case isFalse =>
    split at he
    case isTrue =>
      cases he
      exact inv_withEng h hbusy h.listOk h.posInside h.rowInside h.rowOpen h.colInside h.colClosed (fun hp => nomatch hp)
        (fun _ => h.dimsPositive (by rw [hphase]; rfl)) (fun hp => nomatch hp)
    case isFalse => exact inv_finish h he (fun _ hc => nomatch hc) (fun d hd => nomatch hd)

/-- R227: the fetch of a record to produce, and the end behind the last row. -/
theorem fetchFilter_inv (hop : s.eng.op = none) (hphase : s.eng.phase = .filt) (he : fetchFilter s = .next t) : t.Inv := by
  by_cases hrow : s.eng.height.toNat ≤ s.eng.row
  case pos =>
    rw [fetchFilter_end hrow] at he
    exact inv_finish h he (fun _ hc => nomatch hc) (fun d hd => nomatch hd)
  case neg =>
    cases hkind : s.eng.kinds[s.eng.row]? with
    | none => simp only [fetchFilter, if_neg hrow, hkind, reduceCtorEq] at he
    | some f =>
      rw [fetchFilter_of_kind (Nat.not_le.1 hrow) hkind, exec_filter] at he
      exact filterRecord_inv h hbusy hop hphase (Nat.not_le.1 hrow) he

/-- A step at a record boundary keeps the invariant. -/
theorem stepPhase_inv (hop : s.eng.op = none) (he : stepPhase s = .next t) : t.Inv := by
  cases hphase : s.eng.phase with
  | rest => simp only [stepPhase, hphase, reduceCtorEq] at he
  | chunks => simp only [stepPhase, hphase] at he; exact fetchChunk_inv h hbusy hop hphase he
  | merge => simp only [stepPhase, hphase] at he; exact mergeList_inv h hbusy hphase he
  | inflate => simp only [stepPhase, hphase] at he; exact callInflate_inv h hbusy hphase he
  | recon => simp only [stepPhase, hphase] at he; exact fetchRecon_inv h hbusy hop hphase he
  | choose => simp only [stepPhase, hphase] at he; exact fetchChoose_inv h hbusy hop hphase he
  | filt => simp only [stepPhase, hphase] at he; exact fetchFilter_inv h hbusy hop hphase he
  | deflate =>
    simp only [stepPhase, hphase, callDeflate, Host.Outcome.next.injEq] at he
    subst he
    exact inv_withEng h hbusy h.listOk h.posInside h.rowInside h.rowOpen h.colInside h.colClosed (fun hp => nomatch hp)
      (fun _ => h.dimsPositive (by rw [hphase]; rfl)) (fun hp => nomatch hp)
  | pack =>
    simp only [stepPhase, hphase] at he
    exact inv_finish h he (packageChunks_ok _ _ _ _) (fun d hd => by cases hd; exact h.dimsPositive (by rw [hphase]; rfl))

/-- R201: a byte operation, or the end of its record, keeps the invariant, reconstruct direction. -/
theorem stepReconByte_inv {f : FilterKind} (hop : s.eng.op = some f) (hphase : s.eng.phase = .recon)
    (he : stepReconByte f s = .next t) : t.Inv := by
  have hrow : s.eng.row < s.eng.height.toNat := h.rowOpen (by simp [hop])
  have hdims := h.dimsPositive (by rw [hphase]; rfl)
  have hout := h.outHeld hphase
  have hcolLe := h.colInside
  by_cases hcol : strideOf s.eng.width ≤ s.eng.col
  case pos =>
    rw [stepReconByte_close hcol] at he
    cases he
    refine inv_withEng h hbusy h.listOk h.posInside hrow (fun hopen => absurd rfl hopen) (Nat.zero_le _) (fun _ => rfl) ?_
      (fun _ => hdims) (fun _ => ?_)
    · intro hp
      simp [hphase, phaseBeforeRows] at hp
    · simp only [hout, rawOffset, Nat.add_mul]
      omega
  case neg =>
    simp only [stepReconByte, if_neg hcol] at he
    split at he
    case isTrue => cases he
    case isFalse =>
      rw [exec_dec, storeReconstructed_next, withEng_withEng] at he
      cases he
      refine inv_withEng h hbusy h.listOk h.posInside h.rowInside h.rowOpen (Nat.not_le.1 hcol) ?_ ?_ (fun _ => hdims) ?_
      · intro hclosed
        simp [hop] at hclosed
      · intro hp
        simp [hphase, phaseBeforeRows] at hp
      · intro _
        simp [hout, rawOffset, Nat.add_assoc]

/-- R221: and in the filter direction. -/
theorem stepFilterByte_inv {f : FilterKind} (hop : s.eng.op = some f) (hphase : s.eng.phase = .filt)
    (he : stepFilterByte f s = .next t) : t.Inv := by
  have hrow : s.eng.row < s.eng.height.toNat := h.rowOpen (by simp [hop])
  have hdims := h.dimsPositive (by rw [hphase]; rfl)
  by_cases hcol : strideOf s.eng.width ≤ s.eng.col
  case pos =>
    rw [stepFilterByte_close rfl hcol] at he
    cases he
    have hafter : afterFilter s.eng.cmd = .choose ∨ afterFilter s.eng.cmd = .filt := ite_eq_or_eq _ _ _
    refine inv_withEng h hbusy h.listOk h.posInside hrow (fun hopen => absurd rfl hopen) (Nat.zero_le _) (fun _ => rfl) ?_
      (fun _ => hdims) ?_
    · intro hp
      rcases hafter with ha | ha <;> simp [ha, phaseBeforeRows] at hp
    · intro hp
      rcases hafter with ha | ha <;> simp [ha] at hp
  case neg =>
    simp only [stepFilterByte, if_neg hcol] at he
    split at he
    case isTrue => cases he
    case isFalse =>
      rw [exec_enc, storeFiltered_next, withEng_withEng] at he
      cases he
      refine inv_withEng h hbusy h.listOk h.posInside h.rowInside h.rowOpen (Nat.not_le.1 hcol) ?_ ?_ (fun _ => hdims) ?_
      · intro hclosed
        simp [hop] at hclosed
      · intro hp
        simp [hphase, phaseBeforeRows] at hp
      · intro hp
        simp [hphase] at hp

/-- A step of a running command keeps the invariant. -/
theorem engineStep_inv (he : engineStep s = .next t) : t.Inv := by
  cases hop : s.eng.op with
  | none =>
    simp only [engineStep, hop] at he
    exact stepPhase_inv h hbusy hop he
  | some f =>
    simp only [engineStep, hop] at he
    cases hphase : s.eng.phase with
    | recon => rw [stepByte_recon f hphase] at he; exact stepReconByte_inv h hbusy hop hphase he
    | filt => rw [stepByte_filt f hphase] at he; exact stepFilterByte_inv h hbusy hop hphase he
    | _ => simp only [stepByte, hphase, reduceCtorEq] at he

end

/-- R250: so does a step that takes the code in `CMD`. -/
theorem commandStep_inv {s t : State} (h : s.Inv) (he : commandStep s = .next t) : t.Inv := by
  simp only [commandStep] at he
  split at he
  case h_1 =>
    cases he
    exact h
  case h_2 code _ =>
    split at he
    case h_1 => cases he
    case h_2 i rest hdecode =>
      obtain ⟨c, rfl⟩ := decode_command_eq_ok hdecode
      exact exec_command_inv (inv_withCmd h none) he

end Sys2Proof.Machine

namespace Sys2Proof.Proofs
open Sys2Proof.Machine

/-- Settles O12: a step is one of a running command, at a record boundary or inside a record, or it takes the code in
`CMD`. -/
theorem stepKeepsTheInvariant : Obligations.StepKeepsTheInvariant := by
  intro s t h he
  by_cases hbusy : s.status = .busy
  · rw [step, if_pos hbusy] at he
    exact engineStep_inv h hbusy he
  · rw [step, if_neg hbusy] at he
    exact commandStep_inv h he

/-- Settles O13: the start clears the cursors and lists, and its preconditions make the dimensions positive where the first
phase uses them. -/
theorem commandStartMeetsTheInvariant : Obligations.CommandStartMeetsTheInvariant := by
  intro c s b h hstart
  obtain ⟨IN, ks, ho, rfl⟩ := startCommand_next hstart
  obtain ⟨-, hpre, -, -⟩ := (operands_next_iff c s IN ks).1 ho
  have hdims : phaseHasDims (firstPhase c) = true → s.argWidth ≠ 0 ∧ s.argHeight ≠ 0 := fun hd =>
    precondition_dims hpre (by rintro rfl; cases hd) (by rintro rfl; cases hd)
  exact inv_withEng (inv_busy h c) rfl (fun _ hc => nomatch hc) (Nat.zero_le _) (Nat.zero_le _)
    (fun hopen => absurd rfl hopen) (Nat.zero_le _) (fun _ => rfl) (fun _ => ⟨rfl, rfl, rfl⟩) hdims
    (fun _ => (Nat.zero_mul _).symm)

/-- Settles O10: every one of these fields is set by name in `State.reset`. -/
theorem resetHoldsTheStatedValues : Obligations.ResetHoldsTheStatedValues :=
  ⟨rfl, rfl, rfl, rfl, rfl, rfl, rfl, rfl, rfl, rfl, rfl, rfl, rfl, fun _ => ⟨rfl, rfl, rfl⟩, rfl, rfl, rfl⟩

/-- Settles O11: the buffers are empty, no result stands and the internal items are at rest. -/
theorem resetMeetsTheInvariant : Obligations.ResetMeetsTheInvariant where
  inWf := rfl
  kindWf := rfl
  outExtent := ⟨rfl, fun _ => rfl⟩
  chunkCount := rfl
  lostInside := fun _ hi => nomatch hi
  lostSorted := .nil
  chunksOk := fun _ hc => nomatch hc
  listOk := fun _ hc => nomatch hc
  noError := fun _ => rfl
  errorClass := fun hstatus => nomatch hstatus
  subOnlyFormat := fun hsub => absurd rfl hsub
  resultsOnlyDone := fun _ => ⟨rfl, rfl, rfl⟩
  kindsOnlyDone := fun _ => rfl
  diagHeld := fun _ hi => nomatch hi
  diagSorted := .nil
  headerAccepted := fun hvalid => nomatch hvalid
  headerAbsent := fun _ => rfl
  restOutside := fun _ => rfl
  posInside := Nat.zero_le _
  rowInside := Nat.zero_le _
  rowOpen := fun hopen => absurd rfl hopen
  colInside := Nat.zero_le _
  colClosed := fun _ => rfl
  rowsFresh := fun _ => ⟨rfl, rfl, rfl⟩
  dimsPositive := fun hdims => nomatch hdims
  outHeld := fun hphase => nomatch hphase

end Sys2Proof.Proofs
end

section
/-! The byte operations as numbers, the predictor at the image edges, the inverse law, and the statements about the kernel
(R171 to R185). -/

namespace Sys2Proof.Machine

/-- R172: in row 0 the nearest neighbour is the left one. -/
theorem paeth_of_first_row (a : Byte) : paeth a 0 0 = a := by
  rw [paeth_eq_ite, if_pos (by simp)]

/-- R172: with no neighbour to the left it is the one above. -/
theorem paeth_of_first_columns (b : Byte) : paeth 0 b 0 = b := by
  rw [paeth_eq_ite]
  split
  case isTrue h =>
    apply BitVec.eq_of_toNat_eq
    simp at h
    simp [h]
  case isFalse => rw [if_pos (by simp)]

/-- R173: what a byte operation of the filter direction answers and leaves, for any number with the byte's residue. -/
theorem exec_enc_of_mod_eq (f : FilterKind) (s : State) {v : Nat}
    (hv : v % 256 = (s.eng.w.x.toNat + 256 - (pred f s.eng.w.a s.eng.w.b s.eng.w.c).toNat) % 256) :
    exec (encInstr f) s = .next (s.withEng { s.eng with
      rowBuf := s.eng.rowBuf ++ [BitVec.ofNat 8 (v % 256)], col := s.eng.col + 1, w := Window.zero }) := by
  have hbyte : encOp f s.eng.w = BitVec.ofNat 8 (v % 256) := by
    apply BitVec.eq_of_toNat_eq
    have henc := encOp_toNat f s.eng.w
    have hpred := (pred f s.eng.w.a s.eng.w.b s.eng.w.c).isLt
    rw [BitVec.toNat_ofNat]
    omega
  rw [exec_enc, storeFiltered_next, hbyte]

/-- R173: and one of the reconstruct direction. -/
theorem exec_dec_of_mod_eq (f : FilterKind) (s : State) {v : Nat}
    (hv : v % 256 = (s.eng.w.x.toNat + (pred f s.eng.w.a s.eng.w.b s.eng.w.c).toNat) % 256) :
    exec (decInstr f) s = .next (s.withEng { s.eng with
      out := s.eng.out ++ [BitVec.ofNat 8 (v % 256)], col := s.eng.col + 1, w := Window.zero }) := by
  have hbyte : decOp f s.eng.w = BitVec.ofNat 8 (v % 256) := by
    apply BitVec.eq_of_toNat_eq
    have hdec := decOp_toNat f s.eng.w
    rw [BitVec.toNat_ofNat]
    omega
  rw [exec_dec, storeReconstructed_next, hbyte]

end Sys2Proof.Machine

namespace Sys2Proof.Proofs
open Sys2Proof.Machine

/-- Settles O17: each operation stores the residue of `x` less or plus its prediction; only those of None and Average are
spelt otherwise than the prediction. -/
theorem byteOperationResults : Obligations.ByteOperationResults := by
  refine ⟨⟨rfl, rfl, rfl, rfl, rfl, rfl, rfl, rfl, rfl, rfl⟩, fun s => ⟨Window.zero, ?_⟩⟩
  intro x a b p encTo decTo
  have haverage : (pred .average s.eng.w.a s.eng.w.b s.eng.w.c).toNat = (a + b) / 2 := average_toNat _ _
  refine ⟨exec_enc_of_mod_eq .none s ?_, exec_enc_of_mod_eq .sub s rfl, exec_enc_of_mod_eq .up s rfl,
    exec_enc_of_mod_eq .average s ?_, exec_enc_of_mod_eq .paeth s rfl, exec_dec_of_mod_eq .none s ?_,
    exec_dec_of_mod_eq .sub s rfl, exec_dec_of_mod_eq .up s rfl, exec_dec_of_mod_eq .average s ?_,
    exec_dec_of_mod_eq .paeth s rfl⟩
  · exact (Nat.add_mod_right x 256).symm
  · rw [haverage]
  · rfl
  · rw [haverage]

/-- Settles O20: with two of the three neighbours missing the predictor is the third. -/
theorem paethAtTheImageEdges : Obligations.PaethAtTheImageEdges := by
  intro x a b
  simp only [opEncPaeth, opEncSub, opEncUp, opDecPaeth, opDecSub, opDecUp, paeth_of_first_row, paeth_of_first_columns,
    and_self]

/-- Settles O21: both operations of a kind use one prediction, and subtraction and addition of bytes cancel. -/
theorem operationsInvertEachOther : Obligations.OperationsInvertEachOther := by
  intro f x a b c
  simp only [decOp_eq, encOp_eq]
  exact ⟨BitVec.sub_add_cancel x _, BitVec.add_sub_cancel x _⟩

/-- Settles O23: `windowAt_congr`, with `getD` for the bytes read. -/
theorem samplingReadsOnlyEarlierBytes : Obligations.SamplingReadsOnlyEarlierBytes := by
  intro x B C stride r i hi h
  exact windowAt_congr hi h

end Sys2Proof.Proofs
end

section
/-! Reconstruction: one record, the whole stream, the bytes behind it, and the round trip with the filter (R201 to R211). -/

namespace Sys2Proof.Machine

/-- R64: a record ends where the next one begins. -/
theorem recordOffset_add (stride r : Nat) : recordOffset stride r + 1 + stride = (r + 1) * (1 + stride) := by
  rw [recordOffset, Nat.add_one_mul, Nat.add_assoc]

/-- R208: every record is there whole exactly where the last one is. -/
theorem forall_record_inside_iff {L n stride : Nat} :
    (∀ r, r < n → recordOffset stride r + 1 + stride ≤ L) ↔ n * (1 + stride) ≤ L := by
  simp only [recordOffset_add]
  refine ⟨fun h => ?_, fun h r hr => (Nat.mul_le_mul_right _ hr).trans h⟩
  cases n with
  | zero => simp
  | succ n => exact h n (Nat.lt_succ_self n)

/-- R209: bytes behind the last record are not read. -/
theorem reconstruct_append {F : Bytes} {height stride : Nat} (surplus : Bytes) (h : height * (1 + stride) ≤ F.length) :
    reconstruct (F ++ surplus) height stride = reconstruct F height stride :=
  reconRows_append surplus stride height 0 [] [] (by rwa [Nat.zero_add])

/-- R209: two streams that agree up to the end of the last record reconstruct alike. -/
theorem reconstruct_congr {F G : Bytes} {height stride : Nat} (hF : height * (1 + stride) ≤ F.length)
    (hG : height * (1 + stride) ≤ G.length) (h : F.take (height * (1 + stride)) = G.take (height * (1 + stride))) :
    reconstruct F height stride = reconstruct G height stride := by
  rw [← List.take_append_drop (height * (1 + stride)) F, ← List.take_append_drop (height * (1 + stride)) G,
    reconstruct_append _ (by simp [hF]), reconstruct_append _ (by simp [hG]), h]

/-- R64: the bytes of record `r` of a filtered stream: the type byte, then the filtered row. -/
theorem byteAt_filterStream {raw : Bytes} {ks : List FilterKind} {stride r : Nat} {f : FilterKind} (hf : ks[r]? = some f)
    {k : Nat} (hk : k < 1 + stride) :
    byteAt (filterStream raw ks stride) (recordOffset stride r + k) = byteAt (filterScanline raw stride r f) k := by
  obtain ⟨hr, rfl⟩ := List.getElem?_eq_some_iff.1 hf
  rw [← byteAt_drop, filterStream, filterRows_drop raw stride ks 0 r hr.le, List.drop_eq_getElem_cons hr, filterRows,
    Nat.zero_add, byteAt_append_left (by rwa [filterScanline_length])]

/-- R185, R211: the record step on a filtered stream gives back the row and its kind. -/
theorem reconStep_filterStream {raw : Bytes} {ks : List FilterKind} {stride r : Nat} {f : FilterKind}
    (hraw : raw.length = ks.length * stride) (hf : ks[r]? = some f) :
    reconStep (filterStream raw ks stride) stride r (raw.take (rawOffset stride r 0)) =
      .ok (f, raw.take (rawOffset stride (r + 1) 0)) := by
  have hr : r < ks.length := (List.getElem?_eq_some_iff.1 hf).1
  have htype : byteAt (filterStream raw ks stride) (recordOffset stride r) = f.code :=
    byteAt_filterStream (k := 0) hf (by omega)
  have hrow (i : Nat) (hi : i < stride) : byteAt (filterStream raw ks stride) (filteredOffset stride r i) =
      encOp f (filterWindow raw stride r i) := by
    rw [filteredOffset, Nat.add_assoc, byteAt_filterStream hf (by omega), Nat.add_comm 1 i]
    exact byteAt_filterRow f hi
  rw [reconStep_of_fits _ (by rw [htype, kindOfCode_code])
    (by rw [filterStream_length, recordOffset_add]; exact Nat.mul_le_mul_right _ hr)]
  rw [reconBytes_inverts hrow (by rw [hraw]; exact Nat.mul_le_mul_right _ hr) stride 0 (Nat.zero_add _)]

/-- R211: the row loop, from behind any first rows. -/
theorem reconRows_filterStream {raw : Bytes} {ks : List FilterKind} {stride : Nat} (hraw : raw.length = ks.length * stride) :
    ∀ rest done : List FilterKind, ks = done ++ rest →
      reconRows (filterStream raw ks stride) stride rest.length done.length (raw.take (rawOffset stride done.length 0))
        done = .ok (raw, ks) := by
  intro rest
  induction rest with
  | nil =>
    intro done hks
    rw [List.append_nil] at hks
    subst hks
    rw [List.length_nil, reconRows, List.take_of_length_le (by rw [hraw]; exact Nat.le_refl _)]
  | cons f rest ih =>
    intro done hks
    have hf : ks[done.length]? = some f := by simp [hks]
    have hnext := ih (done ++ [f]) (by simp [hks])
    rw [List.length_append, List.length_singleton] at hnext
    simp only [List.length_cons, reconRows, reconStep_filterStream hraw hf]
    exact hnext

end Sys2Proof.Machine

namespace Sys2Proof.Proofs
open Sys2Proof.Machine

/-- Settles O28: row by row, the record step on the filtered stream gives back the raw row and its kind. -/
theorem reconstructInvertsFilter : Obligations.ReconstructInvertsFilter := by
  intro raw ks stride hraw
  have hrows := reconRows_filterStream hraw ks [] rfl
  rwa [List.length_nil, rawOffset, Nat.zero_mul, Nat.zero_add, List.take_zero] at hrows

/-- Settles O24: the byte loop appends the row, and each of its bytes is the operation of the kind on a window sampled
from the bytes before it. -/
theorem reconRecordResult : Obligations.ReconRecordResult := by
  intro s f stride r hF hout
  obtain ⟨more, happend, hlength, hbytes⟩ := reconBytes_spec s.eng.f stride r f stride 0 s.eng.out (Nat.zero_add _) hout
  refine ⟨more, ?_, hlength, fun i hi => ?_⟩
  · rw [← happend, exec_recon]
    exact reconRecord_of_fits f hF hout
  · have hbyte := hbytes i hi
    rw [Nat.zero_add] at hbyte
    rw [show more.getD i 0 = _ from hbyte]
    exact decOp_toNat f _

/-- Settles O25: the record tests its extent first. -/
theorem reconRecordShortStreamRaises : Obligations.ReconRecordShortStreamRaises := by
  intro s f hshort
  rw [exec_recon]
  exact if_pos hshort

/-- Settles O26: the row loop succeeds where every row is legal and whole, and else stops at the first that is not. -/
theorem reconstructSucceedsExactly : Obligations.ReconstructSucceedsExactly := by
  intro F height stride
  refine ⟨?success, ?result, ?error⟩
  case success =>
    rw [reconstruct, reconRows_ok_iff]
    simp only [Nat.zero_add, ← forall_record_inside_iff]
    exact ⟨fun h => ⟨fun r hr => (h r hr).1, fun r hr => (h r hr).2⟩, fun h r hr => ⟨h.1 r hr, h.2 r hr⟩⟩
  case result =>
    intro out kinds h
    obtain ⟨hlength, ks, hkinds, hks, hcodes⟩ := reconRows_ok F stride height 0 [] [] out kinds h
    rw [List.nil_append] at hkinds
    subst hkinds
    refine ⟨by simpa using hlength, hks, fun r hr => ?_⟩
    have hcode := hcodes r hr
    rwa [Nat.zero_add] at hcode
  case error =>
    intro e h
    obtain ⟨r, hr, herr, hbefore⟩ := reconRows_error F stride height 0 [] [] e h
    simp only [Nat.zero_add, recordOffset_add, StepError] at herr hbefore
    exact ⟨r, hr, hbefore, herr⟩

end Sys2Proof.Proofs
end

section
/-! The filter direction: one record, the layout of the stream, the scores, and how a row's selection depends on the raw
rows (R221 to R229). -/

namespace Sys2Proof.Machine

/-- R171: in row 0 no neighbour stands above. -/
theorem filterWindow_first_row (raw : Bytes) (stride i : Nat) :
    (filterWindow raw stride 0 i).b = 0 ∧ (filterWindow raw stride 0 i).c = 0 :=
  ⟨sampleB_of_row_eq_zero (B := raw) (stride := stride) (i := i) rfl,
    sampleC_of_row_eq_zero (B := raw) (stride := stride) (i := i) rfl⟩

/-- R229: in row 0 Up predicts 0, as None does. -/
theorem filterRow_up_first_row (raw : Bytes) (stride : Nat) : filterRow raw stride 0 .up = filterRow raw stride 0 .none := by
  refine List.map_congr_left fun i _ => ?_
  obtain ⟨hb, -⟩ := filterWindow_first_row raw stride i
  simp only [encOp_eq, pred, hb]

/-- R229: and Paeth predicts the left neighbour, as Sub does. -/
theorem filterRow_paeth_first_row (raw : Bytes) (stride : Nat) :
    filterRow raw stride 0 .paeth = filterRow raw stride 0 .sub := by
  refine List.map_congr_left fun i _ => ?_
  obtain ⟨hb, hc⟩ := filterWindow_first_row raw stride i
  simp only [encOp_eq, pred, hb, hc, paeth_of_first_row]

/-- R229: a kind that scores as one before it in the fixed order is not chosen. -/
theorem selectRow_ne_of_filterRow_eq {raw : Bytes} {stride r : Nat} {f g : FilterKind} (hcode : g.code.toNat < f.code.toNat)
    (hrow : filterRow raw stride r f = filterRow raw stride r g) : selectRow raw stride r ≠ f := by
  intro hselect
  obtain ⟨-, hmin⟩ := bestOf_firstMinimumBelow (scoresOf (candidates raw stride r))
  have hbefore := (hmin g (Nat.lt_succ_of_le (code_le g))).2
  rw [show bestOf (scoresOf (candidates raw stride r)) = f from hselect, scoreAt_eq, scoreAt_eq, hrow] at hbefore
  exact lt_irrefl _ (hbefore hcode)

/-- R171, R229: the candidates of a row read that raw row and the one before it only. -/
theorem filterRow_congr {raw raw' : Bytes} {stride r : Nat}
    (h : ∀ o, (r - 1) * stride ≤ o → o < (r + 1) * stride → byteAt raw o = byteAt raw' o) (f : FilterKind) :
    filterRow raw stride r f = filterRow raw' stride r f := by
  refine List.map_congr_left fun i hi => ?_
  have hcol : i < stride := List.mem_range.1 hi
  have hbefore : (r - 1) * stride ≤ r * stride := Nat.mul_le_mul_right _ (Nat.sub_le r 1)
  rw [Nat.add_one_mul] at h
  have hx : byteAt raw (rawOffset stride r i) = byteAt raw' (rawOffset stride r i) :=
    h _ (by simp only [rawOffset]; omega) (by simp only [rawOffset]; omega)
  have ha : sampleA raw stride r i = sampleA raw' stride r i := by
    simp only [sampleA]
    split
    · exact h _ (by simp only [rawOffset]; omega) (by simp only [rawOffset]; omega)
    · rfl
  have hb : sampleB raw stride r i = sampleB raw' stride r i := by
    simp only [sampleB]
    split
    · exact h _ (by simp only [rawOffset]; omega) (by simp only [rawOffset]; omega)
    · rfl
  have hc : sampleC raw stride r i = sampleC raw' stride r i := by
    simp only [sampleC]
    split
    · exact h _ (by simp only [rawOffset]; omega) (by simp only [rawOffset]; omega)
    · rfl
  rw [filterWindow, windowAt, hx, ha, hb, hc]
  rfl

end Sys2Proof.Machine

namespace Sys2Proof.Proofs
open Sys2Proof.Machine

/-- Settles O29: the record appends the filtered row, each byte the operation of the kind on a window of raw bytes. -/
theorem filterRecordResult : Obligations.FilterRecordResult := by
  intro s f stride r hraw
  refine ⟨filterRow s.input stride r f, ?_, filterRow_length _ _ _ _, fun i hi => ?_⟩
  · rw [exec_filter]
    exact filterRecord_of_fits f (by rwa [input_length])
  · rw [show (filterRow s.input stride r f).getD i 0 = _ from byteAt_filterRow f hi]
    exact encOp_toNat f _

/-- Settles O30: all records have one length, so those before record `r` end at its offset. -/
theorem filteredStreamLayout : Obligations.FilteredStreamLayout := by
  intro raw ks stride
  refine ⟨filterStream_length raw ks stride, fun r f hf => ?_⟩
  obtain ⟨hr, rfl⟩ := List.getElem?_eq_some_iff.1 hf
  have hdrop := filterRows_drop raw stride ks 0 r hr.le
  rw [Nat.zero_add, List.drop_eq_getElem_cons hr, filterRows] at hdrop
  rw [show (filterStream raw ks stride).drop (r * (1 + stride)) = _ from hdrop]
  exact List.take_left' (filterScanline_length raw stride r ks[r])

/-- Settles O31: the magnitude of a signed byte is `min v (256 - v)`, at most 128. -/
theorem scoreSumsSignedMagnitudes : Obligations.ScoreSumsSignedMagnitudes := by
  intro row
  induction row with
  | nil => exact ⟨rfl, Nat.le_refl 0⟩
  | cons v row ih =>
    obtain ⟨hsum, hbound⟩ := ih
    rw [score, s8_abs, List.map_cons, List.sum_cons, List.length_cons]
    exact ⟨by rw [hsum], by omega⟩

/-- Settles O33: in row 0 Up scores as None and Paeth as Sub, which come before them. -/
theorem firstRowNeverSelectsUpOrPaeth : Obligations.FirstRowNeverSelectsUpOrPaeth := by
  intro raw stride
  exact ⟨selectRow_ne_of_filterRow_eq (by decide) (filterRow_up_first_row raw stride),
    selectRow_ne_of_filterRow_eq (by decide) (filterRow_paeth_first_row raw stride)⟩

/-- Settles O34: all five candidates agree. -/
theorem selectionIsLocalToTwoRows : Obligations.SelectionIsLocalToTwoRows := by
  intro raw raw' stride r h
  simp only [selectRow, candidates, filterRow_congr (raw' := raw') h]

end Sys2Proof.Proofs
end

section
/-! The items of a datastream: SIG, the four chunk opcodes with their errors, and the statements about them (R122 to R129,
R290). -/

namespace Sys2Proof.Machine

/-- R122: the test of SIG. -/
theorem signatureOk_iff (IN : Bytes) : signatureOk IN = true ↔ 8 ≤ IN.length ∧ IN.take 8 = signatureBytes :=
  decide_eq_true_iff

section
variable {s : State} {len : U32} {tag : Tag}

/-- R123: a record that is there whole with its own crc is appended to the list. -/
theorem chunkRecord_of_crc (due : Phase) (hfits : s.eng.pos + 12 + len.toNat ≤ s.inLen)
    (hcrc : u32At s.input (s.eng.pos + 8 + len.toNat) = chunkCrc tag (slice s.input (s.eng.pos + 8) len.toNat)) :
    chunkRecord tag len due s = .next (s.withEng { s.eng with
      list := s.eng.list ++ [⟨len.toNat, tag, slice s.input (s.eng.pos + 8) len.toNat,
        u32At s.input (s.eng.pos + 8 + len.toNat)⟩]
      pos := s.eng.pos + 12 + len.toNat
      crcAcc := 0
      phase := due }) := by
  simp only [chunkRecord, frame_whole (tag := tag) (show s.eng.pos + 12 + len.toNat ≤ s.input.length by rwa [input_length]),
    if_pos hcrc.symm]
  rfl

/-- R123: a record that does not frame raises. -/
theorem chunkRecord_of_frame_error {e : Err} (due : Phase) (h : frame s.input s.eng.pos len tag = .error e) :
    chunkRecord tag len due s = .next (raise e s) := by
  simp only [chunkRecord, h]

end

/-- R65: the bit flip of R135 changes the byte. -/
theorem xor_two_pow_ne_self (v : Byte) {j : Nat} (hj : j < 8) : v ^^^ BitVec.ofNat 8 (2 ^ j) ≠ v := by
  intro h
  have hzero : BitVec.ofNat 8 (2 ^ j) = 0#8 := (BitVec.xor_right_inj v).1 (h.trans BitVec.xor_zero.symm)
  have hbits : ∀ i : Fin 8, BitVec.ofNat 8 (2 ^ i.val) ≠ 0#8 := by decide
  exact hbits ⟨j, hj⟩ hzero

/-- R135: a byte changed in the payload changes the chunk's crc. -/
theorem chunkCrc_set_ne {payload : Bytes} {k : Nat} {v w : Byte} (tag : Tag) (hv : payload[k]? = some v) (hne : w ≠ v) :
    chunkCrc tag (payload.set k w) ≠ chunkCrc tag payload := by
  obtain ⟨hk, rfl⟩ := List.getElem?_eq_some_iff.1 hv
  have hset : tagBytes tag ++ payload.set k w = (tagBytes tag ++ payload.take k) ++ w :: payload.drop (k + 1) := by
    rw [List.set_eq_take_append_cons_drop, if_pos hk, List.append_assoc]
  have hpayload : tagBytes tag ++ payload = (tagBytes tag ++ payload.take k) ++ payload[k] :: payload.drop (k + 1) := by
    rw [List.append_assoc, ← List.drop_eq_getElem_cons hk, List.take_append_drop]
  rw [chunkCrc, chunkCrc, hset, hpayload]
  exact crc32_change _ _ hne

end Sys2Proof.Machine

namespace Sys2Proof.Proofs
open Sys2Proof.Machine

/-- Settles O35: SIG tests exactly this. -/
theorem signatureItemResult : Obligations.SignatureItemResult := by
  intro s
  have hsig := signatureOk_iff s.input
  rw [input_length] at hsig
  exact ⟨fun h => execSig_of_signature (hsig.2 h), fun h => execSig_of_no_signature (fun hs => h (hsig.1 hs))⟩

/-- Settles O36: the four opcodes are one record step with their tag and what is due next; the accumulator is left at
zero. -/
theorem chunkRecordResult : Obligations.ChunkRecordResult := by
  refine ⟨0, fun s payload len tag hfits hpayload hcrc => ?_⟩
  subst hpayload
  have hrecord (due : Phase) := chunkRecord_of_crc due hfits hcrc
  refine ⟨?_, ?_, ?_, hrecord .chunks⟩ <;> rintro rfl
  · exact hrecord .chunks
  · exact hrecord .chunks
  · exact hrecord .merge

/-- Settles O37: each opcode is the record step with its tag, which raises what the framing raises. -/
theorem chunkRecordErrors : Obligations.ChunkRecordErrors := by
  intro s i len tag hpos hi
  obtain ⟨due, hexec⟩ : ∃ due, exec i s = chunkRecord tag len due s := by
    rcases hi with ⟨rfl, rfl⟩ | ⟨rfl, rfl⟩ | ⟨rfl, rfl⟩ | rfl
    · exact ⟨.chunks, rfl⟩
    · exact ⟨.chunks, rfl⟩
    · exact ⟨.merge, rfl⟩
    · exact ⟨.chunks, rfl⟩
  rw [hexec]
  refine ⟨fun hend => ?missing, fun hbegun hshort => ?truncated, fun hfits stored computed hstored hcomputed hne => ?checksum⟩
  case missing => exact chunkRecord_of_frame_error due (frame_end (by rw [input_length]; exact hend.ge))
  case truncated =>
    exact chunkRecord_of_frame_error due (frame_short (by rwa [input_length]) (by rwa [input_length]))
  case checksum =>
    subst hstored hcomputed
    refine chunkRecord_of_frame_error due ?_
    rw [frame_whole (by rwa [input_length])]
    exact if_neg hne

/-- Settles O38: the flipped bit changes the computed crc and not the stored one. -/
theorem flippedPayloadBitRaisesChecksum : Obligations.FlippedPayloadBitRaisesChecksum := by
  intro s front payload behind len stored tag k v j hlen hpos hj hv hstored hinput
  generalize hflipped : payload.set k (v ^^^ BitVec.ofNat 8 (2 ^ j)) = payload' at hinput
  have hlen' : payload'.length = len.toNat := by rw [← hflipped, List.length_set, hlen]
  have hend : (front ++ payload').length = s.eng.pos + 8 + len.toNat := by rw [List.length_append, hlen', hpos]
  have hfits : s.eng.pos + 12 + len.toNat ≤ s.inLen := by
    rw [← input_length s, hinput, List.length_append, List.length_append, hend, be32_length]
    omega
  have hread : u32At s.input (s.eng.pos + 8 + len.toNat) = stored := by
    rw [← hend, hinput]
    exact u32At_front (front ++ payload') stored behind
  have hslice : (s.input.drop (s.eng.pos + 8)).take len.toNat = payload' := by
    rw [hinput, hpos, List.append_assoc, List.append_assoc, List.drop_left, ← hlen', List.take_left]
  have hne : chunkCrc tag payload' ≠ stored := by
    rw [hstored, ← hflipped]
    exact chunkCrc_set_ne tag hv (xor_two_pow_ne_self v hj)
  have hraise (i : Instr) (hi : i = .cIhdr len ∧ tag = tagIhdr ∨ i = .cIdat len ∧ tag = tagIdat ∨
      i = .cIend len ∧ tag = tagIend ∨ i = .cOther len tag) :
      exec i s = .next (raise (.checksum tag len stored (chunkCrc tag payload')) s) := by
    obtain ⟨-, -, hchecksum⟩ := chunkRecordErrors s i len tag (by omega) hi
    exact hchecksum hfits stored _ hread.symm (by rw [hslice]; rfl) hne
  exact ⟨chunkCrc tag payload', hne, hraise _ (.inr (.inr (.inr rfl))), fun ht => hraise _ (.inr (.inl ⟨rfl, ht⟩)),
    fun ht => hraise _ (.inl ⟨rfl, ht⟩), fun ht => hraise _ (.inr (.inr (.inl ⟨rfl, ht⟩)))⟩

end Sys2Proof.Proofs
end

section
/-! `parse`: of a serialised list, of a longer stream, what it lists and what it raises (R128, R130, R135, R293). -/

namespace Sys2Proof.Machine

/-- R134: a serialised list begins with the signature. -/
theorem signatureOk_serialize (cs : List Chunk) : signatureOk (serialize cs) = true :=
  (signatureOk_iff _).2 ⟨by rw [serialize_length]; omega, rfl⟩

theorem parse_of_loop_ok {IN : Bytes} {list : List Chunk} (hs : signatureOk IN = true)
    (h : parseLoop IN IN.length 8 [] = .ok list) : parse IN = .ok (merge list) := by
  simp only [parse, if_pos hs, h]

/-- R130, R134: the record loop over serialised chunks, up to the IEND. -/
theorem parseLoop_serialized (final : Bytes) (hfinal : final.length < 2 ^ 32) :
    ∀ (parts : List (Tag × Bytes)) (front : Bytes) (fuel : Nat) (list : List Chunk),
      (∀ p ∈ parts, p.1 ≠ tagIend ∧ p.2.length < 2 ^ 32) → parts.length < fuel →
      parseLoop (front ++ (parts.map (fun p => mkChunk p.1 p.2) ++ [mkChunk tagIend final]).flatMap chunkBytes) fuel
        front.length list = .ok (list ++ (parts.map (fun p => mkChunk p.1 p.2) ++ [mkChunk tagIend final])) := by
  intro parts
  induction parts with
  | nil =>
    intro front fuel list _ hfuel
    obtain ⟨fuel, rfl⟩ : ∃ n, fuel = n + 1 := ⟨fuel - 1, by simp at hfuel; omega⟩
    obtain ⟨hhead, hframe, -⟩ := frame_chunkBytes front [] tagIend final hfinal
    rw [List.append_nil] at hhead hframe
    simp only [List.map_nil, List.nil_append, List.flatMap_singleton, parseLoop, hhead, hframe, if_true]
  | cons p parts ih =>
    intro front fuel list hparts hfuel
    obtain ⟨fuel, rfl⟩ : ∃ n, fuel = n + 1 := ⟨fuel - 1, by simp at hfuel; omega⟩
    obtain ⟨htag, hlen⟩ := hparts p List.mem_cons_self
    have hrest := ih (front ++ chunkBytes (mkChunk p.1 p.2)) fuel (list ++ [mkChunk p.1 p.2])
      (fun q hq => hparts q (List.mem_cons_of_mem p hq)) (by simpa using hfuel)
    obtain ⟨hhead, hframe, hnext⟩ := frame_chunkBytes front
      ((parts.map (fun p => mkChunk p.1 p.2) ++ [mkChunk tagIend final]).flatMap chunkBytes) p.1 p.2 hlen
    rw [List.map_cons, List.cons_append, List.flatMap_cons, ← List.append_assoc]
    simp only [parseLoop, hhead, hframe, if_neg htag, hnext, hrest]
    rw [List.append_assoc, List.singleton_append]

/-- R128: what `parse` reads ends at the first IEND. -/
theorem parse_append {J : Bytes} {cs : List Chunk} (behind : Bytes) (h : parse J = .ok cs) :
    parse (J ++ behind) = .ok cs := by
  obtain ⟨hs, list, hloop, rfl⟩ := parse_ok h
  obtain ⟨hlen, hsig⟩ := (signatureOk_iff J).1 hs
  have hle : J.length ≤ (J ++ behind).length := by simp
  refine parse_of_loop_ok ((signatureOk_iff _).2 ⟨hlen.trans hle, ?_⟩)
    (parseLoop_append behind J.length (J ++ behind).length 8 [] list hloop hle)
  rw [List.take_append_of_le_length hlen, hsig]

/-- R293: the causes `parse` can raise. -/
theorem parse_error {IN : Bytes} {e : Err} (h : parse IN = .error e) : e = .badSignature ∨ (∃ p, e = .missingIend p) ∨
    (∃ p, e = .truncated p) ∨ ∃ t l a b, e = .checksum t l a b := by
  simp only [parse] at h
  split at h
  case isTrue =>
    split at h
    case h_1 e' hloop => cases h; exact .inr (parseLoop_error IN _ _ _ e hloop)
    case h_2 => cases h
  case isFalse => cases h; exact .inl rfl

/-- R131: a chunk that is not IDAT, behind a list, does not take part in its merge. -/
theorem mergeCons_append_other (c : Chunk) (ds : List Chunk) {last : Chunk} (h : last.tag ≠ tagIdat) :
    mergeCons c (ds ++ [last]) = mergeCons c ds ++ [last] := by
  cases ds with
  | nil => exact if_neg fun hboth => h hboth.2
  | cons d ds =>
    simp only [List.cons_append, mergeCons]
    split <;> rfl

theorem merge_append_other (cs : List Chunk) {last : Chunk} (h : last.tag ≠ tagIdat) :
    merge (cs ++ [last]) = merge cs ++ [last] := by
  induction cs with
  | nil => rfl
  | cons c cs ih => rw [List.cons_append, merge, ih, mergeCons_append_other c _ h, merge]

/-- R131: the merge makes no tag of its own. -/
theorem exists_tag_eq_of_mem_merge {c : Chunk} {cs : List Chunk} (h : c ∈ merge cs) : ∃ d ∈ cs, c.tag = d.tag := by
  induction cs generalizing c with
  | nil => cases h
  | cons a cs ih =>
    rw [merge] at h
    rcases mergeCons_cases a (merge cs) with hcons | ⟨d, ds, hds, ha, -, hcons⟩
    · rcases List.mem_cons.1 (hcons ▸ h) with rfl | hc
      · exact ⟨c, List.mem_cons_self, rfl⟩
      · exact (ih hc).imp fun _ hd => ⟨List.mem_cons_of_mem a hd.1, hd.2⟩
    · rcases List.mem_cons.1 (hcons ▸ h) with rfl | hc
      · exact ⟨a, List.mem_cons_self, ha.symm⟩
      · exact (ih (hds ▸ List.mem_cons_of_mem d hc)).imp fun _ hd => ⟨List.mem_cons_of_mem a hd.1, hd.2⟩

end Sys2Proof.Machine

namespace Sys2Proof.Proofs
open Sys2Proof.Machine

/-- Settles O39: the record loop reads the serialised chunks back one by one, and there is fuel for each. -/
theorem parseInvertsSerialize : Obligations.ParseInvertsSerialize := by
  intro parts final hparts hfinal cs
  have hfuel : parts.length < (serialize cs).length := by
    rw [serialize_length, payload_sum, List.length_append, List.length_map]
    omega
  exact parse_of_loop_ok (signatureOk_serialize cs)
    (parseLoop_serialized final hfinal parts signatureBytes (serialize cs).length [] hparts hfuel)

/-- Settles O41: the record loop lists checked chunks and stops at its IEND, which the merge leaves behind the others. -/
theorem parsedChunksMeetTheInvariant : Obligations.ParsedChunksMeetTheInvariant := by
  intro IN cs h
  refine ⟨parse_chunksOk h, ?_⟩
  obtain ⟨-, list, hloop, rfl⟩ := parse_ok h
  obtain ⟨more, last, rfl, hlast, hmore, -⟩ := parseLoop_ok IN _ _ _ _ hloop
  refine ⟨merge more, last, merge_append_other more (by rw [hlast]; decide), hlast, fun c hc => ?_⟩
  obtain ⟨d, hd, htag⟩ := exists_tag_eq_of_mem_merge hc
  rw [htag]
  exact (hmore d hd).1

end Sys2Proof.Proofs
end

section
/-! The header codecs, the length of a packaged datastream, and the error record (R157, R235, R281 to R296). -/

namespace Sys2Proof.Machine

theorem encodeHeader_length (H : Header) : (encodeHeader H).length = 13 := rfl

/-- R157: a header read back. -/
theorem decodeHeader_encodeHeader (H : Header) : decodeHeader (encodeHeader H) = H := by
  have hwidth : u32At (encodeHeader H) 0 = H.width := by
    rw [encodeHeader, List.append_assoc]
    exact u32At_front [] H.width _
  have hheight : u32At (encodeHeader H) 4 = H.height := u32At_front (be32 H.width) H.height _
  rw [decodeHeader, hwidth, hheight]
  rfl

/-- R157: a 13-byte payload written back. -/
theorem encodeHeader_decodeHeader {P : Bytes} (h : P.length = 13) : encodeHeader (decodeHeader P) = P := by
  match P, h with
  | [w0, w1, w2, w3, h0, h1, h2, h3, depth, color, compression, filter, interlace], _ =>
    change be32 (u32be w0 w1 w2 w3) ++ be32 (u32be h0 h1 h2 h3) ++ [depth, color, compression, filter, interlace] = _
    rw [be32_u32be, be32_u32be]
    rfl

/-- R208, R285: the causes `reconstruct` can raise. -/
theorem reconstruct_error {F : Bytes} {height stride : Nat} {e : Err} (h : reconstruct F height stride = .error e) :
    ∃ r, e = .filteredStreamShort r ∨ ∃ t, e = .badFilterType r t := by
  obtain ⟨r, -, herr, -⟩ := reconRows_error F stride height 0 [] [] e h
  rcases herr with ⟨-, -, rfl⟩ | ⟨-, -, rfl⟩
  · exact ⟨0 + r, .inr ⟨_, rfl⟩⟩
  · exact ⟨0 + r, .inl rfl⟩

/-- R250: a command whose function raises nothing ends in DONE. -/
theorem runCommand_status_of_ok {c : Command} {f : Bytes → List FilterKind → Result} {s t : State}
    (h : runCommand c (fun IN ks => .ok (f IN ks)) s = .next t) : t.status = .done := by
  obtain ⟨IN, ks, -, ⟨e, he, -⟩ | ⟨r, -, -, -, rfl⟩⟩ := runCommand_cases h
  · cases he
  · rfl

end Sys2Proof.Machine

namespace Sys2Proof.Proofs
open Sys2Proof.Machine

/-- Settles O43: `be32` and `u32be` are inverse, and the five single bytes are copied. -/
theorem headerCodecsInvertEachOther : Obligations.HeaderCodecsInvertEachOther :=
  ⟨fun H => ⟨decodeHeader_encodeHeader H, encodeHeader_length H⟩, fun _ h => encodeHeader_decodeHeader h⟩

/-- Settles O46: the payloads of the IDAT chunks concatenate to `Z`. -/
theorem packagedStreamLength : Obligations.PackagedStreamLength := by
  intro width height maxIdat Z hmax
  have hpayloads : ((packageChunks width height maxIdat Z).flatMap (fun c => c.payload)).length = 13 + Z.length := by
    rw [packageChunks, List.flatMap_append, List.flatMap_append, splitIdat_payloads Z hmax]
    simp [mkChunk, encodeHeader_length]
  rw [serialize_length, payload_sum, hpayloads]
  simp only [packageChunks, List.length_append, List.length_singleton]
  omega

/-- Settles O47: `raise` sets each of these fields, or leaves it. -/
theorem raiseLeavesOnlyTheErrorRecord : Obligations.RaiseLeavesOnlyTheErrorRecord := by
  intro e s
  exact ⟨rfl, rfl, rfl, rfl, rfl, rfl, rfl, fun _ => ⟨rfl, rfl⟩, rfl, rfl, rfl, rfl, fun _ => rfl, rfl, rfl, rfl, rfl, rfl,
    rfl, rfl, rfl, rfl⟩

/-- Settles O48: the record of each cause is read off `errRegs`; a type byte is widened to the register. -/
theorem errorRegistersOfEachCause : Obligations.ErrorRegistersOfEachCause := by
  intro p r v t len a b k
  refine ⟨rfl, rfl, rfl, ?_, rfl, rfl, rfl, rfl, rfl, rfl⟩
  rw [BitVec.ofNat_toNat]
  rfl

/-- Settles O49: the functions of ENCODE, FILTER and SELECT raise nothing; PARSE raises what `parse` raises, RECON what
`reconstruct` raises. -/
theorem whichCommandRaisesWhat : Obligations.WhichCommandRaisesWhat := by
  intro s t
  refine ⟨?neverRaise, ?parse, ?recon⟩
  case neverRaise =>
    rintro (h | h | h)
    · exact runCommand_status_of_ok h
    · exact runCommand_status_of_ok h
    · exact runCommand_status_of_ok h
  case parse =>
    intro h hstatus
    obtain ⟨IN, ks, -, ⟨e, he, rfl⟩ | ⟨r, -, -, -, rfl⟩⟩ := runCommand_cases h
    · refine ⟨rfl, ?_⟩
      have hparse : parse IN = .error e := by
        cases hp : parse IN with
        | error e' => simpa only [parseStream, hp, Except.error.injEq] using he
        | ok cs => simp only [parseStream, hp, reduceCtorEq] at he
      rcases parse_error hparse with rfl | ⟨p, rfl⟩ | ⟨p, rfl⟩ | ⟨tag, len, a, b, rfl⟩
      · exact .inl ⟨rfl, .inl rfl⟩
      · exact .inl ⟨rfl, .inr (.inr rfl)⟩
      · exact .inl ⟨rfl, .inr (.inl rfl)⟩
      · exact .inr rfl
    · exact absurd rfl hstatus
  case recon =>
    intro h hstatus
    obtain ⟨IN, ks, -, ⟨e, he, rfl⟩ | ⟨r, -, -, -, rfl⟩⟩ := runCommand_cases h
    · refine ⟨rfl, ?_⟩
      have hrecon : reconstruct IN s.argHeight.toNat (strideOf s.argWidth) = .error e := by
        cases hp : reconstruct IN s.argHeight.toNat (strideOf s.argWidth) with
        | error e' => simpa only [reconImage, hp, Except.error.injEq] using he
        | ok p => simp only [reconImage, hp, reduceCtorEq] at he
      obtain ⟨row, rfl | ⟨type, rfl⟩⟩ := reconstruct_error hrecon
      · exact ⟨rfl, .inr rfl⟩
      · exact ⟨rfl, .inl rfl⟩
    · exact absurd rfl hstatus

end Sys2Proof.Proofs
end

section
/-! The host's reads and writes: the register reads by access class, what a stored byte changes in every space that shares
its storage, and the statements about both (R28, R36, R40, R70, R324). -/

namespace Sys2Proof.Machine

/-- R36: while the block is not owned, every register but `STATE` is read by its access class. -/
theorem hostRead_of_not_owned {r : Reg} {s : State} (hr : r ≠ .state) (h : owned s = false) : hostRead r s = readReg r s := by
  rw [hostRead, if_neg hr, if_neg (by simp [h])]

theorem hostWrite_of_not_owned {s : State} (h : owned s = false) (r : Reg) (v : Nat) : hostWrite r v s = writeReg r v s :=
  if_neg (by simp [h])

theorem readResult_always (v : Nat) (s : State) :
    readResult true v s = if s.status = .done then .next v else .fault .noValue := by
  simp only [readResult, and_true]

/-- R36: a read of an entry that is there, and of one that is not. -/
theorem valueOr_some {α : Type} {v : Option α} {x : α} (h : v = some x) : valueOr v = .next x := by
  rw [h, valueOr]

theorem valueOr_none {α : Type} {v : Option α} (h : v = none) : valueOr v = .fault .noValue := by
  rw [h, valueOr]

/-- R36: a read under a condition, by the value that stands there. -/
theorem ite_valueOr_eq_next {α : Type} {p : Prop} [Decidable p] {v : Option α} {x : α} (hp : p) (hv : v = some x) :
    (if p then valueOr v else .fault .noValue) = .next x := by
  rw [if_pos hp, valueOr_some hv]

theorem ite_valueOr_eq_fault {α : Type} {p : Prop} [Decidable p] {v : Option α} (h : ¬p ∨ v = none) :
    (if p then valueOr v else .fault .noValue) = .fault .noValue := by
  by_cases hp : p
  · rw [if_pos hp, valueOr_none (h.resolve_left (not_not.2 hp))]
  · rw [if_neg hp]

section
variable {s : State} (h : owned s = false)
include h

theorem hostReadOut_of_not_owned (o : Nat) :
    hostReadOut o s = if s.status = .done ∧ o < s.outLen then valueOr (s.out.read o) else .fault .noValue :=
  if_neg (by simp [h])

theorem hostReadKind_of_not_owned (i : Nat) :
    hostReadKind i s =
      if s.status = .done ∧ s.kindValid = true ∧ i < s.kindLen then valueOr (s.kind.read i) else .fault .noValue :=
  if_neg (by simp [h])

theorem hostReadChunk_of_not_owned (i : Nat) :
    hostReadChunk i s =
      if s.status = .done ∧ i < s.nChunks ∧ i ∉ s.chunksLost then valueOr s.chunks[i]? else .fault .noValue :=
  if_neg (by simp [h])

theorem hostReadIn_of_not_owned (o : Nat) :
    hostReadIn o s =
      if s.status = .error then .refused .inError
      else if o < s.inLen then valueOr (s.inp.read o) else .fault .noValue :=
  if_neg (by simp [h])

/-- R40, R70: all that a byte stored in `IN` changes. -/
theorem hostWriteIn_cases {o : Nat} (v : Byte) (hcap : insideCap s.caps.capIn o = true) :
    ∃ (k u : Memory) (d l : List Nat),
      hostWriteIn o v s = .next { s with inp := s.inp.write o v, kind := k, kindDiag := d, out := u, chunksLost := l } ∧
      (∀ a, k.read a = if sharedOffset s.regMap.storage.inCell s.regMap.storage.kindCell o = some a ∧
        insideCap s.caps.capKind a = true then some v else s.kind.read a) ∧
      (∀ a, a ∈ d ↔ a ∈ s.kindDiag ∧ ¬(sharedOffset s.regMap.storage.inCell s.regMap.storage.kindCell o = some a ∧
        insideCap s.caps.capKind a = true)) ∧
      (∀ a, u.read a = if sharedOffset s.regMap.storage.inCell s.regMap.storage.outCell o = some a ∧ a < s.outLen
        then some v else s.out.read a) ∧
      (∀ a, a ∈ l ↔ a ∈ s.chunksLost ∨
        sharedOffset s.regMap.storage.inCell s.regMap.storage.chunkCell o = some a ∧ a < s.nChunks) := by
  obtain ⟨k, d, hkind, hk, hd⟩ := echoKind_cases s.regMap.storage.inCell o v (storeIn o v s)
  obtain ⟨u, hout, hu⟩ := echoOut_cases s.regMap.storage.inCell o v (echoKind s.regMap.storage.inCell o v (storeIn o v s))
  obtain ⟨l, hchunks, hl⟩ := echoChunks_cases s.regMap.storage.inCell o
    (echoOut s.regMap.storage.inCell o v (echoKind s.regMap.storage.inCell o v (storeIn o v s)))
  rw [hkind] at hout hu
  rw [hkind, hout] at hchunks hl
  refine ⟨k, u, d, l, ?_, hk, hd, hu, hl⟩
  rw [hostWriteIn, if_neg (by simp [h]), if_pos hcap, hkind, hout, hchunks]
  rfl

/-- R38, R70: all that a code stored in `KIND` changes. -/
theorem hostWriteKind_cases {i : Nat} (v : Byte) (hcap : insideCap s.caps.capKind i = true) :
    ∃ (m u : Memory) (l : List Nat),
      hostWriteKind i v s = .next { s with
        inp := m, kind := s.kind.write i v, kindDiag := s.kindDiag.filter (fun j => decide (j ≠ i)), out := u
        chunksLost := l } ∧
      (∀ a, m.read a = if sharedOffset s.regMap.storage.kindCell s.regMap.storage.inCell i = some a ∧
        insideCap s.caps.capIn a = true then some v else s.inp.read a) ∧
      (∀ a, u.read a = if sharedOffset s.regMap.storage.kindCell s.regMap.storage.outCell i = some a ∧ a < s.outLen
        then some v else s.out.read a) ∧
      (∀ a, a ∈ l ↔ a ∈ s.chunksLost ∨
        sharedOffset s.regMap.storage.kindCell s.regMap.storage.chunkCell i = some a ∧ a < s.nChunks) := by
  obtain ⟨m, hin, hm⟩ := echoIn_cases s.regMap.storage.kindCell i v (storeKind i v s)
  obtain ⟨u, hout, hu⟩ := echoOut_cases s.regMap.storage.kindCell i v (echoIn s.regMap.storage.kindCell i v (storeKind i v s))
  obtain ⟨l, hchunks, hl⟩ := echoChunks_cases s.regMap.storage.kindCell i
    (echoOut s.regMap.storage.kindCell i v (echoIn s.regMap.storage.kindCell i v (storeKind i v s)))
  rw [hin] at hout hu
  rw [hin, hout] at hchunks hl
  refine ⟨m, u, l, ?_, hm, hu, hl⟩
  rw [hostWriteKind, if_neg (by simp [h]), if_pos hcap, hin, hout, hchunks]
  rfl

end

/-- R40: an offset at or beyond the capacity. -/
theorem insideCap_eq_false {c o : Nat} (h : c ≤ o) : insideCap (some c) o = false :=
  decide_eq_false (Nat.not_lt.2 h)

/-- R28: the read-only registers are those that are not listed as writable. -/
theorem writeReg_readOnly {r : Reg} (h : r ∉ [Reg.cmd, .argWidth, .argHeight, .argMaxIdat, .inLen, .kindLen]) (v : Nat)
    (s : State) : writeReg r v s = .refused .readOnly := by
  cases r with
  | cmd | argWidth | argHeight | argMaxIdat | inLen | kindLen => exact absurd (by decide) h
  | _ => rfl

/-- R29: the codes 1 to 6 are taken. -/
theorem writeCmd_of_command {v : Nat} (h1 : 1 ≤ v) (h6 : v ≤ 6) (s : State) :
    writeCmd v s = .next { s with cmd := some (BitVec.ofNat 8 v) } := by
  have hcode : (BitVec.ofNat 8 v).toNat = v := by rw [BitVec.toNat_ofNat]; omega
  obtain ⟨i, hi⟩ := Option.isSome_iff_exists.1 ((commandOfCode_isSome (BitVec.ofNat 8 v)).2 (by omega))
  rw [writeCmd, if_pos (by omega), hi]

/-- R106: the reserved codes are refused. -/
theorem writeCmd_of_reserved {v : Nat} (hv : v = 0 ∨ 7 ≤ v) (h : v < 2 ^ 8) (s : State) :
    writeCmd v s = .refused (.reservedCommand (BitVec.ofNat 8 v)) := by
  have hcode : (BitVec.ofNat 8 v).toNat = v := by rw [BitVec.toNat_ofNat]; omega
  rw [writeCmd, if_pos h, commandOfCode_eq_none (by rwa [hcode])]

end Sys2Proof.Machine

namespace Sys2Proof.Proofs
open Sys2Proof.Machine

/-- Settles O14: the registers by their access class; a byte stored is stored where it was written and echoed where its
storage is shared; each of these keeps the invariant. -/
theorem hostWritesSetTheirTargetAndKeepTheInvariant : Obligations.HostWritesSetTheirTargetAndKeepTheInvariant := by
  intro s g
  refine ⟨fun hown => ?owned, fun hown => ?notOwned, fun s' h => ?invariant⟩
  case owned => exact ⟨fun _ _ => if_pos hown, fun _ _ => ⟨if_pos hown, if_pos hown⟩⟩
  case notOwned =>
    simp only [hostWrite_of_not_owned hown]
    refine ⟨?args, ?wide, ?lengths, ?command, ?reserved, ?readOnly, ?inByte, ?kindEntry, ?beyond⟩
    case args => exact fun v hv => ⟨if_pos hv, if_pos hv, if_pos hv⟩
    case wide =>
      intro v hv r hr
      simp only [List.mem_cons, List.not_mem_nil, or_false] at hr
      rcases hr with rfl | rfl | rfl <;> exact if_neg (Nat.not_lt.2 hv)
    case lengths => exact fun v => ⟨rfl, rfl⟩
    case command => exact fun v h1 h6 => writeCmd_of_command h1 h6 s
    case reserved => exact fun v hv hlt => writeCmd_of_reserved hv hlt s
    case readOnly => exact fun r v hr => writeReg_readOnly hr v s
    case inByte =>
      intro o v hcap
      obtain ⟨k, u, d, l, hwrite, hk, hd, hu, hl⟩ := hostWriteIn_cases hown v ((insideCap_iff _ o).2 hcap)
      exact ⟨_, k, u, d, l, hwrite, fun _ => read_write v, hk, hd, hu, hl⟩
    case kindEntry =>
      intro i v hcap
      obtain ⟨m, u, l, hwrite, hm, hu, hl⟩ := hostWriteKind_cases hown v ((insideCap_iff _ i).2 hcap)
      exact ⟨m, _, u, _, l, hwrite, fun _ => read_write v, fun a => by simp, hm, hu, hl⟩
    case beyond =>
      intro o cap v hle
      refine ⟨fun hcap => ?_, fun hcap => ?_⟩
      · rw [hostWriteIn, if_neg (by simp [hown]), if_neg (by simp [hcap, insideCap_eq_false hle])]
      · rw [hostWriteKind, if_neg (by simp [hown]), if_neg (by simp [hcap, insideCap_eq_false hle])]
  case invariant =>
    exact ⟨fun _ _ => inv_hostWrite h, fun _ _ => inv_hostWriteIn h, fun _ _ => inv_hostWriteKind h,
      fun _ _ => inv_hostWriteAt h⟩

/-- Settles O15: each register by its access class, each buffer by its condition and what stands there, each address by
its place. -/
theorem hostReadsFollowTheAccessRights : Obligations.HostReadsFollowTheAccessRights := by
  intro s
  refine ⟨?state, fun hown => ?owned, fun hown => ?notOwned, fun a n => ?bus⟩
  case state =>
    rw [hostRead, if_pos rfl, shownStatus]
    split
    · rfl
    · cases s.status <;> rfl
  case owned =>
    exact ⟨fun r hr => by rw [hostRead, if_neg hr, if_pos hown],
      fun o => ⟨if_pos hown, if_pos hown, if_pos hown, if_pos hown⟩⟩
  case notOwned =>
    have hread {r : Reg} (hr : r ≠ .state) : hostRead r s = readReg r s := hostRead_of_not_owned hr hown
    simp only [List.forall_mem_cons, List.not_mem_nil, IsEmpty.forall_iff, implies_true, and_true]
    refine ⟨hread (by decide), ⟨hread (by decide), hread (by decide), hread (by decide), hread (by decide),
      hread (by decide), hread (by decide), hread (by decide)⟩, ⟨?_, ?_⟩, ⟨hread (by decide), hread (by decide),
      hread (by decide), hread (by decide), hread (by decide), hread (by decide)⟩, hread (by decide), hread (by decide),
      ⟨hread (by decide), hread (by decide), hread (by decide), hread (by decide), hread (by decide)⟩, fun o => ?_⟩
    · exact (hread (r := .outLen) (by decide)).trans (readResult_always s.outLen s)
    · exact (hread (r := .nChunks) (by decide)).trans (readResult_always s.nChunks s)
    simp only [hostReadIn_of_not_owned hown, hostReadOut_of_not_owned hown, hostReadKind_of_not_owned hown,
      hostReadChunk_of_not_owned hown]
    refine ⟨fun herr => if_pos herr, fun herr hnone => ?_, fun b herr ho hb => ?_, fun hnone => ite_valueOr_eq_fault ?_,
      fun b hdone ho hb => ite_valueOr_eq_next ⟨hdone, ho⟩ hb, fun hnone => ite_valueOr_eq_fault ?_,
      fun b hdone hvalid ho hb => ite_valueOr_eq_next ⟨hdone, hvalid, ho⟩ hb, fun hnone => ite_valueOr_eq_fault ?_,
      fun c hdone ho hlost hc => ite_valueOr_eq_next ⟨hdone, ho, hlost⟩ hc⟩
    · rw [if_neg herr, ite_valueOr_eq_fault (hnone.imp_left Nat.not_lt.2)]
    · rw [if_neg herr, ite_valueOr_eq_next ho hb]
    · rw [not_and_or, Nat.not_lt, or_assoc]
      exact hnone
    · rw [not_and_or, not_and_or, Nat.not_lt, Bool.not_eq_true, or_assoc, or_assoc]
      exact hnone
    · rw [not_and_or, not_and_or, Nat.not_lt, not_not, or_assoc, or_assoc]
      exact hnone
  case bus =>
    refine ⟨fun h => ?_, fun r h => hostReadAt_reg h, fun h => ?_, fun h => ?_, fun h => ?_, fun h => ?_⟩ <;>
      simp only [hostReadAt, h]

end Sys2Proof.Proofs
end

section
/-! What a command's writes leave in the spaces that share their storage, run by run, and the statement about buffers
(R67, R70, R329). -/

namespace Sys2Proof.Machine

/-- R70: no place of a third space shares storage with two runs that lie apart. -/
theorem covered_eq_false_of_apart {a b c : Option Nat} {n k j o : Nat} (h : overlap (a, n) (b, k) = false)
    (hs : sharedOffset b c j = some o) (hj : j < k) : covered a c n o = false := by
  rw [Bool.eq_false_iff]
  intro hcovered
  obtain ⟨i, hi, hio⟩ := (covered_iff a c n o).1 hcovered
  obtain ⟨y, z, rfl, rfl, hyz⟩ := (sharedOffset_eq_some_iff b c j o).1 hs
  obtain ⟨x, z', rfl, hz', hxz⟩ := (sharedOffset_eq_some_iff a (some z) i o).1 hio
  cases hz'
  have hmeet : overlap (some x, n) (some y, k) = true :=
    (overlap_iff _ _).2 ⟨i, j, hi, hj, (sharedOffset_eq_some_iff _ _ _ _).2 ⟨x, y, rfl, rfl, by omega⟩⟩
  rw [h] at hmeet
  cases hmeet

/-- R329: what `apart` says of each two of the five runs written. -/
theorem pairwise_runs_of_apart {g : Config.Storage} {w : Writes} {inLen kindLen : Nat} (h : apart g w inLen kindLen = true) :
    (w.runs g).Pairwise (fun p q => overlap p q = false) :=
  (disjoint_iff _).1 ((Bool.and_eq_true _ _).mp h).1

theorem read_spread_untaken {a b : Option Nat} {takes : Nat → Bool} {vs : List (Option Byte)} {m : Memory} {o : Nat}
    (h : takes o = false) : (spread a b takes 0 vs m).read o = m.read o := by
  rw [read_spread]
  cases sharedOffset b a o <;> simp [h]

/-- R70: a byte written, as the space that shares its cell holds it. -/
theorem read_spread_bytes {a b : Option Nat} {takes : Nat → Bool} {bs : Bytes} {m : Memory} {o j : Nat}
    (hs : sharedOffset a b j = some o) (ht : takes o = true) (hj : j < bs.length) :
    (spread a b takes 0 (bs.map some) m).read o = bs[j]? := by
  rw [read_spread_shared hs ht (by rwa [List.length_map]), List.getElem_map, List.getElem?_eq_getElem hj]

/-- R70: a place lost, where what is written is no byte. -/
theorem read_spread_lost {a b : Option Nat} {takes : Nat → Bool} {n : Nat} {m : Memory} {o j : Nat}
    (hs : sharedOffset a b j = some o) (ht : takes o = true) (hj : j < n) :
    (spread a b takes 0 (List.replicate n none) m).read o = none := by
  rw [read_spread_shared hs ht (by rwa [List.length_replicate]), List.getElem_replicate]

section
variable {g : Config.Storage} {w : Writes} {cap : Option Nat} {m : Memory} {o j : Nat}
  (hruns : (w.runs g).Pairwise (fun p q => overlap p q = false)) (hcap : insideCap cap o = true)
include hruns hcap

/-- R70: what `IN` holds where it shares the cell of a code of `KIND`, or of an entry that is no byte: no later run of
`spreadIn` covers the place again.  The bytes of `OUT` are its last run. -/
theorem read_spreadIn_kinds (hs : sharedOffset g.kindCell g.inCell j = some o) (hj : j < w.kinds.length) :
    (spreadIn g cap w m).read o = w.kinds[j]? := by
  simp only [Writes.runs, List.pairwise_cons, List.forall_mem_cons] at hruns
  obtain ⟨⟨houtKinds, -⟩, -⟩ := hruns
  rw [spreadIn, read_spread_other (by rw [List.length_map]; exact covered_eq_false_of_apart houtKinds hs hj)]
  exact read_spread_bytes hs hcap hj

theorem read_spreadIn_chunks (hs : sharedOffset g.chunkCell g.inCell j = some o) (hj : j < w.chunks) :
    (spreadIn g cap w m).read o = none := by
  simp only [Writes.runs, List.pairwise_cons, List.forall_mem_cons] at hruns
  obtain ⟨⟨-, houtChunks, -⟩, ⟨hkindsChunks, -⟩, -⟩ := hruns
  rw [spreadIn, read_spread_other (by rw [List.length_map]; exact covered_eq_false_of_apart houtChunks hs hj),
    read_spread_other (by rw [List.length_map]; exact covered_eq_false_of_apart hkindsChunks hs hj)]
  exact read_spread_lost hs hcap hj

theorem read_spreadIn_z (hs : sharedOffset g.zCell g.inCell j = some o) (hj : j < w.z) :
    (spreadIn g cap w m).read o = none := by
  simp only [Writes.runs, List.pairwise_cons, List.forall_mem_cons] at hruns
  obtain ⟨⟨-, -, houtZ, -⟩, ⟨-, hkindsZ, -⟩, ⟨hchunksZ, -⟩, -⟩ := hruns
  rw [spreadIn, read_spread_other (by rw [List.length_map]; exact covered_eq_false_of_apart houtZ hs hj),
    read_spread_other (by rw [List.length_map]; exact covered_eq_false_of_apart hkindsZ hs hj),
    read_spread_other (by rw [List.length_replicate]; exact covered_eq_false_of_apart hchunksZ hs hj)]
  exact read_spread_lost hs hcap hj

theorem read_spreadIn_f (hs : sharedOffset g.fCell g.inCell j = some o) (hj : j < w.f) :
    (spreadIn g cap w m).read o = none := by
  simp only [Writes.runs, List.pairwise_cons, List.forall_mem_cons] at hruns
  obtain ⟨⟨-, -, -, houtF, -⟩, ⟨-, -, hkindsF, -⟩, ⟨-, hchunksF, -⟩, ⟨hzF, -⟩, -⟩ := hruns
  rw [spreadIn, read_spread_other (by rw [List.length_map]; exact covered_eq_false_of_apart houtF hs hj),
    read_spread_other (by rw [List.length_map]; exact covered_eq_false_of_apart hkindsF hs hj),
    read_spread_other (by rw [List.length_replicate]; exact covered_eq_false_of_apart hchunksF hs hj),
    read_spread_other (by rw [List.length_replicate]; exact covered_eq_false_of_apart hzF hs hj)]
  exact read_spread_lost hs hcap hj

end

/-- R70: no byte of a run lies at an offset exactly where the run does not cover it. -/
theorem covered_eq_false_iff {a b : Option Nat} {n o : Nat} :
    covered a b n o = false ↔ ∀ j, j < n → sharedOffset a b j ≠ some o := by
  rw [← Bool.not_eq_true, covered_iff]
  simp only [not_exists, not_and, ne_eq]

/-- R70: an entry of `KIND` that holds a code and shares the cell of a byte of `OUT` holds that byte. -/
theorem spill_kind_read_shared {w : Writes} {s : State} {i j : Nat} (hheld : (s.kind.read i).isSome = true)
    (hs : sharedOffset s.regMap.storage.outCell s.regMap.storage.kindCell j = some i) (hj : j < w.out.length) :
    (spill w s).kind.read i = w.out[j]? :=
  read_spread_bytes hs hheld hj

/-- R70: and that is the only change of `KIND`. -/
theorem spill_kind_read_changed {w : Writes} {s : State} {i : Nat} (h : (spill w s).kind.read i ≠ s.kind.read i) :
    (s.kind.read i).isSome = true ∧
      ∃ j, j < w.out.length ∧ sharedOffset s.regMap.storage.outCell s.regMap.storage.kindCell j = some i ∧
        (spill w s).kind.read i = w.out[j]? := by
  by_cases hheld : (s.kind.read i).isSome = true
  case neg => exact absurd (read_spread_untaken (Bool.not_eq_true _ ▸ hheld)) h
  case pos =>
    by_cases hcovered : covered s.regMap.storage.outCell s.regMap.storage.kindCell w.out.length i = true
    case neg => exact absurd (spill_kind_read (Bool.not_eq_true _ ▸ hcovered)) h
    case pos =>
      obtain ⟨j, hj, hs⟩ := (covered_iff _ _ _ _).1 hcovered
      exact ⟨hheld, j, hj, hs, spill_kind_read_shared hheld hs hj⟩

theorem mem_kindDiag_spill (w : Writes) (s : State) (i : Nat) :
    i ∈ (spill w s).kindDiag ↔ i ∈ s.kindDiag ∧
      ∀ j, j < w.out.length → sharedOffset s.regMap.storage.outCell s.regMap.storage.kindCell j ≠ some i := by
  rw [← covered_eq_false_iff]
  simp [spill]

end Sys2Proof.Machine

namespace Sys2Proof.Proofs
open Sys2Proof.Machine

/-- Settles O16: the laws of a buffer, of the operand and of shared cells; a run that a command writes shows in `IN` and
`KIND` where no other of its runs lies, since they lie apart. -/
theorem bufferReadsAfterAWrite : Obligations.BufferReadsAfterAWrite := by
  refine ⟨?write, ?ext, ?operand, sharedOffset_eq_some_iff, overlap_iff, ?spilled⟩
  case write => exact fun m o a v h => ⟨write_wf o v h, read_write v⟩
  case ext => exact fun m n hm hn h => read_ext_above hm hn h
  case operand =>
    intro s
    refine ⟨input_length s, fun o v ho hv => ?_⟩
    rw [input_getElem?, if_pos ho, State.inByte, hv, Option.getD_some]
  case spilled =>
    intro w s kindLen hapart t g
    have hruns := pairwise_runs_of_apart hapart
    refine ⟨rfl, fun o ho => read_spreadIn_operand hapart ho, fun o ho j => ⟨fun hs hj => read_spread_bytes hs ho hj,
      read_spreadIn_kinds hruns ho, ?lost⟩, fun o hnone => ?other, fun i hi => ?entries, fun i => spill_kind_read_changed,
      fun i j => spill_kind_read_shared, fun i => mem_kindDiag_spill w s i⟩
    case lost =>
      rintro (⟨hs, hj⟩ | ⟨hs, hj⟩ | ⟨hs, hj⟩)
      · exact read_spreadIn_chunks hruns ho hs hj
      · exact read_spreadIn_z hruns ho hs hj
      · exact read_spreadIn_f hruns ho hs hj
    case other => exact read_spreadIn_other fun p hp => covered_eq_false_iff.2 (hnone p hp)
    case entries =>
      exact spill_kind_read (covered_apart (apart_read hapart (g.outCell, w.out.length) List.mem_cons_self).2 hi)

end Sys2Proof.Proofs
end

section
/-! The commands: the function each one computes, when it starts, what its two ends are, and the statements about every one
of them (R43, R250, R257, R329). -/

namespace Sys2Proof.Machine

/-- R250: the function of each command; `exec_eq_runCommand` ties it to the dispatch. -/
def commandFunction (c : Command) (s : State) : Bytes → List FilterKind → Except Err Result :=
  match c with
  | .decode => fun IN _ => decodeStream s.collab IN
  | .encode => fun raw _ => .ok (encodeImage s.collab raw s.argWidth s.argHeight s.argMaxIdat)
  | .parse => fun IN _ => parseStream IN
  | .recon => fun F _ => reconImage F s.argWidth s.argHeight
  | .filter => fun raw ks => .ok (filterResult (filterStream raw ks (strideOf s.argWidth)))
  | .select => fun raw _ => .ok (selectResult (selectKinds raw s.argWidth s.argHeight))

theorem exec_eq_runCommand (c : Command) (s : State) :
    exec (commandInstr c) s = runCommand c (commandFunction c s) s := by
  cases c <;> rfl

/-- R43: the function depends on the arguments and the collaborator. -/
theorem commandFunction_congr {s t : State} (c : Command) (hwidth : s.argWidth = t.argWidth)
    (hheight : s.argHeight = t.argHeight) (hmax : s.argMaxIdat = t.argMaxIdat) (hcollab : s.collab = t.collab) :
    commandFunction c s = commandFunction c t := by
  simp only [commandFunction, hwidth, hheight, hmax, hcollab]

section
variable {c : Command} {s : State} {IN : Bytes} {ks : List FilterKind} {r : Result}

/-- R38, R60: FILTER leaves `KIND`, every other command replaces it. -/
theorem kinds_of_commandFunction (h : commandFunction c s IN ks = .ok r) : r.kinds = none ↔ c = .filter := by
  cases c with
  | decode =>
    obtain ⟨cs, H, Z, F, out, kinds, -, -, -, -, rfl⟩ := decodeStream_eq_ok h
    exact ⟨fun hnone => (nomatch hnone), fun hc => (nomatch hc)⟩
  | parse =>
    obtain ⟨cs, -, rfl⟩ := parseStream_eq_ok h
    exact ⟨fun hnone => (nomatch hnone), fun hc => (nomatch hc)⟩
  | recon =>
    obtain ⟨out, kinds, -, rfl⟩ := reconImage_eq_ok h
    exact ⟨fun hnone => (nomatch hnone), fun hc => (nomatch hc)⟩
  | filter => cases h; exact ⟨fun _ => rfl, fun _ => rfl⟩
  | encode => cases h; exact ⟨fun hnone => (nomatch hnone), fun hc => (nomatch hc)⟩
  | select => cases h; exact ⟨fun hnone => (nomatch hnone), fun hc => (nomatch hc)⟩

theorem exists_kinds_of_commandFunction (h : commandFunction c s IN ks = .ok r) (hc : c ≠ .filter) :
    ∃ ls, r.kinds = some ls :=
  Option.ne_none_iff_exists'.1 fun hnone => hc ((kinds_of_commandFunction h).1 hnone)

theorem exec_of_error {e : Err} (ho : operands c s = .next (IN, ks)) (h : commandFunction c s IN ks = .error e) :
    exec (commandInstr c) s = .next (raise e s) := by
  rw [exec_eq_runCommand, runCommand_error ho h]

theorem exec_of_ok (ho : operands c s = .next (IN, ks)) (h : commandFunction c s IN ks = .ok r) :
    exec (commandInstr c) s = finish r s := by
  rw [exec_eq_runCommand, runCommand_ok ho h]

end

/-- R250: what a command that answers has done, with the operands it had. -/
theorem exec_command_ends {c : Command} {s t : State} (h : exec (commandInstr c) s = .next t) :
    ∃ ks, s.status ≠ .busy ∧ precondition c s = true ∧ kindOperand c s = .next ks ∧
      ((∃ e, commandFunction c s s.input ks = .error e ∧ t = raise e s) ∨
        ∃ r, commandFunction c s s.input ks = .ok r ∧ fits s.caps r = true ∧
          apart s.regMap.storage r.writes s.inLen (r.kindRead s) = true ∧ t = spill r.writes (commit r s)) := by
  rw [exec_eq_runCommand] at h
  obtain ⟨IN, ks, ho, hend⟩ := runCommand_cases h
  obtain ⟨hidle, hpre, rfl, hks⟩ := (operands_next_iff c s IN ks).1 ho
  exact ⟨ks, hidle, hpre, hks, hend⟩

/-- R29, R68: no command starts while one runs. -/
theorem exec_of_busy {s : State} (h : s.status = .busy) (c : Command) : exec (commandInstr c) s = .refused .busy := by
  have ho : operands c s = .refused .busy := if_pos h
  simp only [exec_eq_runCommand, runCommand, ho]

/-- R257: a precondition violated. -/
theorem exec_of_precondition_false {c : Command} {s : State} (hidle : s.status ≠ .busy) (h : ¬precondition c s = true) :
    exec (commandInstr c) s = .refused .precondition := by
  have ho : operands c s = .refused .precondition := by rw [operands, if_neg hidle, if_neg h]
  simp only [exec_eq_runCommand, runCommand, ho]

/-- R38, R305: the operand of FILTER: no entry is a diagnostic, all hold codes, and these are the kinds. -/
theorem kindOperand_filter_iff (s : State) (ks : List FilterKind) : kindOperand .filter s = .next ks ↔
    (∀ i ∈ s.kindDiag, s.kindLen ≤ i) ∧ ∃ ts, s.kind.bytes 0 s.kindLen = some ts ∧ kindsOfCodes ts = some ks := by
  have hinput (ts : Bytes) := kindInput_eq_some_iff s ts
  simp only [kindOperand, if_true]
  constructor
  · intro h
    split at h
    case h_1 => cases h
    case h_2 ts hts =>
      split at h
      case h_1 => cases h
      case h_2 ls hls =>
        cases h
        obtain ⟨hdiag, hbytes⟩ := (hinput ts).1 hts
        exact ⟨hdiag, ts, hbytes, hls⟩
  · rintro ⟨hdiag, ts, hbytes, hls⟩
    simp only [(hinput ts).2 ⟨hdiag, hbytes⟩, hls]

/-- R38, R255: the kinds that stand in `KIND` are the operand of FILTER. -/
theorem kindOperand_filter_of_read {s : State} {ks : List FilterKind} (hlen : ks.length = s.kindLen)
    (hdiag : ∀ i ∈ s.kindDiag, s.kindLen ≤ i) (h : ∀ i f, ks[i]? = some f → s.kind.read i = some f.code) :
    kindOperand .filter s = .next ks := by
  refine (kindOperand_filter_iff s ks).2 ⟨hdiag, kindCodes ks, (bytes_eq_some_iff _ _ _ _).2 ⟨?_, fun k hk => ?_⟩,
    kindsOfCodes_codes ks⟩
  · rw [kindCodes, List.length_map, hlen]
  · have hk' : k < ks.length := hk.trans_eq hlen.symm
    rw [Nat.zero_add, h k ks[k] (List.getElem?_eq_getElem hk'), kindCodes, List.getElem?_map,
      List.getElem?_eq_getElem hk', Option.map_some]

/-- R43: two states that hold the same entries of `KIND` give FILTER the same operand, if any. -/
theorem kindOperand_congr {c : Command} {s t : State} {ks ls : List FilterKind}
    (h : c = .filter → s.kindLen = t.kindLen ∧ ∀ o, s.kind.read o = t.kind.read o)
    (hs : kindOperand c s = .next ks) (ht : kindOperand c t = .next ls) : ks = ls := by
  by_cases hc : c = .filter
  case neg => rw [eq_nil_of_kindOperand hc hs, eq_nil_of_kindOperand hc ht]
  case pos =>
    subst hc
    obtain ⟨hlen, hread⟩ := h rfl
    obtain ⟨-, ts, hts, hks⟩ := (kindOperand_filter_iff s ks).1 hs
    obtain ⟨-, us, hus, hls⟩ := (kindOperand_filter_iff t ls).1 ht
    rw [memory_bytes_congr fun o _ => hread o, hlen, hus] at hts
    cases hts
    exact Option.some.inj (hks.symm.trans hls)

/-- R43: what is left in `KIND` depends on what stood there and on what was written. -/
theorem spill_kind_read_congr {s t : State} (w : Writes) (hmap : s.regMap = t.regMap)
    (hkind : ∀ o, s.kind.read o = t.kind.read o) (o : Nat) : (spill w s).kind.read o = (spill w t).kind.read o := by
  simp only [spill, read_spread, hmap, hkind]

/-- R40: what it says that a result fits. -/
theorem fits_iff (caps : Config.Capacities) (r : Result) : fits caps r = true ↔
    fitsCap caps.capOut r.out.length = true ∧ fitsCap caps.capChunks r.chunks.length = true ∧
      ∀ ks, r.kinds = some ks → fitsCap caps.capKind ks.length = true := by
  cases hkinds : r.kinds <;> simp [fits, hkinds, and_assoc]

theorem fits_unbounded (r : Result) : fits ⟨none, none, none, none⟩ r = true :=
  (fits_iff _ r).2 ⟨rfl, rfl, fun _ _ => rfl⟩

theorem fitsCap_eq_false {c n : Nat} (h : c < n) : fitsCap (some c) n = false :=
  decide_eq_false (Nat.not_le.2 h)

/-- R257: a buffer read beyond its capacity violates the precondition of every command. -/
theorem capIn_of_precondition {c : Command} {s : State} (h : precondition c s = true) :
    fitsCap s.caps.capIn s.inLen = true :=
  ((Bool.and_eq_true _ _).mp h).1

end Sys2Proof.Machine

namespace Sys2Proof.Proofs
open Sys2Proof.Machine

/-- Settles O57: the operands agree, so the functions answer alike, and what an end writes comes from the answer. -/
theorem commandsDependOnTheirArgumentsAlone : Obligations.CommandsDependOnTheirArgumentsAlone := by
  intro c s t s' t' _ _ hwidth hheight hmax hinput hkind _ hcollab hmap hs ht
  obtain ⟨ks, -, -, hks, hsend⟩ := exec_command_ends hs
  obtain ⟨ls, -, -, hls, htend⟩ := exec_command_ends ht
  have hkl : ks = ls := kindOperand_congr hkind hks hls
  subst hkl
  rw [← hinput, ← commandFunction_congr c hwidth hheight hmax hcollab] at htend
  rcases hsend with ⟨e, he, rfl⟩ | ⟨r, hr, -, -, rfl⟩ <;> rcases htend with ⟨e', he', rfl⟩ | ⟨r', hr', -, -, rfl⟩
  case inl.inl =>
    obtain rfl : e = e' := Except.error.inj (he.symm.trans he')
    exact ⟨rfl, rfl, rfl, fun _ => rfl, rfl, fun _ => rfl, rfl, rfl, rfl, rfl, rfl, rfl, fun _ => rfl, rfl⟩
  case inl.inr => exact nomatch he.symm.trans hr'
  case inr.inl => exact nomatch hr.symm.trans he'
  case inr.inr =>
    obtain rfl : r = r' := Except.ok.inj (hr.symm.trans hr')
    have hparts : (commit r s).kindLen = (commit r t).kindLen ∧
        (∀ o, (commit r s).kind.read o = (commit r t).kind.read o) ∧
        (c ≠ .filter → (commit r s).kindDiag = (commit r t).kindDiag) := by
      cases hkinds : r.kinds with
      | none =>
        obtain ⟨hlen, hread⟩ := hkind ((kinds_of_commandFunction hr).1 hkinds)
        rw [commit_kindLen_none hkinds, commit_kindLen_none hkinds, commit_kind_none hkinds, commit_kind_none hkinds]
        exact ⟨hlen, hread, fun hc => absurd ((kinds_of_commandFunction hr).1 hkinds) hc⟩
      | some ls =>
        simp only [commit_kindLen_some hkinds, commit_kind_some hkinds, commit_kindDiag_some hkinds, implies_true, and_self]
    obtain ⟨hlen, hread, hdiag⟩ := hparts
    refine ⟨rfl, rfl, rfl, fun _ => rfl, hlen, spill_kind_read_congr r.writes hmap hread, rfl, rfl, rfl, rfl, rfl, rfl,
      fun hc => ?_, rfl⟩
    simp only [spill, hdiag hc, commit_regMap, hmap]

end Sys2Proof.Proofs
end

section
/-! When a command is refused: its arguments, the capacity of a buffer, the storage it would write; and the statement about
it (R257, R329). -/

namespace Sys2Proof.Machine

/-- R44: a buffer whose first `n` offsets hold values reads as a string. -/
theorem exists_bytes_of_isSome {m : Memory} {n : Nat} (h : ∀ i, i < n → (m.read i).isSome = true) :
    ∃ ts, m.bytes 0 n = some ts := by
  refine ⟨(List.range n).map (fun i => (m.read i).getD 0), (bytes_eq_some_iff _ _ _ _).2 ⟨by simp, fun k hk => ?_⟩⟩
  obtain ⟨b, hb⟩ := Option.isSome_iff_exists.1 (h k hk)
  simp [hk, hb]

/-- R257: one illegal code is enough. -/
theorem kindsOfCodes_eq_none {ts : Bytes} {t : Byte} (hmem : t ∈ ts) (ht : kindOfCode t = none) : kindsOfCodes ts = none := by
  induction ts with
  | nil => cases hmem
  | cons u ts ih =>
    rw [kindsOfCodes]
    rcases List.mem_cons.1 hmem with rfl | hmem
    · rw [ht]
    · rw [ih hmem]
      cases kindOfCode u <;> rfl

/-- R257: an entry of `KIND` above 4. -/
theorem exec_filter_of_illegal_kind {s : State} {k : Nat} {t : Byte} (hidle : s.status ≠ .busy)
    (hheld : ∀ i, i < s.kindLen → (s.kind.read i).isSome = true) (hdiag : ∀ i ∈ s.kindDiag, s.kindLen ≤ i)
    (hk : k < s.kindLen) (ht : s.kind.read k = some t) (hillegal : 4 < t.toNat) :
    exec .cmdFilter s = .refused .precondition := by
  by_cases hpre : precondition .filter s = true
  case neg => exact exec_of_precondition_false (c := .filter) hidle hpre
  case pos =>
    obtain ⟨ts, hts⟩ := exists_bytes_of_isSome hheld
    have htk : ts[k]? = some t := by
      rw [← ((bytes_eq_some_iff _ _ _ _).1 hts).2 k hk, Nat.zero_add, ht]
    have hnone : kindsOfCodes ts = none := kindsOfCodes_eq_none (List.mem_of_getElem? htk) (kindOfCode_eq_none hillegal)
    have hkind : kindOperand .filter s = .refused .precondition := by
      simp only [kindOperand, if_true, (kindInput_eq_some_iff s ts).2 ⟨hdiag, hts⟩, hnone]
    have ho : operands .filter s = .refused .precondition := by
      simp only [operands, if_neg hidle, if_pos hpre, hkind]
    exact (exec_eq_runCommand .filter s).trans (by simp only [runCommand, ho])

/-- R70: an empty run shares nothing. -/
theorem overlap_nil (p : Option Nat × Nat) (b : Option Nat) : overlap p (b, 0) = false := by
  rw [Bool.eq_false_iff]
  intro h
  obtain ⟨j, k, -, hk, -⟩ := (overlap_iff p (b, 0)).1 h
  exact absurd hk (Nat.not_lt_zero k)

/-- R329: two runs of host-visible places of one command share storage: of the results, or of a result and the operand. -/
def Aliases (g : Config.Storage) (c : Command) (inLen outLen kindLen nChunks : Nat) : Prop :=
  overlap (g.outCell, outLen) (g.inCell, inLen) = true ∨
  overlap (g.chunkCell, nChunks) (g.inCell, inLen) = true ∨
  c ≠ .filter ∧ overlap (g.kindCell, kindLen) (g.inCell, inLen) = true ∨
  overlap (g.outCell, outLen) (g.kindCell, kindLen) = true ∨
  overlap (g.outCell, outLen) (g.chunkCell, nChunks) = true ∨
  overlap (g.kindCell, kindLen) (g.chunkCell, nChunks) = true

/-- R329: a command whose writes lie apart aliases nothing.  The entries of `KIND` are a run that it writes, or in FILTER,
which lists no chunk, one that it reads. -/
theorem not_aliases_of_apart {c : Command} {s t : State} {ks : List FilterKind} {r : Result}
    (hr : commandFunction c s s.input ks = .ok r)
    (h : apart s.regMap.storage r.writes s.inLen (r.kindRead t) = true) :
    ¬Aliases s.regMap.storage c s.inLen r.out.length (commit r t).kindLen r.chunks.length := by
  have hread := apart_read h
  have hruns := pairwise_runs_of_apart h
  simp only [Writes.runs, List.forall_mem_cons, List.pairwise_cons] at hread hruns
  obtain ⟨⟨houtIn, houtKindRead⟩, ⟨hkindsIn, -⟩, ⟨hchunksIn, -⟩, -⟩ := hread
  obtain ⟨⟨houtKinds, houtChunks, -⟩, ⟨hkindsChunks, -⟩, -⟩ := hruns
  have hkindIn : c ≠ .filter → overlap (s.regMap.storage.kindCell, (commit r t).kindLen) (s.regMap.storage.inCell, s.inLen) =
      false := by
    intro hc
    obtain ⟨ls, hls⟩ := exists_kinds_of_commandFunction hr hc
    rw [commit_kindLen_some hls]
    simpa only [Result.writes, hls, kindCodes, List.length_map] using hkindsIn
  have hkindOut : overlap (s.regMap.storage.outCell, r.out.length) (s.regMap.storage.kindCell, (commit r t).kindLen) =
      false := by
    cases hls : r.kinds with
    | none =>
      rw [commit_kindLen_none hls]
      simpa only [Result.writes, Result.kindRead, hls] using houtKindRead
    | some ls =>
      rw [commit_kindLen_some hls]
      simpa only [Result.writes, hls, kindCodes, List.length_map] using houtKinds
  have hkindChunks : overlap (s.regMap.storage.kindCell, (commit r t).kindLen)
      (s.regMap.storage.chunkCell, r.chunks.length) = false := by
    cases hls : r.kinds with
    | none =>
      obtain rfl := (kinds_of_commandFunction hr).1 hls
      cases hr
      exact overlap_nil _ _
    | some ls =>
      rw [commit_kindLen_some hls]
      simpa only [Result.writes, hls, kindCodes, List.length_map] using hkindsChunks
  rintro (hal | hal | ⟨hc, hal⟩ | hal | hal | hal)
  · exact Bool.false_ne_true (houtIn.symm.trans hal)
  · exact Bool.false_ne_true (hchunksIn.symm.trans hal)
  · exact Bool.false_ne_true ((hkindIn hc).symm.trans hal)
  · exact Bool.false_ne_true (hkindOut.symm.trans hal)
  · exact Bool.false_ne_true (houtChunks.symm.trans hal)
  · exact Bool.false_ne_true (hkindChunks.symm.trans hal)

/-- R257: a command that ends in DONE computed a result. -/
theorem exec_command_done {c : Command} {s t : State} (h : exec (commandInstr c) s = .next t) (hdone : t.status = .done) :
    ∃ ks r, operands c s = .next (s.input, ks) ∧ commandFunction c s s.input ks = .ok r ∧ fits s.caps r = true ∧
      apart s.regMap.storage r.writes s.inLen (r.kindRead s) = true ∧ t = spill r.writes (commit r s) := by
  obtain ⟨ks, hidle, hpre, hks, ⟨e, -, rfl⟩ | ⟨r, hr, hfits, hapart, rfl⟩⟩ := exec_command_ends h
  · cases hdone
  · exact ⟨ks, r, (operands_next_iff c s _ _).2 ⟨hidle, hpre, rfl, hks⟩, hr, hfits, hapart, rfl⟩

end Sys2Proof.Machine

namespace Sys2Proof.Proofs
open Sys2Proof.Machine

/-- Settles O56: a violated precondition stops the start; capacities and storage of the results are tested on the result,
which does not depend on either. -/
theorem commandsStartedWronglyAreRefused : Obligations.CommandsStartedWronglyAreRefused := by
  intro s
  refine ⟨exec_of_busy, fun hidle => ?_⟩
  have hrefused (c : Command) (hpre : ¬precondition c s = true) : exec (commandInstr c) s = .refused .precondition :=
    exec_of_precondition_false hidle hpre
  refine ⟨?capIn, ?capKind, ?dims, ?raw, ?maxIdat, ?kindLen, fun k t hheld hdiag =>
    exec_filter_of_illegal_kind hidle hheld hdiag, ?capacity, ?fitting, ?aliased, ?apart⟩
  case capIn =>
    intro c cap hcap hlt
    refine hrefused c fun hpre => ?_
    have hfits := capIn_of_precondition hpre
    rw [hcap, fitsCap_eq_false hlt] at hfits
    cases hfits
  case capKind =>
    intro cap hcap hlt
    refine hrefused .filter fun hpre => ?_
    obtain ⟨-, -, -, hfits, -⟩ := (precondition_filter_iff s).1 hpre
    rw [hcap, fitsCap_eq_false hlt] at hfits
    cases hfits
  case dims =>
    intro hzero
    have hdims (c : Command) (hd : c ≠ .decode) (hp : c ≠ .parse) : exec (commandInstr c) s = .refused .precondition := by
      refine hrefused c fun hpre => ?_
      obtain ⟨hwidth, hheight⟩ := precondition_dims hpre hd hp
      exact hzero.elim hwidth hheight
    exact ⟨hdims .recon (by decide) (by decide), hdims .encode (by decide) (by decide), hdims .filter (by decide) (by decide),
      hdims .select (by decide) (by decide)⟩
  case raw =>
    intro hraw
    refine ⟨hrefused .encode fun hpre => ?_, hrefused .filter fun hpre => ?_, hrefused .select fun hpre => ?_⟩
    · obtain ⟨-, -, hinLen, -⟩ := (precondition_encode_iff s).1 hpre
      exact hraw hinLen
    · obtain ⟨-, -, hinLen, -⟩ := (precondition_filter_iff s).1 hpre
      exact hraw hinLen
    · obtain ⟨-, -, hinLen⟩ := (precondition_select_iff s).1 hpre
      exact hraw hinLen
  case maxIdat =>
    intro hmax
    refine hrefused .encode fun hpre => ?_
    obtain ⟨-, -, -, hpos⟩ := (precondition_encode_iff s).1 hpre
    exact ne_zero_of_pos hpos hmax
  case kindLen =>
    intro hlen
    refine hrefused .filter fun hpre => ?_
    obtain ⟨-, -, -, -, hkindLen⟩ := (precondition_filter_iff s).1 hpre
    exact hlen hkindLen
  case capacity =>
    intro c t h hdone hkind hbeyond
    obtain ⟨ks, r, ho, hr, -, -, rfl⟩ := exec_command_done h hdone
    refine (exec_of_ok (operands_lift ho hkind) hr).trans (finish_refused ?_)
    rw [Bool.eq_false_iff]
    intro hfits
    obtain ⟨hout, hchunks, hkinds⟩ := (fits_iff s.caps r).1 hfits
    rcases hbeyond with hb | hb | ⟨hc, hb⟩
    · exact Bool.false_ne_true (hb.symm.trans hout)
    · exact Bool.false_ne_true (hb.symm.trans hchunks)
    · obtain ⟨ls, hls⟩ := exists_kinds_of_commandFunction hr hc
      rw [spill_kindLen, commit_kindLen_some hls] at hb
      exact Bool.false_ne_true (hb.symm.trans (hkinds ls hls))
  case fitting =>
    intro c t h hdone
    obtain ⟨ks, r, -, hr, hfits, -, rfl⟩ := exec_command_done h hdone
    obtain ⟨hout, hchunks, hkinds⟩ := (fits_iff s.caps r).1 hfits
    refine ⟨hout, hchunks, fun hc => ?_⟩
    obtain ⟨ls, hls⟩ := exists_kinds_of_commandFunction hr hc
    rw [spill_kindLen, commit_kindLen_some hls]
    exact hkinds ls hls
  case aliased =>
    intro c t h hdone haliases
    obtain ⟨ks, r, ho, hr, hfits, -, rfl⟩ := exec_command_done h hdone
    refine (exec_of_ok (s := s) ho hr).trans (finish_aliased hfits ?_)
    rw [Bool.eq_false_iff]
    exact fun hapart => not_aliases_of_apart (s := s) hr hapart haliases
  case apart =>
    intro c t h hdone
    obtain ⟨ks, r, -, hr, -, hapart, rfl⟩ := exec_command_done h hdone
    exact not_aliases_of_apart hr hapart

end Sys2Proof.Proofs
end

section
/-! A command that reads its operand only in part: what stands behind does not change its end (R128, R209; log entries 6
and 25). -/

namespace Sys2Proof.Machine

/-- R250, R329: a command other than FILTER whose function answers the same on another operand ends alike on it, where that
operand does not come to lie in storage the command writes. -/
theorem exec_of_other_operand {c : Command} {s t : State} {m : Memory} {n : Nat} (hc : c ≠ .filter)
    (hpre : precondition c { s with inp := m, inLen := n } = true)
    (hfun : commandFunction c s ({ s with inp := m, inLen := n } : State).input [] = commandFunction c s s.input [])
    (hapart : ∀ w : Writes, apart s.regMap.storage w s.inLen 0 = true → apart s.regMap.storage w n 0 = true)
    (h : exec (commandInstr c) s = .next t) :
    ∃ (m' : Memory) (p : Nat), (∀ o, o < n → m'.read o = m.read o) ∧
      exec (commandInstr c) { s with inp := m, inLen := n } = .next { t with inp := m', inLen := n, powerUp := p } := by
  obtain ⟨ks, hidle, -, hks, hend⟩ := exec_command_ends h
  obtain rfl := eq_nil_of_kindOperand hc hks
  have ho := operands_of_precondition (s := { s with inp := m, inLen := n }) hidle hc hpre
  rw [← hfun, commandFunction_congr (s := s) (t := { s with inp := m, inLen := n }) c rfl rfl rfl rfl] at hend
  rcases hend with ⟨e, he, rfl⟩ | ⟨r, hr, hfits, ha, rfl⟩
  case inl => exact ⟨m, s.powerUp, fun _ _ => rfl, exec_of_error ho he⟩
  case inr =>
    obtain ⟨ls, hls⟩ := exists_kinds_of_commandFunction hr hc
    have hread (u : State) : r.kindRead u = 0 := by rw [Result.kindRead, hls]
    rw [hread] at ha
    have ha' : apart s.regMap.storage r.writes n (r.kindRead { s with inp := m, inLen := n }) = true := by
      rw [hread]
      exact hapart _ ha
    exact ⟨spreadIn s.regMap.storage s.caps.capIn r.writes m, _, fun o hlt => read_spreadIn_operand ha' hlt,
      (exec_of_ok ho hr).trans (finish_fits hfits ha')⟩

/-- R128: PARSE and DECODE use their operand through `parse` alone. -/
theorem commandFunction_congr_parse {c : Command} {s : State} {IN IN' : Bytes} {ks : List FilterKind}
    (hc : c = .parse ∨ c = .decode) (h : parse IN = parse IN') : commandFunction c s IN ks = commandFunction c s IN' ks := by
  rcases hc with rfl | rfl
  · simp only [commandFunction, parseStream, h]
  · simp only [commandFunction, decodeStream, h]

/-- R209: RECON uses its operand through `reconstruct` alone. -/
theorem commandFunction_congr_reconstruct {s : State} {F F' : Bytes} {ks : List FilterKind}
    (h : reconstruct F s.argHeight.toNat (strideOf s.argWidth) = reconstruct F' s.argHeight.toNat (strideOf s.argWidth)) :
    commandFunction .recon s F ks = commandFunction .recon s F' ks := by
  simp only [commandFunction, reconImage, h]

/-- R128: a stream in `IN` parses to the list of the part that ends in its first IEND. -/
theorem parse_input_of_read {s : State} {J : Bytes} {cs : List Chunk} (h : parse J = .ok cs) (hlen : J.length ≤ s.inLen)
    (hread : ∀ o, o < J.length → s.inp.read o = J[o]?) : parse s.input = .ok cs := by
  rw [input_eq_append hlen hread]
  exact parse_append _ h

end Sys2Proof.Machine

namespace Sys2Proof.Proofs
open Sys2Proof.Machine

/-- Settles O27: the rows end before the surplus, so the reconstructor answers the same on both operands. -/
theorem reconstructIgnoresSurplusBytes : Obligations.ReconstructIgnoresSurplusBytes := by
  refine ⟨fun F surplus height stride => reconstruct_append surplus, ?_⟩
  intro s t m n hcap hs hn hread hapart h
  obtain ⟨-, -, hpre, -⟩ := exec_command_ends (c := .recon) h
  obtain ⟨-, hdims⟩ := (precondition_recon_iff s).1 hpre
  refine exec_of_other_operand (c := .recon) (by decide) ((precondition_recon_iff _).2 ⟨hcap, hdims⟩) ?_ hapart h
  have htake : ({ s with inp := m, inLen := n } : State).input.take (s.argHeight.toNat * (1 + strideOf s.argWidth)) =
      s.input.take (s.argHeight.toNat * (1 + strideOf s.argWidth)) := input_take_congr rfl hread hn hs
  exact commandFunction_congr_reconstruct (reconstruct_congr
    (hn.trans_eq (input_length ({ s with inp := m, inLen := n } : State)).symm) (hs.trans_eq (input_length s).symm) htake)

/-- Settles O40: `parse` stops behind the first IEND, and PARSE and DECODE use the stream through it alone. -/
theorem parseIgnoresBytesAfterIend : Obligations.ParseIgnoresBytesAfterIend := by
  refine ⟨fun J behind cs => parse_append behind, ?_⟩
  intro s t m n J cs hparse hs hsread hn hnread hcap hapart
  have hleft := parse_input_of_read hparse hs hsread
  have hright := parse_input_of_read (s := { s with inp := m, inLen := n }) hparse hn hnread
  refine ⟨hleft, ?_⟩
  have hend (c : Command) (hc : c = .parse ∨ c = .decode) (hfilter : c ≠ .filter)
      (hpre : precondition c { s with inp := m, inLen := n } = true) (h : exec (commandInstr c) s = .next t) :=
    exec_of_other_operand hfilter hpre (commandFunction_congr_parse hc (hright.trans hleft.symm)) hapart h
  rintro i hi h
  rcases List.mem_pair.1 hi with rfl | rfl
  · exact hend .parse (.inl rfl) (by decide) ((precondition_parse_iff _).2 hcap) h
  · exact hend .decode (.inr rfl) (by decide) ((precondition_decode_iff _).2 hcap) h

end Sys2Proof.Proofs
end

section
/-! The six commands whole: the end of each under its preconditions, and the statements about them (R251 to R256). -/

namespace Sys2Proof.Machine

section
variable {c : Command} {s : State} {ks : List FilterKind} {r : Result}

/-- R250: a command whose operand of `KIND` stands and whose preconditions hold has its operands. -/
theorem operands_of_kindOperand (hidle : s.status ≠ .busy) (hpre : precondition c s = true)
    (hks : kindOperand c s = .next ks) : operands c s = .next (s.input, ks) :=
  (operands_next_iff c s s.input ks).2 ⟨hidle, hpre, rfl, hks⟩

/-- R257: an entry of `KIND` that is not there stops the command. -/
theorem exec_of_kindOperand_fault {f : Fault} (hidle : s.status ≠ .busy) (hpre : precondition c s = true)
    (hks : kindOperand c s = .fault f) : exec (commandInstr c) s = .fault f := by
  have ho : operands c s = .fault f := by simp only [operands, if_neg hidle, if_pos hpre, hks]
  simp only [exec_eq_runCommand, runCommand, ho]

/-- R250: a command other than FILTER that raises. -/
theorem exec_error {e : Err} (hidle : s.status ≠ .busy) (hc : c ≠ .filter) (hpre : precondition c s = true)
    (h : commandFunction c s s.input [] = .error e) : exec (commandInstr c) s = .next (raise e s) :=
  exec_of_error (operands_of_precondition hidle hc hpre) h

/-- R250, R257: a command other than FILTER that completes. -/
theorem exec_done (hidle : s.status ≠ .busy) (hc : c ≠ .filter) (hpre : precondition c s = true)
    (h : commandFunction c s s.input [] = .ok r) (hfits : fits s.caps r = true)
    (hapart : apart s.regMap.storage r.writes s.inLen 0 = true) :
    exec (commandInstr c) s = .next (spill r.writes (commit r s)) := by
  obtain ⟨ls, hls⟩ := exists_kinds_of_commandFunction h hc
  have hread : r.kindRead s = 0 := by rw [Result.kindRead, hls]
  exact (exec_of_ok (operands_of_precondition hidle hc hpre) h).trans (finish_fits hfits (by rwa [hread]))

end

/-- R40: a result with kinds fits where its three lengths do. -/
theorem fits_of_kinds {caps : Config.Capacities} {r : Result} {ks : List FilterKind} (hkinds : r.kinds = some ks)
    (hout : fitsCap caps.capOut r.out.length = true) (hkind : fitsCap caps.capKind ks.length = true)
    (hchunks : fitsCap caps.capChunks r.chunks.length = true) : fits caps r = true := by
  refine (fits_iff caps r).2 ⟨hout, hchunks, fun ls hls => ?_⟩
  rwa [← Option.some.inj (hkinds.symm.trans hls)]

/-- R250: the state in DONE with a pixel or datastream result of `n` bytes, and `m` kinds. -/
theorem commit_of_kinds {r : Result} {ks : List FilterKind} {n m : Nat} (hkinds : r.kinds = some ks) (hout : r.out.length = n)
    (hlen : ks.length = m) (hpos : 1 ≤ m) (s : State) : commit r s = { s with
      status := .done
      err := ErrRegs.zero
      out := Memory.ofBytes 0 r.out
      outLen := n
      kind := Memory.ofBytes 0 (kindCodes ks)
      kindLen := m
      kindValid := true
      kindDiag := if r.diagnostic then List.range m else []
      chunks := r.chunks
      chunksLost := []
      nChunks := r.chunks.length
      res := (commit r s).res
      resValid := r.dims.isSome
      eng := Engine.rest } := by
  subst hout hlen
  simp only [commit, hkinds, writesKinds_some hkinds hpos]

/-- R209: the lengths of what the reconstructor answers. -/
theorem reconstruct_lengths {F out : Bytes} {height stride : Nat} {kinds : List FilterKind}
    (h : reconstruct F height stride = .ok (out, kinds)) : out.length = height * stride ∧ kinds.length = height := by
  obtain ⟨-, hresult, -⟩ := Proofs.reconstructSucceedsExactly F height stride
  obtain ⟨hout, hkinds, -⟩ := hresult out kinds h
  exact ⟨hout, hkinds⟩

/-- R251: the order of the chunks is the first test. -/
theorem checkChunks_order {cs : List Chunk} (h : cs.map (fun c => c.tag) ≠ [tagIhdr, tagIdat, tagIend]) :
    checkChunks cs = .error .chunkOrder := by
  unfold checkChunks
  split
  case h_1 c0 c1 c2 =>
    refine if_neg fun htags => h ?_
    simp only [List.map_cons, List.map_nil, htags]
  case h_2 => rfl

section
variable {c0 c1 c2 : Chunk} (h0 : c0.tag = tagIhdr) (h1 : c1.tag = tagIdat) (h2 : c2.tag = tagIend)
include h0 h1 h2

/-- R251: the declared length of the IHDR is the second. -/
theorem checkChunks_badLength (hlen : c0.length ≠ 13) : checkChunks [c0, c1, c2] = .error .badIhdrLength := by
  simp only [checkChunks, h0, h1, h2, and_self, if_true]
  exact if_neg hlen

/-- R251, R153: its fields are the third. -/
theorem checkChunks_invalid {e : Err} (hlen : c0.length = 13) (he : validate (decodeHeader c0.payload) = .error e) :
    checkChunks [c0, c1, c2] = .error e := by
  have hlength : c0.length = Config.ihdrLength := hlen
  simp only [checkChunks, h0, h1, h2, and_self, if_true, if_pos hlength, he]

theorem checkChunks_valid (hlen : c0.length = 13) (hvalid : validate (decodeHeader c0.payload) = .ok ()) :
    checkChunks [c0, c1, c2] = .ok (decodeHeader c0.payload, c1.payload) := by
  have hlength : c0.length = Config.ihdrLength := hlen
  simp only [checkChunks, h0, h1, h2, and_self, if_true, if_pos hlength, hvalid]

end

/-- R305: DECODE and RECON produce kinds that are diagnostics. -/
theorem diagnostic_of_commandFunction {c : Command} {s : State} {IN : Bytes} {ks : List FilterKind} {r : Result}
    (hc : c = .decode ∨ c = .recon) (h : commandFunction c s IN ks = .ok r) : r.diagnostic = true := by
  rcases hc with rfl | rfl
  · obtain ⟨cs, H, Z, F, out, kinds, -, -, -, -, rfl⟩ := decodeStream_eq_ok h
    rfl
  · obtain ⟨out, kinds, -, rfl⟩ := reconImage_eq_ok h
    rfl

/-- R305, C8: FILTER does not run straight after a DECODE or RECON: there is no entry of `KIND`, or entry 0 is a diagnostic. -/
theorem exec_filter_ne_next_of_diagnostic {c : Command} {s t u : State} (hc : c = .decode ∨ c = .recon)
    (h : exec (commandInstr c) s = .next t) : exec .cmdFilter t ≠ .next u := by
  intro hfilter
  obtain ⟨ls, -, hpre, hls, -⟩ := exec_command_ends (c := .filter) hfilter
  obtain ⟨-, ⟨-, hheight⟩, -, -, hkindLen⟩ := (precondition_filter_iff t).1 hpre
  rw [← hkindLen] at hheight
  obtain ⟨ks, -, -, -, ⟨e, -, rfl⟩ | ⟨r, hr, -, hapart, rfl⟩⟩ := exec_command_ends h
  case inl => exact absurd hheight (Nat.not_succ_le_zero 0)
  case inr =>
    have hcf : c ≠ .filter := by rcases hc with rfl | rfl <;> decide
    obtain ⟨fs, hfs⟩ := exists_kinds_of_commandFunction hr hcf
    obtain ⟨hdiag, -⟩ := (kindOperand_filter_iff _ ls).1 hls
    have hzero : 0 ∈ (spill r.writes (commit r s)).kindDiag := by
      have hruns := pairwise_runs_of_apart hapart
      simp only [Writes.runs, List.forall_mem_cons, List.pairwise_cons] at hruns
      obtain ⟨⟨houtKinds, -⟩, -⟩ := hruns
      have hlen : 0 < r.writes.kinds.length := by
        rw [spill_kindLen, commit_kindLen_some hfs] at hheight
        simpa only [Result.writes, hfs, kindCodes, List.length_map] using Nat.lt_of_succ_le hheight
      rw [spill_kindLen, commit_kindLen_some hfs] at hheight
      refine (mem_kindDiag_spill _ _ 0).2 ⟨?_, fun j hj hcell => ?_⟩
      · rw [commit_kindDiag_some hfs, diagnostic_of_commandFunction hc hr]
        exact List.mem_range.2 hheight
      · exact Bool.false_ne_true (houtKinds.symm.trans ((overlap_iff _ _).2 ⟨j, 0, hj, hlen, hcell⟩))
    exact absurd (hdiag 0 hzero) (Nat.not_le.2 hheight)

end Sys2Proof.Machine

namespace Sys2Proof.Proofs
open Sys2Proof.Machine

/-- Settles O50: each test of DECODE in its order, and the result it ends with. -/
theorem decodeCommandWhole : Obligations.DecodeCommandWhole := by
  refine ⟨rfl, fun J behind cs => parse_append behind, fun s hidle hcapIn => ?_⟩
  have hpre := (precondition_decode_iff s).2 hcapIn
  have hraise (e : Err) (h : decodeStream s.collab s.input = .error e) : exec .cmdDecode s = .next (raise e s) :=
    exec_error (c := .decode) hidle (by decide) hpre h
  refine ⟨fun e he => hraise e (by simp only [decodeStream, he]), fun cs hcs horder => hraise _ ?order,
    fun c0 c1 c2 H hcs h0 h1 h2 hH =>
      ⟨fun hlen => hraise _ ?length, fun hlen => ⟨fun e he => hraise e ?header, fun hvalid => ?accepted⟩⟩⟩
  case order => simp only [decodeStream, hcs, checkChunks_order horder]
  case length => simp only [decodeStream, hcs, checkChunks_badLength h0 h1 h2 hlen]
  case header => simp only [decodeStream, hcs, checkChunks_invalid h0 h1 h2 hlen (hH ▸ he)]
  case accepted =>
    have hcheck : checkChunks [c0, c1, c2] = .ok (H, c1.payload) :=
      (checkChunks_valid h0 h1 h2 hlen (hH ▸ hvalid)).trans (by rw [hH])
    refine ⟨fun hinflate => hraise _ ?inflate, fun F hF =>
      ⟨fun e he => hraise e ?rows, fun out kinds hrows hcapOut hcapKind hcapChunks hapart => ?done⟩⟩
    case inflate => simp only [decodeStream, hcs, hcheck, hinflate]
    case rows => simp only [decodeStream, hcs, hcheck, hF, strideOf, Config.bpp, he]
    case done =>
      obtain ⟨hout, hkinds⟩ := reconstruct_lengths hrows
      obtain ⟨-, hheight⟩ := validate_dims hvalid
      have hr : decodeStream s.collab s.input = .ok
          (decodeResult H.width H.height [c0, c1, c2] out kinds c1.payload.length F.length) := by
        simp only [decodeStream, hcs, hcheck, hF, strideOf, Config.bpp, hrows]
      refine ⟨Engine.rest, (exec_done (c := .decode) hidle (by decide) hpre hr
        (fits_of_kinds rfl (hout ▸ hcapOut) (hkinds ▸ hcapKind) hcapChunks) hapart).trans ?_⟩
      rw [commit_of_kinds rfl hout hkinds (by bv_omega)]
      rfl

/-- Settles O51: ENCODE always computes a result, so it ends in DONE where the result fits and lies apart. -/
theorem encodeCommandResult : Obligations.EncodeCommandResult := by
  refine ⟨rfl, fun s hidle hcapIn hwidth hheight hinLen hmax hcapOut hcapKind hcapChunks hapart => ?_⟩
  have hkinds := selectKinds_length s.input s.argWidth s.argHeight
  have hpre := (precondition_encode_iff s).2 ⟨hcapIn, ⟨hwidth, hheight⟩, hinLen, hmax⟩
  refine ⟨Engine.rest, (exec_done (c := .encode) hidle (by decide) hpre rfl
    (fits_of_kinds rfl hcapOut (hkinds ▸ hcapKind) hcapChunks) hapart).trans ?_⟩
  rw [commit_of_kinds rfl rfl hkinds hheight]
  rfl

/-- Settles O52: PARSE answers with the framer's error or the list it framed. -/
theorem parseCommandWhole : Obligations.ParseCommandWhole := by
  refine ⟨rfl, fun s hidle hcapIn => ?_⟩
  have hpre := (precondition_parse_iff s).2 hcapIn
  refine ⟨fun e he => exec_error (c := .parse) hidle (by decide) hpre ?_,
    fun cs hcs hcapOut hcapKind hcapChunks hapart => ⟨Engine.rest, Header.zero, ?_⟩⟩
  · simp only [commandFunction, parseStream, he]
  · have hr : parseStream s.input = .ok (parseResult cs) := by simp only [parseStream, hcs]
    exact exec_done (c := .parse) hidle (by decide) hpre hr (fits_of_kinds rfl hcapOut hcapKind hcapChunks) hapart

/-- Settles O53: RECON answers with the reconstructor's error or the rows it gave. -/
theorem reconCommandWhole : Obligations.ReconCommandWhole := by
  refine ⟨rfl, fun G surplus height stride => reconstruct_append surplus, fun s hidle hcapIn hwidth hheight => ?_⟩
  have hpre := (precondition_recon_iff s).2 ⟨hcapIn, hwidth, hheight⟩
  refine ⟨fun e he => ⟨exec_error (c := .recon) hidle (by decide) hpre ?_, reconstruct_error he⟩,
    fun out kinds hrows hcapOut hcapKind hcapChunks hapart => ?_⟩
  · simp only [commandFunction, reconImage, strideOf, Config.bpp, he]
  · obtain ⟨hout, hkinds⟩ := reconstruct_lengths hrows
    have hr : reconImage s.input s.argWidth s.argHeight = .ok (reconResult out kinds) := by
      simp only [reconImage, strideOf, Config.bpp, hrows]
    refine ⟨Engine.rest, Header.zero, (exec_done (c := .recon) hidle (by decide) hpre hr
      (fits_of_kinds rfl (hout ▸ hcapOut) (hkinds ▸ hcapKind) hcapChunks) hapart).trans ?_⟩
    rw [commit_of_kinds rfl hout hkinds hheight]
    rfl

/-- Settles O54: the kinds in `KIND` are FILTER's operand, but not where one of them is a diagnostic. -/
theorem filterCommandResult : Obligations.FilterCommandResult := by
  have hpre (s : State) (hcapIn : fitsCap s.caps.capIn s.inLen = true) (hwidth : 1 ≤ s.argWidth.toNat)
      (hheight : 1 ≤ s.argHeight.toNat) (hinLen : s.inLen = s.argHeight.toNat * (4 * s.argWidth.toNat))
      (hkindLen : s.kindLen = s.argHeight.toNat) (hcapKind : fitsCap s.caps.capKind s.kindLen = true) :
      precondition .filter s = true :=
    (precondition_filter_iff s).2 ⟨hcapIn, ⟨hwidth, hheight⟩, hinLen, hcapKind, hkindLen⟩
  refine ⟨rfl, ?after, ?stale, ?result⟩
  case after =>
    rintro s t u (h | h)
    · exact exec_filter_ne_next_of_diagnostic (c := .decode) (.inl rfl) h
    · exact exec_filter_ne_next_of_diagnostic (c := .recon) (.inr rfl) h
  case stale =>
    intro s hidle hcapIn hwidth hheight hinLen hkindLen hcapKind ⟨i, hi, hlt⟩
    refine exec_of_kindOperand_fault (c := .filter) hidle (hpre s hcapIn hwidth hheight hinLen hkindLen hcapKind)
      (kindOperand_stale ?_)
    exact List.any_eq_true.2 ⟨i, hi, decide_eq_true hlt⟩
  case result =>
    intro s ks hidle hcapIn hwidth hheight hinLen hkindLen hlen hcapKind hdiag hread hcapOut hcapChunks w hapart
    have hout : (filterStream s.input ks (4 * s.argWidth.toNat)).length =
        s.argHeight.toNat * (1 + 4 * s.argWidth.toNat) := by rw [filterStream_length, hlen, hkindLen]
    have ho := operands_of_kindOperand hidle (hpre s hcapIn hwidth hheight hinLen hkindLen hcapKind)
      (kindOperand_filter_of_read hlen hdiag hread)
    have hfits : fits s.caps (filterResult (filterStream s.input ks (4 * s.argWidth.toNat))) = true :=
      (fits_iff _ _).2 ⟨hout ▸ hcapOut, hcapChunks, fun ls hls => nomatch hls⟩
    refine ⟨Engine.rest, Header.zero, (exec_of_ok (c := .filter) ho rfl).trans ((finish_fits hfits hapart).trans ?_)⟩
    rw [← hout]
    rfl

/-- Settles O55: SELECT always computes kinds, one for each row. -/
theorem selectCommandResult : Obligations.SelectCommandResult := by
  refine ⟨rfl, fun s hidle hcapIn hwidth hheight hinLen hcapOut hcapKind hcapChunks hapart => ?_⟩
  have hkinds := selectKinds_length s.input s.argWidth s.argHeight
  have hpre := (precondition_select_iff s).2 ⟨hcapIn, ⟨hwidth, hheight⟩, hinLen⟩
  refine ⟨Engine.rest, Header.zero, (exec_done (c := .select) hidle (by decide) hpre rfl
    (fits_of_kinds rfl hcapOut (hkinds ▸ hcapKind) hcapChunks) hapart).trans ?_⟩
  rw [commit_of_kinds rfl rfl hkinds hheight]
  rfl

end Sys2Proof.Proofs
end

section
/-! DECODE of a datastream that ENCODE wrote, and the statement about it (R237). -/

namespace Sys2Proof.Machine

/-- R234, R109: an IDAT chunk carries fewer bytes than its length field can say. -/
theorem splitIdat_payload_lt {Z : Bytes} {maxIdat : U32} {c : Chunk} (hc : c ∈ splitIdat Z maxIdat.toNat) :
    c.payload.length < 2 ^ 32 := by
  obtain ⟨k, hk⟩ := List.mem_iff_getElem?.1 hc
  rw [splitIdat_payload_length hk]
  exact (min_le_left _ _).trans_lt maxIdat.isLt

/-- A chunk list that `mk_chunk` built is the one built from its tags and payloads. -/
theorem splitIdat_eq_map (Z : Bytes) (M : Nat) :
    ((splitIdat Z M).map fun c => (c.tag, c.payload)).map (fun p => mkChunk p.1 p.2) = splitIdat Z M := by
  simp only [splitIdat, List.map_map]
  rfl

/-- R235, R237: the datastream of an encoded image parses to IHDR, one IDAT with the whole payload, and IEND. -/
theorem parse_package (width height maxIdat : U32) (Z : Bytes) :
    parse (serialize (packageChunks width height maxIdat Z)) = .ok (merge (packageChunks width height maxIdat Z)) := by
  have hihdr : tagIhdr ≠ tagIend := by decide
  have hidat : tagIdat ≠ tagIend := by decide
  have hlength : (encodeHeader (acceptedHeader width height)).length < 2 ^ 32 := by rw [encodeHeader_length]; decide
  have hparts : ∀ p ∈ (tagIhdr, encodeHeader (acceptedHeader width height)) ::
      (splitIdat Z maxIdat.toNat).map (fun c => (c.tag, c.payload)), p.1 ≠ tagIend ∧ p.2.length < 2 ^ 32 := by
    refine List.forall_mem_cons.2 ⟨⟨hihdr, hlength⟩, fun p hp => ?_⟩
    obtain ⟨c, hc, rfl⟩ := List.mem_map.1 hp
    obtain ⟨htag, -⟩ := splitIdat_tags Z _ c hc
    exact ⟨htag ▸ hidat, splitIdat_payload_lt hc⟩
  have hparse := Proofs.parseInvertsSerialize _ [] hparts (by decide)
  rwa [List.map_cons, splitIdat_eq_map] at hparse

/-- R235, R251: its header passes every test of DECODE. -/
theorem checkChunks_package {width height : U32} (Z : Bytes) (hwidth : width ≠ 0) (hheight : height ≠ 0) :
    checkChunks [mkChunk tagIhdr (encodeHeader (acceptedHeader width height)), mkChunk tagIdat Z, mkChunk tagIend []] =
      .ok (acceptedHeader width height, Z) := by
  have hheader : decodeHeader (mkChunk tagIhdr (encodeHeader (acceptedHeader width height))).payload =
      acceptedHeader width height := decodeHeader_encodeHeader _
  refine (checkChunks_valid rfl rfl rfl rfl ?_).trans (by rw [hheader]; rfl)
  rw [hheader]
  exact validate_of_valid rfl rfl rfl rfl rfl hwidth hheight

/-- R237, R264: what DECODE computes from the datastream ENCODE computes. -/
theorem decodeStream_encodeImage {C : Config.Collaborator} {raw : Bytes} {width height maxIdat : U32}
    (hlaw : ∀ b : Bytes, inflate C (deflate C b) = some b) (hraw : raw.length = height.toNat * strideOf width)
    (hwidth : 1 ≤ width.toNat) (hheight : 1 ≤ height.toNat) (hmax : 1 ≤ maxIdat.toNat) :
    ∃ cs zLen fLen, decodeStream C (encodeImage C raw width height maxIdat).out =
      .ok (decodeResult width height cs raw (selectKinds raw width height) zLen fLen) := by
  have hkinds := selectKinds_length raw width height
  have hrows : reconstruct (filterStream raw (selectKinds raw width height) (strideOf width)) height.toNat (strideOf width) =
      .ok (raw, selectKinds raw width height) := by
    have hround := Proofs.reconstructInvertsFilter raw (selectKinds raw width height) (strideOf width) (by rwa [hkinds])
    rwa [hkinds] at hround
  refine ⟨merge (encodeImage C raw width height maxIdat).chunks, (encodeImage C raw width height maxIdat).zLen,
    (encodeImage C raw width height maxIdat).fLen, ?_⟩
  simp only [decodeStream, encodeImage, encodeResult, parse_package, merge_package _ _ _ _ hmax,
    checkChunks_package _ (ne_zero_of_pos hwidth) (ne_zero_of_pos hheight), hlaw]
  simp only [acceptedHeader, hrows]

/-- R252, R329: the kinds of a command whose writes lie apart stand in `KIND` as it wrote them. -/
theorem spill_commit_kind {r : Result} {s : State} {ks : List FilterKind} {inLen kindLen : Nat} (hkinds : r.kinds = some ks)
    (hapart : apart s.regMap.storage r.writes inLen kindLen = true) :
    (spill r.writes (commit r s)).kind = Memory.ofBytes 0 (kindCodes ks) := by
  have hruns := pairwise_runs_of_apart hapart
  simp only [Writes.runs, List.forall_mem_cons, List.pairwise_cons] at hruns
  obtain ⟨⟨houtKinds, -⟩, -⟩ := hruns
  refine (spill_kind_id (s := commit r s) houtKinds fun i hi => ?_).trans (commit_kind_some hkinds s)
  rw [commit_kind_some hkinds, read_ofBytes_zero]
  refine List.getElem?_eq_none ?_
  simpa only [Result.writes, hkinds] using hi

end Sys2Proof.Machine

namespace Sys2Proof.Proofs
open Sys2Proof.Machine

/-- Settles O58: parsing, the header codec, the collaborator's law and the reconstructor undo ENCODE's four stages in
turn. -/
theorem decodeInvertsEncodeCommand : Obligations.DecodeInvertsEncodeCommand := by
  intro s t u hlaw h hidle hcaps hown hcollab hlen hread
  obtain ⟨ks, -, hpre, -, ⟨e, he, -⟩ | ⟨r, hr, -, hapart, rfl⟩⟩ := exec_command_ends (c := .encode) h
  case inl => cases he
  case inr =>
    cases hr
    obtain ⟨-, ⟨hwidth, hheight⟩, hinLen, hmax⟩ := (precondition_encode_iff s).1 hpre
    have hinput : u.input = (encodeImage s.collab s.input s.argWidth s.argHeight s.argMaxIdat).out :=
      input_eq_of_read hlen.symm fun o ho => (hread o ho).trans (read_ofBytes_zero _ o)
    obtain ⟨cs, zLen, fLen, hdecode⟩ := decodeStream_encodeImage hlaw ((input_length s).trans hinLen) hwidth hheight hmax
    rw [← hinput, ← hcollab] at hdecode
    have hcapIn : fitsCap u.caps.capIn u.inLen = true := by rw [hcaps]; rfl
    have hfits : fits u.caps _ = true := hcaps ▸ fits_unbounded (decodeResult s.argWidth s.argHeight cs s.input
      (selectKinds s.input s.argWidth s.argHeight) zLen fLen)
    have hapartU : apart u.regMap.storage _ u.inLen 0 = true := hown ▸ apart_own (decodeResult s.argWidth s.argHeight cs
      s.input (selectKinds s.input s.argWidth s.argHeight) zLen fLen).writes u.inLen 0
    refine ⟨_, exec_done (c := .decode) hidle (by decide) ((precondition_decode_iff u).2 hcapIn) hdecode hfits hapartU,
      rfl, rfl, input_length s, rfl, rfl, ?_, rfl⟩
    exact (spill_commit_kind rfl hapartU).trans (spill_commit_kind rfl hapart).symm

end Sys2Proof.Proofs
end
